-- ==== Sys2Proof/Word.lean ====
section
/-! DEFINITION. The bit-vector types of HUFFCORE (spec 00_scope.md R6, R8): bit 0 is the least significant bit, every
value is unsigned. -/

namespace Sys2Proof

/-- A 32-bit register, command word or output word (10_state.md R17, 30_encoding.md R54). -/
abbrev Word := BitVec 32

/-- One byte lane of a register (20_memory.md R44). -/
abbrev Byte := BitVec 8

/-- One storage unit of the payload: UNIT_W = 16 bits, bit 15 first in time (20_memory.md R45). -/
abbrev StorageUnit := BitVec 16

/-- A symbol as a slot stores it: SYM_W = 21 bits (00_scope.md R6, R7). -/
abbrev Symbol := BitVec 21

end Sys2Proof
end

