-- ==== Sys2Proof/Config.lean ====
section
/-! DEFINITION. The parameters of HUFFCORE (spec 00_scope.md R6), the platform's open base address (20_memory.md R39) and
the free values the spec draws (60_exceptions.md R93, R94; 70_reset_and_hazards.md R108). -/

namespace Sys2Proof.Config

/-- SYM_MAX: the largest legal symbol value (R6, R7). -/
def symMax : Word := 0x10FFFF#32

/-- UNIT_W: bits of a storage unit (R6). -/
def unitW : Nat := 16

/-- N_SYM: symbol-table slots (R6). -/
def nSym : Nat := 256

/-- L_MAX: the longest code length in bits (R6). -/
def lMax : Nat := 64

/-- N_NODE: entries of the tree memory (R6). -/
def nNode : Nat := 1024

/-- OUT_DEPTH: words the output FIFO holds (R6). -/
def outDepth : Nat := 16

/-- The constant `ID` reads (10_state.md R18). -/
def idWord : Word := 0x48554646#32

/-- The constant `PARAMS` reads, made of its fields: UNIT_W, L_MAX, N_SYM (10_state.md R19). -/
def paramsWord : Word := BitVec.ofNat 8 unitW ++ BitVec.ofNat 8 lMax ++ BitVec.ofNat 16 nSym

/-- The constant `PARAMS2` reads, made of its fields: 0, OUT_DEPTH, N_NODE (10_state.md R19). -/
def params2Word : Word := 0#8 ++ BitVec.ofNat 8 outDepth ++ BitVec.ofNat 16 nNode

/-- Which 128-byte window of the host bus holds the registers: OPEN, a platform parameter (20_memory.md R39, 93 S1). -/
opaque windowIndex : Nat

/-- HUFF_BASE: any multiple of 128 (20_memory.md R39). -/
def huffBase : Nat := 128 * windowIndex

/-- FREE VALUE. What the n-th drawn register read returns (R93, R108: "any value", a draw per read). -/
opaque freeRead : Nat → Word

/-- FREE VALUE. The number from which the n-th aborted command's surviving prefix is drawn (R94). -/
opaque abortPoint : Nat → Nat

end Sys2Proof.Config
end

