-- ==== Sys2Proof/Syntax.lean ====
section
/-! DEFINITION. The command set of HUFFCORE (spec 30_encoding.md R61): one constructor per row of the opcode map, with the
operands the command word itself carries (R55 to R58). Operands in `ARG0..2` are read from the latched command. -/

namespace Sys2Proof

/-- The sixteen commands. Indices, lengths and the skip count are numbers (R58: unsigned, zero-extended); a storage unit
is sixteen bits. -/
inductive Instr where
  /-- NOP (40_control.md R64). -/
  | nop
  /-- SRESET (40_control.md R65). -/
  | sreset
  /-- FC_COUNT, the symbol in ARG0 (41_frequency.md R67). -/
  | fcCount
  /-- FC_READ #slot (41_frequency.md R68). -/
  | fcRead (slot : Nat)
  /-- TB_BUILD (42_tree_builder.md R69). -/
  | tbBuild
  /-- TR_READ #node (42_tree_builder.md R72). -/
  | trRead (node : Nat)
  /-- CT_DERIVE (43_code_table.md R73). -/
  | ctDerive
  /-- CT_READ #slot (43_code_table.md R75). -/
  | ctRead (slot : Nat)
  /-- CT_LOAD #len, the symbol in ARG0 and the pattern in ARG2:ARG1 (43_code_table.md R76). -/
  | ctLoad (len : Nat)
  /-- TR_REBUILD (43_code_table.md R77). -/
  | trRebuild
  /-- EN_START (44_encoder.md R79). -/
  | enStart
  /-- EN_SYM, the symbol in ARG0 (44_encoder.md R80). -/
  | enSym
  /-- EN_FLUSH (44_encoder.md R81). -/
  | enFlush
  /-- DE_START (45_decoder.md R83). -/
  | deStart
  /-- DE_UNIT #unit (45_decoder.md R85). -/
  | deUnit (unit : StorageUnit)
  /-- DE_LAST #unit, skip (45_decoder.md R86). -/
  | deLast (unit : StorageUnit) (skip : Nat)
  deriving DecidableEq, Repr

end Sys2Proof
end

