-- ==== Sys2Proof/WellFormed.lean ====
section
/-! DEFINITION. Which command terms fit their encoding (spec 30_encoding.md R56 to R58): IMM16 is 16 bits, SKIP is 4. -/

namespace Sys2Proof

/-- The command's numeric operands fit the fields of its format. -/
def Instr.wellFormed : Instr → Bool
  | .nop => true
  | .sreset => true
  | .fcCount => true
  | .fcRead slot => slot < 2 ^ 16
  | .tbBuild => true
  | .trRead node => node < 2 ^ 16
  | .ctDerive => true
  | .ctRead slot => slot < 2 ^ 16
  | .ctLoad len => len < 2 ^ 16
  | .trRebuild => true
  | .enStart => true
  | .enSym => true
  | .enFlush => true
  | .deStart => true
  | .deUnit _ => true
  | .deLast _ skip => skip < 2 ^ 4

/-- `i` can be written as a command word. -/
abbrev WellFormed (i : Instr) : Prop := i.wellFormed = true

end Sys2Proof
end

