-- ==== Sys2Proof/Decode.lean ====
section
/-! DEFINITION. The command decoder and, after it, the encoder (spec 30_encoding.md R54 to R63). -/

namespace Sys2Proof

/-- The mnemonics of R61, one per row. -/
inductive Mnemonic where
  | NOP | SRESET | FC_COUNT | FC_READ | TB_BUILD | TR_READ | CT_DERIVE | CT_READ | CT_LOAD | TR_REBUILD
  | EN_START | EN_SYM | EN_FLUSH | DE_START | DE_UNIT | DE_LAST
  deriving DecidableEq, Repr

/-- One row of the opcode map: a word `w` selects it iff `w &&& mask = pattern` (R61). -/
structure Row where
  mnemonic : Mnemonic
  pattern : Word
  mask : Word
  deriving DecidableEq, Repr

/-- `w` selects the row. -/
abbrev Row.selects (r : Row) (w : Word) : Prop := w &&& r.mask = r.pattern

/-- The opcode map of R61, row by row. -/
def opcodeMap : List Row :=
  [⟨.NOP, 0x00000000, 0xFFFFFFFF⟩, ⟨.SRESET, 0x00000001, 0xFFFFFFFF⟩,
   ⟨.FC_COUNT, 0x00000010, 0xFFFFFFFF⟩, ⟨.FC_READ, 0x00000011, 0x0000FFFF⟩,
   ⟨.TB_BUILD, 0x00000020, 0xFFFFFFFF⟩, ⟨.TR_READ, 0x00000021, 0x0000FFFF⟩,
   ⟨.CT_DERIVE, 0x00000030, 0xFFFFFFFF⟩, ⟨.CT_READ, 0x00000031, 0x0000FFFF⟩]
  ++
  [⟨.CT_LOAD, 0x00000032, 0x0000FFFF⟩, ⟨.TR_REBUILD, 0x00000033, 0xFFFFFFFF⟩,
   ⟨.EN_START, 0x00000040, 0xFFFFFFFF⟩, ⟨.EN_SYM, 0x00000041, 0xFFFFFFFF⟩,
   ⟨.EN_FLUSH, 0x00000042, 0xFFFFFFFF⟩, ⟨.DE_START, 0x00000050, 0xFFFFFFFF⟩,
   ⟨.DE_UNIT, 0x00000051, 0x0000FFFF⟩, ⟨.DE_LAST, 0x00000151, 0x0000E1FF⟩]

/-- The opcode byte OPC = `w[7:0]` (R55 to R57). -/
def opcOf (w : Word) : Byte := w.extractLsb' 0 8

/-- The immediate IMM16 = `w[31:16]` (R56, R57). -/
def imm16Of (w : Word) : BitVec 16 := w.extractLsb' 16 16

/-- The skip count SKIP = `w[12:9]` (R57). -/
def skipOf (w : Word) : BitVec 4 := w.extractLsb' 9 4

/-- The command a word of the given row stands for: its operands taken from the word's fields, zero-extended (R58). -/
def assemble (m : Mnemonic) (w : Word) : Instr :=
  match m with
  | .NOP => .nop
  | .SRESET => .sreset
  | .FC_COUNT => .fcCount
  | .FC_READ => .fcRead (imm16Of w).toNat
  | .TB_BUILD => .tbBuild
  | .TR_READ => .trRead (imm16Of w).toNat
  | .CT_DERIVE => .ctDerive
  | .CT_READ => .ctRead (imm16Of w).toNat
  | .CT_LOAD => .ctLoad (imm16Of w).toNat
  | .TR_REBUILD => .trRebuild
  | .EN_START => .enStart
  | .EN_SYM => .enSym
  | .EN_FLUSH => .enFlush
  | .DE_START => .deStart
  | .DE_UNIT => .deUnit (imm16Of w)
  | .DE_LAST => .deLast (imm16Of w) (skipOf w).toNat

/-- Why bytes or a word are no command (R62). -/
inductive Illegal where
  /-- No row has the word's opcode byte. -/
  | unassignedOpcode
  /-- A row has the opcode byte, and a bit the format reserves is set. -/
  | reservedBitSet
  /-- The bytes are not exactly one 32-bit word (R63). -/
  | notOneWord
  deriving DecidableEq, Repr

/-- Some row of the map carries the opcode byte of `w`. -/
def opcodeAssigned (w : Word) : Bool := opcodeMap.any fun r => opcOf r.pattern == opcOf w

/-- R61: `decode(w) = the row matching w, or ILLEGAL if none`. -/
def decode (w : Word) : Except Illegal Instr :=
  match opcodeMap.find? fun r => w &&& r.mask == r.pattern with
  | some r => .ok (assemble r.mnemonic w)
  | none => if opcodeAssigned w then .error .reservedBitSet else .error .unassignedOpcode

/-- A register's four byte lanes, little-endian (20_memory.md R44): the byte at the lowest address is `v[7:0]`. -/
def wordOfLanes (b0 b1 b2 b3 : Byte) : Word := b3 ++ b2 ++ b1 ++ b0

/-- Decoding the bytes a bus bridge presents for one command: four lanes, the lowest address first (R44, R63). -/
def decodeBytes : List Byte → Except Illegal Instr
  | [b0, b1, b2, b3] => decode (wordOfLanes b0 b1 b2 b3)
  | _ => .error .notOneWord

/-- Byte lane `j` of a register value: `v[8j+7:8j]` (20_memory.md R44). -/
def laneByte (v : Word) (j : Nat) : Byte := v.extractLsb' (8 * j) 8

/-- The four lanes of a word, the lowest address first (20_memory.md R44). -/
def lanesOf (v : Word) : List Byte := [laneByte v 0, laneByte v 1, laneByte v 2, laneByte v 3]

/-- The word whose low `nbits` bits are those of `w` and whose other bits are 0. -/
def tableWord (nbits w : Nat) : Word := BitVec.ofNat 32 (w % 2 ^ nbits)

/-- The command the decoder reads from a row's word: its bits laid out in byte lanes and decoded. -/
def decodeTableWord (nbits w : Nat) : Option Instr :=
  if w % 2 ^ nbits < 2 ^ 32 then (decodeBytes (lanesOf (tableWord nbits w))).toOption else none

/-! ## The encoder (R55 to R57, R61) -/

/-- Format P: bits 31:8 reserved 0, the opcode byte (R55). -/
def formatP (opc : Byte) : Word := 0#24 ++ opc

/-- Format I: IMM16, bits 15:8 reserved 0, the opcode byte (R56). -/
def formatI (imm : BitVec 16) (opc : Byte) : Word := imm ++ 0#8 ++ opc

/-- Format L: IMM16, bits 15:13 reserved 0, SKIP, LAST = 1, opcode 0x51 (R57). -/
def formatL (imm : BitVec 16) (skip : BitVec 4) : Word := imm ++ 0#3 ++ skip ++ 1#1 ++ 0x51#8

/-- The command word of a well-formed command (R61). -/
def encode : Instr → Word
  | .nop => formatP 0x00
  | .sreset => formatP 0x01
  | .fcCount => formatP 0x10
  | .fcRead slot => formatI (BitVec.ofNat 16 slot) 0x11
  | .tbBuild => formatP 0x20
  | .trRead node => formatI (BitVec.ofNat 16 node) 0x21
  | .ctDerive => formatP 0x30
  | .ctRead slot => formatI (BitVec.ofNat 16 slot) 0x31
  | .ctLoad len => formatI (BitVec.ofNat 16 len) 0x32
  | .trRebuild => formatP 0x33
  | .enStart => formatP 0x40
  | .enSym => formatP 0x41
  | .enFlush => formatP 0x42
  | .deStart => formatP 0x50
  | .deUnit unit => formatI unit 0x51
  | .deLast unit skip => formatL unit (BitVec.ofNat 4 skip)

end Sys2Proof
end

