-- ==== Sys2Proof/Machine/State.lean ====
section
/-! DEFINITION. Everything HUFFCORE holds (spec 10_state.md R11 to R37), the host beside it, the ways a step can stop, and
the state after reset. Sizes are those of 00_scope.md R6: 256 slots, 1024 tree nodes, codes of at most 64 bits. -/

namespace Sys2Proof.Machine

/-- A reference to a tree position (10_state.md R27). -/
inductive Ref where
  /-- No subtree here. -/
  | empty
  /-- The leaf of symbol-table slot `slot`. -/
  | leaf (slot : Fin 256)
  /-- Tree-memory entry `index`. -/
  | node (index : Fin 1024)
  deriving DecidableEq, Repr

/-- One tree-memory entry: child `C[0]` (left, bit 0) and child `C[1]` (right, bit 1) (R26). -/
structure Node where
  c0 : Ref
  c1 : Ref
  deriving DecidableEq, Repr

/-- One symbol-table slot (R24): LEN 0 means the symbol has no code. -/
structure Slot where
  sym : Symbol
  count : Word
  code : BitVec 64
  len : Fin 65
  deriving DecidableEq, Repr

/-- The symbol table: `SLOT[0..255]`, `NSYM` (0 to 256) and `TOTAL` (R24, R25). -/
structure SymTable where
  slots : Vector Slot 256
  nsym : Fin 257
  total : Word
  deriving DecidableEq, Repr

/-- The tree memory: `NODE[0..1023]`, `NNODE` (0 to 1024) and `ROOT` (R26 to R28). -/
structure Tree where
  nodes : Vector Node 1024
  nnode : Fin 1025
  root : Ref
  deriving DecidableEq, Repr

/-- The encoder: `ENC_ACT`, `ACC` (80 bits), `HELD` (7 bits), `ENC_UNITS` (R29). -/
structure Encoder where
  act : Bool
  acc : BitVec 80
  held : BitVec 7
  units : Word
  deriving DecidableEq, Repr

/-- The decoder: `DEC_ACT`, `CUR` (10 bits), `DEC_SYMS` (R30). -/
structure Decoder where
  act : Bool
  cur : Fin 1024
  syms : Word
  deriving DecidableEq, Repr

/-- The error state: `ERR`, `ERRCODE`, `ERRINFO`, `ERRCMD` (R21, R31). -/
structure ErrorState where
  err : Bool
  code : BitVec 8
  info : Word
  cmd : Word
  deriving DecidableEq, Repr

/-- The operand registers `ARG0..2` (R13). -/
structure Args where
  arg0 : Word
  arg1 : Word
  arg2 : Word
  deriving DecidableEq, Repr

/-- The result registers `RES0..3` (R14). -/
structure Results where
  res0 : Word
  res1 : Word
  res2 : Word
  res3 : Word
  deriving DecidableEq, Repr

/-- A latched command: its word and the operands latched with it (R32; 20_memory.md R49). -/
structure Command where
  word : Word
  args : Args
  /-- The command is the NOP of a reset, not one the host wrote: until it completes `STATUS` reads exactly 0x00000001
  (70_reset_and_hazards.md R105; log entry 14). -/
  internal : Bool
  deriving DecidableEq, Repr

/-- The named registers of the window (R17). -/
inductive Reg where
  | id | params | status | errInfo | cmd | arg0 | arg1 | arg2
  | res0 | res1 | res2 | res3 | outData | nsym | nnode | total
  | params2 | errCmd | root
  deriving DecidableEq, Repr

/-- The errors of 60_exceptions.md R89. -/
inductive ErrorName where
  | illegalCmd | cmdBusy | badSymbol | tableFull | countOvf
  | badIndex | badArg | codeTooLong | malformed | treeFull
  | missingCode | decodeError | decPartial | noTree | sequence
  deriving DecidableEq, Repr

/-- How many bytes a host access moves (20_memory.md R40 names 1, 2, 4 and 8). -/
inductive Width where
  | byte | half | word | double
  deriving DecidableEq, Repr

/-- What the host has still to do, one bus access at a time (20_memory.md R51 a; 30_encoding.md R59, R60). -/
inductive HostOp where
  /-- `MemRead(HUFF_BASE + off, width)`. -/
  | read (off : Fin 128) (width : Width)
  /-- `MemWrite(HUFF_BASE + off, width, v)`; only a 4-byte write has an effect, so only 32 bits of data are kept. -/
  | write (off : Fin 128) (width : Width) (v : Word)
  /-- The loop `POLL` of R60. -/
  | poll
  /-- The loop that ends `ENCODE` in R60: read `NSYM`, then read that many code-table rows. -/
  | readRows
  deriving DecidableEq, Repr

/-- Who moves next (20_memory.md R51 b; 70_reset_and_hazards.md R104 for the platform's reset input). -/
inductive Turn where
  /-- The host performs one bus access. -/
  | host
  /-- The CORE's execute step. -/
  | execute
  /-- The CORE's move step. -/
  | move
  /-- The platform asserts hardware reset. -/
  | hardReset
  deriving DecidableEq, Repr

/-- What one host read returned. -/
structure Reply where
  off : Fin 128
  value : Word
  deriving DecidableEq, Repr

/-- The surroundings, not HUFFCORE's state (R38): the host's program, the order of the agents' steps, what the host has
read, and the counter of draws. The MODEL's own fields. -/
structure Env where
  /-- The host's remaining accesses, in program order. -/
  host : List HostOp
  /-- Whose turns come next; when it is empty the CORE moves first (see `defaultTurn`). -/
  turns : List Turn
  /-- The values the host has read, oldest first. -/
  replies : List Reply
  /-- How many free values have been drawn. -/
  draws : Nat
  deriving DecidableEq, Repr

/-- The machine (R11). -/
structure State where
  args : Args
  res : Results
  table : SymTable
  tree : Tree
  enc : Encoder
  dec : Decoder
  error : ErrorState
  /-- The output FIFO, head first (R32). -/
  fifo : List Word
  /-- `PEND`, words emitted and not yet in the FIFO (R32). -/
  pend : List Word
  /-- `EXEC`: none, or the one latched command (R32). -/
  exec : Option Command
  env : Env
  deriving DecidableEq, Repr

/-- Ways the machine stops making progress. No state that a run from reset reaches raises one. -/
inductive Fault where
  /-- Raised by CT_DERIVE when the tree memory holds a cycle, on which the walk of 43_code_table.md R73 never ends. Safe:
  the model stops where the pseudocode gives no result. -/
  | endlessWalk
  /-- Raised by DE_UNIT and DE_LAST when a decode session is open and ROOT is not a node: 45_decoder.md R84 takes
  `ROOT = NODE(r)` as given and has no other case. Safe: the model stops. -/
  | rootNotNode
  deriving DecidableEq, Repr

/-- Words the machine gives no meaning. -/
inductive Refusal where
  /-- Raised by exec's arm of a command that has no meaning yet. Safe: the model stops. -/
  | notModelled (mnemonic : String)
  /-- Raised by the execute step when `EXEC` holds a word that decodes to no command, which acceptance never latches
  (20_memory.md R49). Safe: the model stops. -/
  | illegalLatched (why : Illegal)
  deriving DecidableEq, Repr

/-- What a meaning and a step answer. -/
abbrev Result := Host.Outcome State Fault Refusal

/-- A slot as reset leaves it (R36). -/
def Slot.reset : Slot := ⟨0, 0, 0, 0⟩

/-- A tree-memory entry with two EMPTY children (R36; 43_code_table.md R77). -/
def Node.blank : Node := ⟨.empty, .empty⟩

/-- The internal NOP that reset leaves in `EXEC` (R36; 70_reset_and_hazards.md R104). -/
def internalNop : Command := ⟨0x00000000#32, ⟨0, 0, 0⟩, true⟩

/-- Every piece of state at the value of R36; around it a host that asks nothing. -/
def State.reset : State where
  args := ⟨0, 0, 0⟩
  res := ⟨0, 0, 0, 0⟩
  table := ⟨Vector.replicate 256 Slot.reset, 0, 0⟩
  tree := ⟨Vector.replicate 1024 Node.blank, 0, .empty⟩
  enc := ⟨false, 0, 0, 0⟩
  dec := ⟨false, 0, 0⟩
  error := ⟨false, 0, 0, 0⟩
  fifo := []
  pend := []
  exec := some internalNop
  env := ⟨[], [], [], 0⟩

end Sys2Proof.Machine
end

