-- ==== Sys2Proof/Machine/Ops.lean ====
section
/-! DEFINITION. The named operations over the machine's state (spec 00_scope.md R9): recording an error and leaving the error
state, emitting words, the symbol-table primitives, the tree-memory primitives, the result registers. -/

namespace Sys2Proof.Machine

/-! ## Raising an error, and the only way back (60_exceptions.md R88 to R96) -/

/-- The code of R89. -/
def ErrorName.code : ErrorName → BitVec 8
  | .illegalCmd => 0x01
  | .cmdBusy => 0x02
  | .badSymbol => 0x03
  | .tableFull => 0x04
  | .countOvf => 0x05
  | .badIndex => 0x06
  | .badArg => 0x07
  | .codeTooLong => 0x08
  | .malformed => 0x09
  | .treeFull => 0x0A
  | .missingCode => 0x0B
  | .decodeError => 0x0C
  | .decPartial => 0x0D
  | .noTree => 0x0E
  | .sequence => 0x0F

/-- R90: the first error is recorded with its info word and the command word `w`; a later one changes nothing. -/
def ErrorState.record (e : ErrorState) (w : Word) (n : ErrorName) (info : Word) : ErrorState :=
  if e.err then e else ⟨true, n.code, info, w⟩

/-- Taking the only exception HUFFCORE has: `raise E(info)` with ERRCMD `w` (R88, R90, R95). -/
def State.raiseWith (s : State) (w : Word) (n : ErrorName) (info : Word) : State :=
  { s with error := s.error.record w n info }

/-- The command being performed: the one latched in `EXEC` (20_memory.md R48). The execute step performs a command only
when there is one; with `EXEC = none` this reads what a latch of word 0 would hold now. -/
def State.latched (s : State) : Command := s.exec.getD ⟨0, s.args, false⟩

/-- `raise E(info)` within a command: ERRCMD is `EXEC.word` (R90). -/
def State.raise (s : State) (n : ErrorName) (info : Word) : State := s.raiseWith s.latched.word n info

/-- Reset, by hardware or by SRESET: one atomic step that sets every piece of HUFFCORE's state to its value of
10_state.md R36 (70_reset_and_hazards.md R104). It is also the only return from the error state (R92, R96). The host and
the draws are not HUFFCORE's and go on. -/
def State.resetCore (s : State) : State := { State.reset with env := s.env }

/-! ## Output (20_memory.md R46, R47) -/

/-- A UNIT word: `0xA0000000 | unit`. -/
def unitWord (u : StorageUnit) : Word := 0xA000#16 ++ u

/-- A SYMBOL word: `0xC0000000 | symbol`. -/
def symbolWord (y : Symbol) : Word := 0b11000000000#11 ++ y

/-- `emit` of several words in order: they go to the tail of `PEND`. -/
def State.emit (s : State) (ws : List Word) : State := { s with pend := s.pend ++ ws }

/-- All four result registers (10_state.md R14). -/
def State.setRes (s : State) (r0 r1 r2 r3 : Word) : State := { s with res := ⟨r0, r1, r2, r3⟩ }

/-! ## The symbol table (10_state.md R24, R25) -/

/-- The indices of the valid slots, `0 .. NSYM-1` in order. -/
def SymTable.valid (t : SymTable) : List (Fin 256) := (List.finRange 256).take t.nsym.val

/-- `lookup(s)`: the valid slot that holds symbol `y`, or none. -/
def SymTable.lookup (t : SymTable) (y : Word) : Option (Fin 256) :=
  t.valid.find? fun i => t.slots[i].sym.setWidth 32 == y

/-- Rewriting one slot. -/
def SymTable.modify (t : SymTable) (i : Fin 256) (f : Slot → Slot) : SymTable :=
  { t with slots := t.slots.set i (f t.slots[i]) }

/-- `alloc(s)`: a fresh slot with count 0 and no code; none where it raises `E_TABLE_FULL`. -/
def SymTable.alloc (t : SymTable) (y : Word) : Option (Fin 256 × SymTable) :=
  if h : t.nsym.val < 256 then
    some (⟨t.nsym.val, h⟩,
      { t with slots := t.slots.set t.nsym.val ⟨y.setWidth 21, 0, 0, 0⟩ h
               nsym := ⟨t.nsym.val + 1, by omega⟩ })
  else none

/-- `i <- lookup(s); if i == NONE: i <- alloc(s)`, the opening of FC_COUNT and CT_LOAD. -/
def SymTable.slotFor (t : SymTable) (y : Word) : Option (Fin 256 × SymTable) :=
  match t.lookup y with
  | some i => some (i, t)
  | none => t.alloc y

/-- `SLOT[i].CODE <- code; SLOT[i].LEN <- len`. -/
def SymTable.setCode (t : SymTable) (i : Fin 256) (code : BitVec 64) (len : Fin 65) : SymTable :=
  t.modify i fun x => { x with code := code, len := len }

/-- `SLOT[i].COUNT <- SLOT[i].COUNT + 1; TOTAL <- TOTAL + 1` (41_frequency.md R67). -/
def SymTable.countOne (t : SymTable) (i : Fin 256) : SymTable :=
  { t.modify i (fun x => { x with count := x.count + 1 }) with total := t.total + 1 }

/-! ## The tree memory (10_state.md R26 to R28) -/

/-- The 32-bit encoding of a Ref: the kind in bits 31:30, the index in bits 15:0 (R27). -/
def Ref.word : Ref → Word
  | .empty => 0x00000000
  | .leaf i => 0b01#2 ++ 0#14 ++ BitVec.ofNat 16 i.val
  | .node k => 0b10#2 ++ 0#14 ++ BitVec.ofNat 16 k.val

/-- `NODE[k].C[b]`: the left child for bit 0, the right for bit 1 (R26). -/
def Node.child (n : Node) (b : Bool) : Ref := if b then n.c1 else n.c0

/-- The node with child `b` replaced. -/
def Node.setChild (n : Node) (b : Bool) (r : Ref) : Node := if b then { n with c1 := r } else { n with c0 := r }

/-- `k <- NNODE; NODE[k] <- n; NNODE <- NNODE + 1`; none when `NNODE = 1024`. -/
def Tree.alloc (t : Tree) (n : Node) : Option (Fin 1024 × Tree) :=
  if h : t.nnode.val < 1024 then
    some (⟨t.nnode.val, h⟩,
      { t with nodes := t.nodes.set t.nnode.val n h, nnode := ⟨t.nnode.val + 1, by omega⟩ })
  else none

/-- `NODE[k].C[b] <- r`. -/
def Tree.setChild (t : Tree) (k : Fin 1024) (b : Bool) (r : Ref) : Tree :=
  { t with nodes := t.nodes.set k (t.nodes[k].setChild b r) }

end Sys2Proof.Machine
end

