-- ==== Sys2Proof/Machine/Operands.lean ====
section
/-! DEFINITION. The operands a command reads from its latched argument registers and their checks (spec 30_encoding.md R58).
The operands in the command word itself are taken out by the decoder. -/

namespace Sys2Proof.Machine

/-- The symbol operand: `ARG0` as latched, all 32 bits. -/
def State.symbolArg (s : State) : Word := s.latched.args.arg0

/-- `s <= SYM_MAX`, else `E_BAD_SYMBOL` (00_scope.md R7). -/
abbrev LegalSymbol (y : Word) : Prop := y ≤ Config.symMax

/-- `1 <= len <= L_MAX`, else `E_BAD_ARG`. -/
abbrev LegalLength (len : Nat) : Prop := 1 ≤ len ∧ len ≤ Config.lMax

/-- The pattern operand `{ARG2, ARG1}` as latched, all 64 bits. -/
def State.patternArg (s : State) : BitVec 64 := s.latched.args.arg2 ++ s.latched.args.arg1

/-- A pattern masked to its low `len` bits: `p & (2^len - 1)` (43_code_table.md R76). -/
def lowBits (p : BitVec 64) (len : Nat) : BitVec 64 := BitVec.ofNat 64 (p.toNat % 2 ^ len)

/-- A number put in a 32-bit register (`zext_32`, and the info word of an error). -/
def word32 (n : Nat) : Word := BitVec.ofNat 32 n

/-- The bit positions `dec_bits(u, nb)` visits, `15 downto 16 - nb` (45_decoder.md R84). -/
def unitBits (nb : Nat) : List Nat := (List.range nb).map fun k => 15 - k

end Sys2Proof.Machine
end

