-- ==== Sys2Proof/Machine/Flags.lean ====
section
/-! DEFINITION. The status flags (spec 10_state.md R20, R33, R34). HUFFCORE has no arithmetic condition codes. -/

namespace Sys2Proof.Machine

/-- `BUSY = 1` iff `EXEC != none` or `PEND` is non-empty (R33). -/
def State.busy (s : State) : Bool := s.exec.isSome || !s.pend.isEmpty

/-- `OUT_COUNT`: the FIFO's length (R20). -/
def State.outCount (s : State) : BitVec 5 := BitVec.ofNat 5 s.fifo.length

/-- `STATUS` with every field exact (R20): 31:21 reserved, OUT_COUNT, ERRCODE, HELD[3:0], DEC_ACT, ENC_ACT, ERR, BUSY. -/
def State.statusWord (s : State) : Word :=
  0#11 ++ s.outCount ++ s.error.code ++ s.enc.held.extractLsb' 0 4 ++ BitVec.ofBool s.dec.act
    ++ BitVec.ofBool s.enc.act ++ BitVec.ofBool s.error.err ++ BitVec.ofBool s.busy

/-- `BUSY = 1` or `ERR = 1`: the results and the copies read any value (60_exceptions.md R93, 70_reset_and_hazards.md
R108). -/
def State.readsDrawn (s : State) : Bool := s.busy || s.error.err

/-- A reset has not completed: `EXEC` still holds its internal NOP (70_reset_and_hazards.md R105). -/
def State.resetting (s : State) : Bool := s.exec.any Command.internal

/-- STATUS bits 7:2 read any value: in the error state (60_exceptions.md R93), and while `BUSY = 1` (70_reset_and_hazards.md
R108) on account of anything but a reset. After a reset `STATUS` reads exactly 0x00000001 until the internal NOP completes
(R105 with 10_state.md R36; 90_conflicts.md C12): DEDUCED, that R105 is the exception to R108 (log entry 14). -/
def State.statusDrawn (s : State) : Bool := (s.busy && !s.resetting) || s.error.err

/-- The bits of STATUS that are drawn then: ENC_ACT, DEC_ACT and HELD, bits 7:2. -/
def drawnStatusBits : Word := 0x000000FC#32

/-- `STATUS` with bits 7:2 replaced by those of a draw. -/
def mixStatus (exact draw : Word) : Word := (exact &&& ~~~drawnStatusBits) ||| (draw &&& drawnStatusBits)

end Sys2Proof.Machine
end

