-- ==== Sys2Proof/Machine/CodeTable.lean ====
section
/-! DEFINITION. The code-table walker and the tree reconstructor (spec 43_code_table.md). -/

namespace Sys2Proof.Machine

/-- How the walk of R73 ends. -/
inductive WalkEnd where
  /-- Every leaf is recorded. -/
  | done (tab : SymTable)
  /-- A leaf lies deeper than L_MAX; the codes recorded before it stay. -/
  | tooLong (slot : Fin 256) (tab : SymTable)
  /-- A path of more than 1024 nodes: the tree memory holds a cycle and the walk never ends. -/
  | endless
  deriving DecidableEq, Repr

/-- `walk(r, p, l)` of R73 with prefix `p` and depth `l`, pre-order, left child first. `fuel` bounds the nodes of one path:
a path without a repeated node has at most 1024. -/
def Tree.walk (t : Tree) : Nat → Ref → Nat → Nat → SymTable → WalkEnd
  | _, .empty, _, _, tab => .done tab
  | _, .leaf i, p, l, tab =>
    if h : l ≤ 64 then .done (tab.setCode i (BitVec.ofNat 64 p) ⟨max l 1, by omega⟩) else .tooLong i tab
  | 0, .node _, _, _, _ => .endless
  | fuel + 1, .node k, p, l, tab =>
    match t.walk fuel t.nodes[k].c0 (p <<< 1) (l + 1) tab with
    | .done tab' => t.walk fuel t.nodes[k].c1 ((p <<< 1) ||| 1) (l + 1) tab'
    | e => e

/-- `for i = 0 .. NSYM-1: SLOT[i].CODE <- 0; SLOT[i].LEN <- 0` (R73). -/
def SymTable.clearCodes (t : SymTable) : SymTable := t.valid.foldl (fun tab i => tab.setCode i 0 0) t

/-- CT_DERIVE: derive the code table from the tree (R73). -/
def execCtDerive (s : State) : Result :=
  match s.tree.walk 1024 s.tree.root 0 0 s.table.clearCodes with
  | .done tab => .next { s with table := tab }
  | .tooLong i tab => .next (State.raise { s with table := tab } .codeTooLong (word32 i.val))
  | .endless => .fault .endlessWalk

/-- CT_READ: read one code-table entry (R75). -/
def execCtRead (slot : Nat) (s : State) : Result :=
  if h : slot < s.table.nsym.val then
    let x := s.table.slots[slot]'(by omega)
    .next (s.setRes (x.sym.setWidth 32) (x.code.extractLsb' 0 32) (x.code.extractLsb' 32 32) (word32 x.len.val))
  else .next (s.raise .badIndex (word32 slot))

/-- CT_LOAD: write one code-table entry (R76). The checks run in the order of 60_exceptions.md R91. -/
def execCtLoad (len : Nat) (s : State) : Result :=
  let y := s.symbolArg
  if ¬ LegalSymbol y then .next (s.raise .badSymbol y)
  else if h : LegalLength len then
    match s.table.slotFor y with
    | none => .next (s.raise .tableFull y)
    | some (i, t) =>
      .next { s with table := t.setCode i (lowBits s.patternArg len) ⟨len, Nat.lt_succ_of_le h.2⟩ }
  else .next (s.raise .badArg (word32 len))

/-- How placing one code's path ends (R77). -/
inductive PlaceEnd where
  /-- The leaf is in the tree. -/
  | placed (t : Tree)
  /-- The path collides with a leaf, or ends where a leaf or node already is. -/
  | malformed (t : Tree)
  /-- A new node is needed and `NNODE = 1024`. -/
  | full (t : Tree)
  deriving DecidableEq, Repr

/-- The inner loop of R77 for slot `i`, standing at node `cur` with the code's low bits `j-1 .. 0` still to walk: lazily
created nodes on the way, the leaf at the final bit. -/
def Tree.place (i : Fin 256) (code : BitVec 64) : Nat → Fin 1024 → Tree → PlaceEnd
  | 0, _, t => .placed t
  | 1, cur, t =>
    if t.nodes[cur].child (code.getLsbD 0) = .empty then .placed (t.setChild cur (code.getLsbD 0) (.leaf i))
    else .malformed t
  | j + 2, cur, t =>
    match t.nodes[cur].child (code.getLsbD (j + 1)) with
    | .empty =>
      match t.alloc Node.blank with
      | none => .full t
      | some (k, t') => Tree.place i code (j + 1) k (t'.setChild cur (code.getLsbD (j + 1)) (.node k))
    | .leaf _ => .malformed t
    | .node k => Tree.place i code (j + 1) k t

/-- How the reconstruction ends (R77): the tree as far as it was built, and the error with the slot it names. -/
structure RebuildEnd where
  tree : Tree
  error : Option (ErrorName × Fin 256)
  deriving DecidableEq, Repr

/-- The outer loop of R77 over the given slots, in order; a slot with `LEN = 0` has no code and is skipped. -/
def Tree.placeAll (tab : SymTable) : List (Fin 256) → Tree → RebuildEnd
  | [], t => ⟨t, none⟩
  | i :: rest, t =>
    if tab.slots[i].len = 0 then Tree.placeAll tab rest t
    else match Tree.place i tab.slots[i].code tab.slots[i].len.val 0 t with
      | .placed t' => Tree.placeAll tab rest t'
      | .malformed t' => ⟨t', some (.malformed, i)⟩
      | .full t' => ⟨t', some (.treeFull, i)⟩

/-- `NNODE <- 1; NODE[0] <- (EMPTY, EMPTY); ROOT <- NODE(0)`, the placeholder root (R77). -/
def Tree.placeholder (t : Tree) : Tree := { nodes := t.nodes.set 0 Node.blank, nnode := 1, root := .node 0 }

/-- TR_REBUILD: rebuild the tree from the code table and close any decode session (R77). -/
def execTrRebuild (s : State) : Result :=
  let r := Tree.placeAll s.table s.table.valid s.tree.placeholder
  let s' := { s with tree := r.tree, dec := { s.dec with act := false } }
  match r.error with
  | none => .next s'
  | some (n, i) => .next (s'.raise n (word32 i.val))

end Sys2Proof.Machine
end

