-- ==== Sys2Proof/Machine/Control.lean ====
section
/-! DEFINITION. The control commands (spec 40_control.md). -/

namespace Sys2Proof.Machine

/-- NOP does nothing (R64). -/
def execNop (s : State) : Result := .next s

/-- SRESET performs the reset (R65; 70_reset_and_hazards.md R104). -/
def execSreset (s : State) : Result := .next s.resetCore

end Sys2Proof.Machine
end

