-- ==== Sys2Proof/Machine/Decoder.lean ====
section
/-! DEFINITION. The decoder, the tree walk over storage units (spec 45_decoder.md). -/

namespace Sys2Proof.Machine

/-- The kind of a Ref as `E_NO_TREE` reports it: 0 for EMPTY, 1 for LEAF (R83; 60_exceptions.md R89). -/
def Ref.kind : Ref → Word
  | .empty => 0
  | .leaf _ => 1
  | .node _ => 2

/-- DE_START: open a decode session at the tree root; one already open restarts (R83). -/
def execDeStart (s : State) : Result :=
  match s.tree.root with
  | .node r => .next { s with dec := ⟨true, r, 0⟩ }
  | c => .next (s.raise .noTree c.kind)

/-- How `dec_bits` ends (R84): the decoder, the words emitted, and the bit at which it raised `E_DECODE`, if it did. -/
structure DecEnd where
  dec : Decoder
  out : List Word
  bad : Option Nat
  deriving DecidableEq, Repr

/-- `dec_bits` of R84 over the given bit positions of `u`, in a tree whose root is node `r`. -/
def decBits (tab : SymTable) (t : Tree) (r : Fin 1024) (u : StorageUnit) : List Nat → Decoder → DecEnd
  | [], d => ⟨d, [], none⟩
  | j :: js, d =>
    match t.nodes[d.cur].child (u.getLsbD j) with
    | .empty => ⟨d, [], some j⟩
    | .leaf i =>
      let e := decBits tab t r u js { d with syms := d.syms + 1, cur := r }
      { e with out := symbolWord tab.slots[i].sym :: e.out }
    | .node k => decBits tab t r u js { d with cur := k }

/-- The state after `dec_bits`: the walk's position and count, and the words it emitted before it ended. -/
def State.afterBits (s : State) (e : DecEnd) : State := State.emit { s with dec := e.dec } e.out

/-- DE_UNIT: decode one full storage unit that is not the last (R85). -/
def execDeUnit (unit : StorageUnit) (s : State) : Result :=
  if ¬ s.dec.act then .next (s.raise .sequence 0)
  else match s.tree.root with
    | .node r =>
      let e := decBits s.table s.tree r unit (unitBits 16) s.dec
      match e.bad with
      | none => .next (s.afterBits e)
      | some j => .next ((s.afterBits e).raise .decodeError (word32 j))
    | _ => .fault .rootNotNode

/-- DE_LAST: decode the final storage unit, stopping `skip` bits early, and close the session (R86). -/
def execDeLast (unit : StorageUnit) (skip : Nat) (s : State) : Result :=
  if ¬ s.dec.act then .next (s.raise .sequence 0)
  else match s.tree.root with
    | .node r =>
      let e := decBits s.table s.tree r unit (unitBits (16 - skip)) s.dec
      match e.bad with
      | some j => .next ((s.afterBits e).raise .decodeError (word32 j))
      | none =>
        if e.dec.cur = r then
          .next (State.setRes (s.afterBits { e with dec := { e.dec with act := false } }) e.dec.syms 0 0 0)
        else .next ((s.afterBits e).raise .decPartial (word32 e.dec.cur.val))
    | _ => .fault .rootNotNode

end Sys2Proof.Machine
end

