-- ==== Sys2Proof/Machine/Encoder.lean ====
section
/-! DEFINITION. The encoder, the bit packer (spec 44_encoder.md). -/

namespace Sys2Proof.Machine

/-- EN_START: open an encode session; one already open is dropped (R79). -/
def execEnStart (s : State) : Result := .next { s with enc := ⟨true, 0, 0, 0⟩ }

/-- `ACC <- (ACC << len) | code; HELD <- HELD + len` (R80), each stored in its field's width. -/
def Encoder.append (e : Encoder) (code : BitVec 64) (len : Nat) : Encoder :=
  { e with acc := (e.acc <<< len) ||| code.setWidth 80, held := e.held + BitVec.ofNat 7 len }

/-- The top 16 of the held bits: `(ACC >> (HELD - 16)) & 0xFFFF` (R80). -/
def Encoder.topUnit (e : Encoder) : StorageUnit := e.acc.extractLsb' (e.held.toNat - 16) 16

/-- One round of R80's loop: the unit is counted, 16 bits are dropped, the remaining held bits are kept. -/
def Encoder.dropUnit (e : Encoder) : Encoder :=
  { e with units := e.units + 1
           held := e.held - 16
           acc := e.acc &&& BitVec.ofNat 80 (2 ^ (e.held.toNat - 16) - 1) }

/-- `while HELD >= 16: emit ...` (R80): the encoder afterwards and the words emitted, at most `fuel` rounds. HELD is at
most 127, so eight rounds always suffice. -/
def Encoder.drain : Nat → Encoder → Encoder × List Word
  | 0, e => (e, [])
  | fuel + 1, e =>
    if 16 ≤ e.held.toNat then
      ((Encoder.drain fuel e.dropUnit).1, unitWord e.topUnit :: (Encoder.drain fuel e.dropUnit).2)
    else (e, [])

/-- The slot that gives symbol `y` a code: it is valid, holds `y` and has `LEN >= 1` (R80). -/
def SymTable.codeOf (t : SymTable) (y : Word) : Option Slot :=
  match t.lookup y with
  | none => none
  | some i => if t.slots[i].len = 0 then none else some t.slots[i]

/-- EN_SYM: encode the symbol in ARG0 (R80). The checks run in the order of 60_exceptions.md R91. -/
def execEnSym (s : State) : Result :=
  let y := s.symbolArg
  if ¬ s.enc.act then .next (s.raise .sequence 0)
  else if ¬ LegalSymbol y then .next (s.raise .badSymbol y)
  else match s.table.codeOf y with
    | none => .next (s.raise .missingCode y)
    | some x =>
      let r := Encoder.drain 8 (s.enc.append x.code x.len.val)
      .next (State.emit { s with enc := r.1 } r.2)

/-- The held bits shifted up to a whole unit, the low-order padding 0: `(ACC << (16 - HELD)) & 0xFFFF` (R81). -/
def Encoder.paddedUnit (e : Encoder) : StorageUnit := (e.acc <<< (16 - e.held.toNat)).setWidth 16

/-- EN_FLUSH: emit the padded final unit, report skipLast and the unit count, close the session (R81). -/
def execEnFlush (s : State) : Result :=
  let closed : Encoder := { s.enc with act := false, acc := 0, held := 0 }
  if ¬ s.enc.act then .next (s.raise .sequence 0)
  else if 0 < s.enc.held.toNat then
    let units := s.enc.units + 1
    .next (State.setRes (State.emit { s with enc := { closed with units := units } } [unitWord s.enc.paddedUnit])
      (word32 (16 - s.enc.held.toNat)) units 0 0)
  else .next (State.setRes { s with enc := closed } 0 s.enc.units 0 0)

end Sys2Proof.Machine
end

