-- ==== Sys2Proof/Machine/Frequency.lean ====
section
/-! DEFINITION. The frequency counter (spec 41_frequency.md). -/

namespace Sys2Proof.Machine

/-- FC_COUNT: count one occurrence of the symbol in ARG0 (R67). The checks run in the order of 60_exceptions.md R91. -/
def execFcCount (s : State) : Result :=
  let y := s.symbolArg
  if ¬ LegalSymbol y then .next (s.raise .badSymbol y)
  else if s.table.total = 0xFFFFFFFF#32 then .next (s.raise .countOvf y)
  else match s.table.slotFor y with
    | none => .next (s.raise .tableFull y)
    | some (i, t) => .next { s with table := t.countOne i }

/-- FC_READ: read one frequency-table entry (R68). -/
def execFcRead (slot : Nat) (s : State) : Result :=
  if h : slot < s.table.nsym.val then
    let x := s.table.slots[slot]'(by omega)
    .next (s.setRes (x.sym.setWidth 32) x.count 0 0)
  else .next (s.raise .badIndex (word32 slot))

end Sys2Proof.Machine
end

