-- ==== Sys2Proof/Machine/TreeBuilder.lean ====
section
/-! DEFINITION. The tree builder (spec 42_tree_builder.md): the greedy merge with the tie-break of R70. -/

namespace Sys2Proof.Machine

/-- An element of the working list `W`: a subtree and its weight, an unsigned integer (R69). -/
structure Weighted where
  ref : Ref
  weight : Nat
  deriving DecidableEq, Repr

/-- Put `x` into a list sorted by descending weight, before the first element that does not outweigh it. -/
def insertDesc (x : Weighted) : List Weighted → List Weighted
  | [] => [x]
  | y :: ys => if y.weight > x.weight then y :: insertDesc x ys else x :: y :: ys

/-- `stable_sort_desc(W)`: weights descend, and elements of equal weight keep their order (R70). -/
def stableSortDesc : List Weighted → List Weighted
  | [] => []
  | x :: xs => insertDesc x (stableSortDesc xs)

/-- The working list to begin with: `(LEAF(i), SLOT[i].COUNT)` for every valid slot, in slot order (R69). -/
def SymTable.leaves (t : SymTable) : List Weighted :=
  t.valid.map fun i => ⟨.leaf i, t.slots[i].count.toNat⟩

/-- The merge loop of R69 on an already sorted list, at most `fuel` rounds: the last element becomes the left child of a
new node, the next-last its right child, the node is reinserted at the end and the list sorted again; the only element
left is the root. Each round shortens the list by one, so its length is fuel enough. The tree memory cannot fill: at
most 255 nodes are made (R69, R71). -/
def mergeLoop : Nat → List Weighted → Tree → Tree
  | 0, _, t => t
  | fuel + 1, w, t =>
    match w.reverse with
    | [] => t
    | [x] => { t with root := x.ref }
    | l :: r :: rest =>
      match t.alloc ⟨l.ref, r.ref⟩ with
      | none => t
      | some (k, t') =>
        mergeLoop fuel (stableSortDesc (rest.reverse ++ [⟨.node k, l.weight + r.weight⟩])) t'

/-- The tree TB_BUILD leaves (R69). -/
def Tree.build (t : Tree) (tab : SymTable) : Tree :=
  match tab.nsym.val with
  | 0 => { t with nnode := 0, root := .empty }
  | 1 => { t with nnode := 0, root := .leaf 0 }
  | n => mergeLoop n (stableSortDesc tab.leaves) { t with nnode := 0 }

/-- TB_BUILD: build the Huffman tree from the frequency table and close any decode session (R69). -/
def execTbBuild (s : State) : Result :=
  .next { s with tree := s.tree.build s.table, dec := { s.dec with act := false } }

/-- TR_READ: read one tree node (R72). -/
def execTrRead (node : Nat) (s : State) : Result :=
  if h : node < s.tree.nnode.val then
    let n := s.tree.nodes[node]'(by omega)
    .next (s.setRes n.c0.word n.c1.word s.tree.root.word (word32 s.tree.nnode.val))
  else .next (s.raise .badIndex (word32 node))

end Sys2Proof.Machine
end

