-- ==== Sys2Proof/Machine/Dispatch.lean ====
section
/-! DEFINITION. The meaning of every command, one arm per constructor (spec 30_encoding.md R61). -/

namespace Sys2Proof.Machine

-- The pseudocode of the command's rule, run on the operands latched in EXEC (20_memory.md R48).
def exec (i : Instr) (s : State) : Host.Outcome State Fault Refusal :=
  match i with
  | .nop => Sys2Proof.Machine.execNop s
  | .sreset => Sys2Proof.Machine.execSreset s
  | .fcCount => Sys2Proof.Machine.execFcCount s
  | .fcRead slot => Sys2Proof.Machine.execFcRead slot s
  | .tbBuild => Sys2Proof.Machine.execTbBuild s
  | .trRead node => Sys2Proof.Machine.execTrRead node s
  | .ctDerive => Sys2Proof.Machine.execCtDerive s
  | .ctRead slot => Sys2Proof.Machine.execCtRead slot s
  | .ctLoad len => Sys2Proof.Machine.execCtLoad len s
  | .trRebuild => Sys2Proof.Machine.execTrRebuild s
  | .enStart => Sys2Proof.Machine.execEnStart s
  | .enSym => Sys2Proof.Machine.execEnSym s
  | .enFlush => Sys2Proof.Machine.execEnFlush s
  | .deStart => Sys2Proof.Machine.execDeStart s
  | .deUnit unit => Sys2Proof.Machine.execDeUnit unit s
  | .deLast unit skip => Sys2Proof.Machine.execDeLast unit skip s

end Sys2Proof.Machine
end

