-- ==== Sys2Proof/Machine/Window.lean ====
section
/-! DEFINITION. The register window (spec 10_state.md R17 to R23; 20_memory.md R39 to R46): the register map, what each
register reads, and the host's read access. -/

namespace Sys2Proof.Machine

/-- The offset of a register (R17). -/
def Reg.offset : Reg → Fin 128
  | .id => 0x00
  | .params => 0x04
  | .status => 0x08
  | .errInfo => 0x0C
  | .cmd => 0x10
  | .arg0 => 0x14
  | .arg1 => 0x18
  | .arg2 => 0x1C
  | .res0 => 0x20
  | .res1 => 0x24
  | .res2 => 0x28
  | .res3 => 0x2C
  | .outData => 0x30
  | .nsym => 0x34
  | .nnode => 0x38
  | .total => 0x3C
  | .params2 => 0x40
  | .errCmd => 0x44
  | .root => 0x48

/-- The register map read the other way: the register at a word-aligned offset; 0x4C to 0x7C are reserved (R17; R43). -/
def regAt (off : Fin 128) : Option Reg :=
  match off.val with
  | 0x00 => some .id
  | 0x04 => some .params
  | 0x08 => some .status
  | 0x0C => some .errInfo
  | 0x10 => some .cmd
  | 0x14 => some .arg0
  | 0x18 => some .arg1
  | 0x1C => some .arg2
  | 0x20 => some .res0
  | 0x24 => some .res1
  | 0x28 => some .res2
  | 0x2C => some .res3
  | 0x30 => some .outData
  | 0x34 => some .nsym
  | 0x38 => some .nnode
  | 0x3C => some .total
  | 0x40 => some .params2
  | 0x44 => some .errCmd
  | 0x48 => some .root
  | _ => none

/-- The offset a byte address of the host bus has in the window, none outside it (R39). -/
def windowOffset (addr : Nat) : Option (Fin 128) :=
  if h : Config.huffBase ≤ addr ∧ addr < Config.huffBase + 128 then some ⟨addr - Config.huffBase, by omega⟩ else none

/-- The one supported access: four bytes at a multiple of 4 (R40; HUFF_BASE is a multiple of 128). -/
abbrev Supported (off : Fin 128) (width : Width) : Prop := width = .word ∧ off.val % 4 = 0

/-- The register an access reaches: none for a reserved offset (R43) or an unsupported access (R40). -/
def accessedReg (off : Fin 128) (width : Width) : Option Reg := if Supported off width then regAt off else none

/-- The registers that read any value while `BUSY = 1` or `ERR = 1` (60_exceptions.md R93, 70_reset_and_hazards.md R108). -/
def Reg.volatile : Reg → Bool
  | .res0 | .res1 | .res2 | .res3 | .nsym | .nnode | .total | .root => true
  | .id | .params | .status | .errInfo | .cmd | .arg0 | .arg1 | .arg2 | .outData | .params2 | .errCmd => false

/-- The exact content of a register (R17 to R23); `OUT_DATA` shows the FIFO's head, or 0 (20_memory.md R46). -/
def State.regValue (s : State) : Reg → Word
  | .id => Config.idWord
  | .params => Config.paramsWord
  | .status => s.statusWord
  | .errInfo => s.error.info
  | .cmd => 0
  | .arg0 => s.args.arg0
  | .arg1 => s.args.arg1
  | .arg2 => s.args.arg2
  | .res0 => s.res.res0
  | .res1 => s.res.res1
  | .res2 => s.res.res2
  | .res3 => s.res.res3
  | .outData => s.fifo.headD 0
  | .nsym => word32 s.table.nsym.val
  | .nnode => word32 s.tree.nnode.val
  | .total => s.table.total
  | .params2 => Config.params2Word
  | .errCmd => s.error.cmd
  | .root => s.tree.root.word

/-- The next free value a read draws. -/
def State.draw (s : State) : Word := Config.freeRead s.env.draws

/-- A draw has been used. -/
def State.drew (s : State) : State := { s with env := { s.env with draws := s.env.draws + 1 } }

/-- A 32-bit read of register `r`: the value returned and the state after it. Only `OUT_DATA` has an effect, the pop
(20_memory.md R41, R46, R50); the volatile registers are drawn while `BUSY = 1` or `ERR = 1`, STATUS bits 7:2 then too but for a reset that has not
completed, where R105 gives STATUS exactly (`statusDrawn`; log entry 14). -/
def State.readReg (s : State) (r : Reg) : Word × State :=
  match r with
  | .outData => (s.regValue .outData, { s with fifo := s.fifo.tail })
  | .status => if s.statusDrawn then (mixStatus s.statusWord s.draw, s.drew) else (s.statusWord, s)
  | r => if r.volatile && s.readsDrawn then (s.draw, s.drew) else (s.regValue r, s)

/-- A host read of any width at any offset: an unsupported access or a reserved offset returns 0 and does nothing
(R40, R43). -/
def State.hostRead (s : State) (off : Fin 128) (width : Width) : Word × State :=
  match accessedReg off width with
  | some r => s.readReg r
  | none => (0, s)

/-- The host takes note of what a read returned (the values of 70_reset_and_hazards.md R114). -/
def State.noteReply (s : State) (off : Fin 128) (v : Word) : State :=
  { s with env := { s.env with replies := s.env.replies ++ [⟨off, v⟩] } }

end Sys2Proof.Machine
end

