-- ==== Sys2Proof/Machine/Accept.lean ====
section
/-! DEFINITION. The acceptance logic and the host's write access (spec 20_memory.md R40 to R43, R49; 60_exceptions.md R94). -/

namespace Sys2Proof.Machine

/-- `outputs(EXEC)`: the words the latched command, if any, would emit if performed now (R94). -/
def outputsOwed (s : State) : List Word :=
  match s.exec with
  | none => []
  | some c =>
    match decode c.word with
    | .error _ => []
    | .ok i =>
      match exec i s with
      | .next t => t.pend.drop s.pend.length
      | .fault _ => []
      | .refused _ => []

/-- How many of `n` owed words survive an abort: any number from 0 to `n`, drawn (R94). -/
def State.survivors (s : State) (n : Nat) : Nat := Config.abortPoint s.env.draws % (n + 1)

/-- E_CMD_BUSY on the word `w`: the error is recorded, the latched command is dropped and a drawn prefix of the words still
owed stays in `PEND` (R94). -/
def State.abortBusy (s : State) (w : Word) : State :=
  let full := s.pend ++ outputsOwed s
  State.raiseWith { s.drew with pend := full.take (s.survivors full.length), exec := none } w .cmdBusy 0

/-- A 32-bit write of `w` to `CMD` (R49): SRESET first, then the error state, then busy, then the decoder. -/
def accept (w : Word) (s : State) : Result :=
  if w = 0x00000001#32 then exec .sreset s
  else if s.error.err then .next s
  else if s.busy then .next (s.abortBusy w)
  else match decode w with
    | .error _ => .next (s.raiseWith w .illegalCmd 0)
    | .ok _ => .next { s with exec := some ⟨w, s.args, false⟩ }

/-- A 32-bit write of `v` to register `r`: the operand registers take it at once, `CMD` presents it to the acceptance
logic, every other register ignores it (R42). -/
def writeReg (r : Reg) (v : Word) (s : State) : Result :=
  match r with
  | .arg0 => .next { s with args := { s.args with arg0 := v } }
  | .arg1 => .next { s with args := { s.args with arg1 := v } }
  | .arg2 => .next { s with args := { s.args with arg2 := v } }
  | .cmd => accept v s
  | .id | .params | .status | .errInfo | .res0 | .res1 | .res2 | .res3 | .outData | .nsym | .nnode | .total
  | .params2 | .errCmd | .root => .next s

/-- A host write of any width at any offset: an unsupported access or a reserved offset has no effect (R40, R43). -/
def hostWrite (off : Fin 128) (width : Width) (v : Word) (s : State) : Result :=
  match accessedReg off width with
  | some r => writeReg r v s
  | none => .next s

end Sys2Proof.Machine
end

