-- ==== Sys2Proof/Machine/HostProgram.lean ====
section
/-! DEFINITION. The host: one bus access at a time (spec 20_memory.md R51 a), the notation of host programs and their
pseudo-instructions (30_encoding.md R59, R60). -/

namespace Sys2Proof.Machine

/-! ## Notation (R59) -/

/-- `WR REG, v`. -/
def HostOp.wr (r : Reg) (v : Word) : HostOp := .write r.offset .word v

/-- `RD REG`. -/
def HostOp.rd (r : Reg) : HostOp := .read r.offset .word

/-- A command mnemonic with its operands: `WR CMD, word`. -/
def HostOp.issue (i : Instr) : HostOp := .wr .cmd (encode i)

/-! ## Performing one access -/

/-- The accesses that follow one STATUS read `v` of `POLL` (R60): `v[20:16]` pops, and the loop again while `v[0] = 1`. -/
def pollTail (v : Word) : List HostOp :=
  List.replicate (v.extractLsb' 16 5).toNat (.rd .outData) ++ if v.getLsbD 0 then [.poll] else []

/-- Row `i` of `ENCODE`'s final loop: `CT_READ #i; POLL; RD RES0; RD RES1; RD RES2; RD RES3` (R60). -/
def readRow (i : Nat) : List HostOp :=
  [.issue (.ctRead i), .poll, .rd .res0, .rd .res1, .rd .res2, .rd .res3]

/-- The accesses that follow the `NSYM` read `n` of that loop. -/
def rowsTail (n : Word) : List HostOp := (List.range n.toNat).flatMap readRow

/-- The host continues with these accesses before the rest of its program. -/
def State.thenDo (s : State) (ops : List HostOp) : State := { s with env := { s.env with host := ops ++ s.env.host } }

/-- One access of the host's program, its first item already taken off. -/
def hostStep (op : HostOp) (s : State) : Result :=
  match op with
  | .read off width => .next ((s.hostRead off width).2.noteReply off (s.hostRead off width).1)
  | .write off width v => hostWrite off width v s
  | .poll =>
    let r := s.hostRead Reg.status.offset .word
    .next ((r.2.noteReply Reg.status.offset r.1).thenDo (pollTail r.1))
  | .readRows =>
    let r := s.hostRead Reg.nsym.offset .word
    .next ((r.2.noteReply Reg.nsym.offset r.1).thenDo (rowsTail r.1))

/-- The host's turn: the next access of its program; a host whose program has ended does nothing. -/
def hostTurn (s : State) : Result :=
  match s.env.host with
  | [] => .next s
  | op :: rest => hostStep op { s with env := { s.env with host := rest } }

/-! ## Pseudo-instructions (R60) -/

namespace HostProgram

/-- A command and the `POLL` after it. -/
def run (i : Instr) : List HostOp := [.issue i, .poll]

/-- `COUNT s`. -/
def count (y : Word) : List HostOp := .wr .arg0 y :: run .fcCount

/-- `ESYM s`. -/
def esym (y : Word) : List HostOp := .wr .arg0 y :: run .enSym

/-- `LOAD s, p, len`. -/
def load (y : Word) (p : BitVec 64) (len : Nat) : List HostOp :=
  [.wr .arg0 y, .wr .arg1 (p.extractLsb' 0 32), .wr .arg2 (p.extractLsb' 32 32)] ++ run (.ctLoad len)

/-- `ENCODE text`. -/
def encodeText (text : List Word) : List HostOp :=
  run .sreset ++ text.flatMap count ++ run .tbBuild ++ run .ctDerive ++ run .enStart ++ text.flatMap esym
    ++ run .enFlush ++ [.rd .res0, .readRows, .rd .status]

/-- A row of a code table as a host carries it: the symbol, the pattern, the length. -/
abbrev CodeRow := Word × BitVec 64 × Nat

/-- The decode session over the units: `DE_UNIT` for every unit but the last, `DE_LAST` for the last. -/
def decodeUnits : List StorageUnit → Nat → List HostOp
  | [], _ => []
  | [u], skipLast => run (.deLast u skipLast)
  | u :: v :: us, skipLast => run (.deUnit u) ++ decodeUnits (v :: us) skipLast

/-- `DECODE units, table, skipLast`: an empty payload issues no `DE_*` command. -/
def decodePayload (units : List StorageUnit) (table : List CodeRow) (skipLast : Nat) : List HostOp :=
  run .sreset ++ table.flatMap (fun r => load r.1 r.2.1 r.2.2) ++ run .trRebuild
    ++ (if units = [] then [] else run .deStart ++ decodeUnits units skipLast) ++ [.rd .status]

/-! ## What the host takes from its reads (R60; 70_reset_and_hazards.md R114) -/

/-- The values read from one of these registers, in order. -/
def valuesOf (regs : List Reg) (rs : List Reply) : List Word :=
  (rs.filter fun r => regs.any fun x => r.off == x.offset).map (·.value)

/-- `OUTLIST`: the words popped, in order; a read of an empty FIFO, whose bit 31 is 0, popped none (20_memory.md R46). -/
def outWords (rs : List Reply) : List Word := (valuesOf [.outData] rs).filter fun w => w.getLsbD 31

/-- `w` is a UNIT word: bits 31:29 are 0b101 (20_memory.md R46). -/
def isUnit (w : Word) : Bool := w.extractLsb' 29 3 == 0b101#3

/-- `w` is a SYMBOL word: bits 31:29 are 0b110 (20_memory.md R46). -/
def isSymbol (w : Word) : Bool := w.extractLsb' 29 3 == 0b110#3

/-- The payload: the low 16 bits of the UNIT words of `OUTLIST`. -/
def payload (out : List Word) : List StorageUnit := (out.filter isUnit).map fun w => w.extractLsb' 0 16

/-- The text: the low 21 bits of the SYMBOL words of `OUTLIST`. -/
def text (out : List Word) : List Symbol := (out.filter isSymbol).map fun w => w.extractLsb' 0 21

/-- The rows `(sym, (hi, lo), len)` of the four result reads after each `CT_READ`, in order. -/
def rows : List Word → List CodeRow
  | sym :: lo :: hi :: len :: rest => (sym, hi ++ lo, len.toNat) :: rows rest
  | _ => []

/-- The last STATUS read has ERR = 0: the run succeeded. -/
def ok (rs : List Reply) : Bool :=
  match (valuesOf [.status] rs).getLast? with
  | some v => !v.getLsbD 1
  | none => false

/-- What `ENCODE` gives its caller. -/
structure Encoded where
  units : List StorageUnit
  table : List CodeRow
  skipLast : Nat
  ok : Bool
  deriving DecidableEq, Repr

/-- The result of an `ENCODE` that read `rs`: its first read of `RES0` is skipLast; the reads of the result registers after
that of `NSYM` are the rows, of which those with `len >= 1` are the code table. -/
def encoded (rs : List Reply) : Encoded where
  units := payload (outWords rs)
  table := (rows (valuesOf [.res0, .res1, .res2, .res3] (rs.dropWhile fun r => r.off != Reg.nsym.offset))).filter fun r => decide (1 ≤ r.2.2)
  skipLast := ((valuesOf [.res0] rs).headD 0).toNat
  ok := ok rs

/-- What `DECODE` gives its caller. -/
structure Decoded where
  text : List Symbol
  ok : Bool
  deriving DecidableEq, Repr

/-- The result of a `DECODE` that read `rs`. -/
def decoded (rs : List Reply) : Decoded := ⟨text (outWords rs), ok rs⟩

/-- `DECODE` of what an `ENCODE` gave. -/
def decodeEncoded (e : Encoded) : List HostOp := decodePayload e.units e.table e.skipLast

end HostProgram

/-- The host's `OUTLIST` so far. -/
def State.outList (s : State) : List Word := HostProgram.outWords s.env.replies

end Sys2Proof.Machine
end

