-- ==== Sys2Proof/Machine/CoreSteps.lean ====
section
/-! DEFINITION. The CORE's two steps and who moves next (spec 20_memory.md R47, R48, R51 b; 70_reset_and_hazards.md R104,
R113). -/

namespace Sys2Proof.Machine

/-- A command is performed: its pseudocode, then `EXEC <- none` (R48). -/
def perform (i : Instr) (s : State) : Result :=
  match exec i s with
  | .next t => .next { t with exec := none }
  | .fault f => .fault f
  | .refused r => .refused r

/-- The execute step (R48). It is enabled when `EXEC != none`; a turn that is not enabled changes nothing. In the error
state the latched command is dropped. -/
def executeStep (s : State) : Result :=
  match s.exec with
  | none => .next s
  | some c =>
    if s.error.err then .next { s with exec := none }
    else match decode c.word with
      | .ok i => perform i s
      | .error why => .refused (.illegalLatched why)

/-- The move step is enabled: `PEND` is non-empty and the FIFO has room (R47). -/
def State.moveEnabled (s : State) : Bool := !s.pend.isEmpty && s.fifo.length < Config.outDepth

/-- The move step: the head of `PEND` goes to the tail of the FIFO, in the error state too (R47); where it is not enabled
the CORE holds. -/
def moveStep (s : State) : State :=
  match s.pend with
  | [] => s
  | w :: rest => if s.fifo.length < Config.outDepth then { s with fifo := s.fifo ++ [w], pend := rest } else s

/-- Who moves when no turn is given: the CORE while one of its steps is enabled, then the host. -/
def State.defaultTurn (s : State) : Turn :=
  if s.exec.isSome then .execute else if s.moveEnabled then .move else .host

/-- One agent's step. -/
def takeTurn (t : Turn) (s : State) : Result :=
  match t with
  | .host => hostTurn s
  | .execute => executeStep s
  | .move => .next (moveStep s)
  | .hardReset => .next s.resetCore

/-- The turn that comes next, and the state with it taken from the list. -/
def State.nextTurn (s : State) : Turn × State :=
  match s.env.turns with
  | [] => (s.defaultTurn, s)
  | t :: ts => (t, { s with env := { s.env with turns := ts } })

end Sys2Proof.Machine
end

