-- ==== Sys2Proof/Machine/Step.lean ====
section
/-! DEFINITION. One step of the machine: one agent moves (spec 00_scope.md R3; 20_memory.md R51). -/

namespace Sys2Proof.Machine

/-- The agent whose turn it is takes its step. -/
def step (s : State) : Host.Outcome State Fault Refusal := takeTurn s.nextTurn.1 s.nextTurn.2

/-- `s` with the command word `w` standing where the next step takes its command from. SRESET is performed in the host's
write step, so it is the host's next access; every other word is latched in `EXEC` with the operand registers as they
stand, out of the error state, and the CORE executes next. -/
def State.withFetchWord (s : State) (nbits w : Nat) : State :=
  if tableWord nbits w = 0x00000001#32 then
    { s with env := { s.env with host := .wr .cmd (tableWord nbits w) :: s.env.host, turns := .host :: s.env.turns } }
  else
    { s with exec := some ⟨tableWord nbits w, s.args, false⟩
             error := ⟨false, 0, 0, 0⟩
             env := { s.env with turns := .execute :: s.env.turns } }

end Sys2Proof.Machine
end

