-- ==== Sys2Proof/Safety.lean ====
section
/-! DEFINITION. The terms claims about HUFFCORE use: the invariants of spec 10_state.md R37 and the ones beside them, paths
and codes in a tree, the bits of a payload, and commands issued one after another. -/

namespace Sys2Proof.Machine

/-! ## Paths, codes and bits -/

/-- The lowest `n` bits of a value, the most significant first (20_memory.md R45). -/
def msbFirst {w : Nat} (v : BitVec w) (n : Nat) : List Bool := (List.range n).map fun j => v.getLsbD (n - 1 - j)

/-- A slot's code as the bits it sends, in time order (R45). -/
def Slot.bits (x : Slot) : List Bool := msbFirst x.code x.len.val

/-- The position a path leads to, none where it leaves the tree: bit 0 goes left, bit 1 right (R26). -/
def Tree.follow (t : Tree) : Ref → List Bool → Option Ref
  | r, [] => some r
  | .node k, b :: bs => t.follow (t.nodes[k].child b) bs
  | .empty, _ :: _ => none
  | .leaf _, _ :: _ => none

/-- `p` is the path from the root to the leaf of slot `i`. -/
abbrev Tree.LeafPath (t : Tree) (p : List Bool) (i : Fin 256) : Prop := t.follow t.root p = some (.leaf i)

/-- The number a path spells, its first step the most significant bit (43_code_table.md R74). -/
def pathValue (p : List Bool) : Nat := p.foldl (fun n b => 2 * n + b.toNat) 0

/-- Slot `i` is valid and has a code: it is a row of the Code Table (R24). -/
abbrev SymTable.Coded (t : SymTable) (i : Fin 256) : Prop := i.val < t.nsym.val ∧ t.slots[i].len ≠ 0

/-- No code of the table is a prefix of another slot's code (43_code_table.md R74). -/
def SymTable.PrefixFree (t : SymTable) : Prop :=
  ∀ i j, t.Coded i → t.Coded j → t.slots[i].bits <+: t.slots[j].bits → i = j

/-- The nodes TR_REBUILD makes for slot `i` of a prefix-free table: one for each proper, non-empty prefix of its code that is
no prefix of an earlier slot's code (43_code_table.md R77, "created lazily"). -/
def SymTable.newNodes (t : SymTable) (i : Fin 256) : Nat :=
  ((List.range t.slots[i].len.val).filter fun n =>
    decide (0 < n ∧ ∀ j ∈ t.valid, j < i → ¬ t.slots[i].bits.take n <+: t.slots[j].bits)).length

/-- The weight below a Ref: a leaf's count, a node's children together; `fuel` bounds the depth (42_tree_builder.md R69). -/
def Tree.weight (t : Tree) (tab : SymTable) : Nat → Ref → Nat
  | _, .empty => 0
  | _, .leaf i => tab.slots[i].count.toNat
  | 0, .node _ => 0
  | fuel + 1, .node k => t.weight tab fuel t.nodes[k].c0 + t.weight tab fuel t.nodes[k].c1

/-- The bits a walk standing at node `c` reads spell, in order, the paths to the leaves of `out`, and leave it at node `c'`;
after a leaf the walk is at the root `r` (45_decoder.md R84). -/
inductive Spells (t : Tree) (r : Fin 1024) : Fin 1024 → List Bool → List (Fin 256) → Fin 1024 → Prop
  /-- The rest of the bits stays inside the tree. -/
  | rest (c c' : Fin 1024) (p : List Bool) (h : t.follow (.node c) p = some (.node c')) : Spells t r c p [] c'
  /-- The next bits end at a leaf. -/
  | leaf (c c' : Fin 1024) (p bits : List Bool) (i : Fin 256) (out : List (Fin 256))
      (h : t.follow (.node c) p = some (.leaf i)) (tail : Spells t r r bits out c') : Spells t r c (p ++ bits) (i :: out) c'

/-- The storage unit an output word carries (20_memory.md R46). -/
def unitOf (w : Word) : StorageUnit := w.extractLsb' 0 16

/-- The bits of a list of output words' units, in time order (R45). -/
def unitsBits (ws : List Word) : List Bool := ws.flatMap fun w => msbFirst (unitOf w) 16

/-- The bits the encoder holds, in time order (R29). -/
def Encoder.heldBits (e : Encoder) : List Bool := msbFirst e.acc e.held.toNat

/-! ## Invariants -/

/-- The symbol table's part of R37. -/
structure TableInv (t : SymTable) : Prop where
  /-- The `SYM` of valid slots are distinct. -/
  distinct : ∀ i j : Fin 256, i.val < t.nsym.val → j.val < t.nsym.val → t.slots[i].sym = t.slots[j].sym → i = j
  /-- They are legal symbols (R24). -/
  legal : ∀ i : Fin 256, i.val < t.nsym.val → LegalSymbol (t.slots[i].sym.setWidth 32)
  /-- `CODE < 2^LEN`. -/
  codeFits : ∀ i : Fin 256, i.val < t.nsym.val → t.slots[i].code.toNat < 2 ^ t.slots[i].len.val
  /-- The counts of the valid slots add up to TOTAL. -/
  countSum : (t.valid.map fun i => t.slots[i].count.toNat).sum = t.total.toNat

/-- A Ref names a valid slot or an allocated node (R37). -/
def RefOk (nsym nnode : Nat) : Ref → Prop
  | .empty => True
  | .leaf i => i.val < nsym
  | .node k => k.val < nnode

/-- Every child that is a node has a smaller index than its parent, as TB_BUILD allocates. -/
def Tree.ChildrenBelow (t : Tree) : Prop :=
  ∀ (k m : Fin 1024) (b : Bool), k.val < t.nnode.val → t.nodes[k].child b = .node m → m < k

/-- Every child that is a node has a greater index than its parent, as TR_REBUILD allocates. -/
def Tree.ChildrenAbove (t : Tree) : Prop :=
  ∀ (k m : Fin 1024) (b : Bool), k.val < t.nnode.val → t.nodes[k].child b = .node m → k < m

/-- The tree memory's part of R37, and that the tree has no cycle. -/
structure TreeInv (t : Tree) (nsym : Nat) : Prop where
  root : RefOk nsym t.nnode.val t.root
  child : ∀ (k : Fin 1024) (b : Bool), k.val < t.nnode.val → RefOk nsym t.nnode.val (t.nodes[k].child b)
  ordered : t.ChildrenBelow ∨ t.ChildrenAbove

/-- The encoder's part of R37: `HELD <= 15` and `ACC < 2^HELD`. -/
structure EncoderInv (e : Encoder) : Prop where
  held : e.held.toNat ≤ 15
  acc : e.acc.toNat < 2 ^ e.held.toNat

/-- The decoder's part of R37: while a session is open the root is a node and `CUR < NNODE`. -/
def DecoderInv (d : Decoder) (t : Tree) : Prop := d.act = true → (∃ r, t.root = .node r) ∧ d.cur.val < t.nnode.val

/-- The error registers read 0 while `ERR = 0` (R21), and a recorded code is one of 0x01 to 0x0F (60_exceptions.md R89). -/
structure ErrorInv (e : ErrorState) : Prop where
  clear : e.err = false → e.code = 0 ∧ e.info = 0 ∧ e.cmd = 0
  named : e.err = true → ∃ n : ErrorName, e.code = n.code

/-- `w` has the format of an output word (20_memory.md R46). -/
def OutputWord (w : Word) : Prop := (∃ u, w = unitWord u) ∨ (∃ y, w = symbolWord y)

/-- The FIFO holds at most 16 words (R32), and every word owed or delivered has the format of R46. -/
structure QueueInv (fifo pend : List Word) : Prop where
  depth : fifo.length ≤ Config.outDepth
  format : ∀ w ∈ fifo ++ pend, OutputWord w

/-- A latched command decodes, and is not SRESET, which acceptance performs itself (20_memory.md R49). -/
def ExecInv (e : Option Command) : Prop := ∀ c, e = some c → ∃ i, decode c.word = .ok i ∧ i ≠ .sreset

/-- Until a reset completes everything but the operand registers, which the host may write, is as reset leaves it
(70_reset_and_hazards.md R104, R105). -/
def ResetInv (s : State) : Prop := s.resetting = true → s = { State.reset with args := s.args, env := s.env }

/-- What holds in every state a run from reset reaches (R37, with R21, R32, R49 and R105 beside it). -/
structure Inv (s : State) : Prop where
  table : TableInv s.table
  tree : TreeInv s.tree s.table.nsym.val
  enc : EncoderInv s.enc
  dec : DecoderInv s.dec s.tree
  error : ErrorInv s.error
  queue : QueueInv s.fifo s.pend
  exec : ExecInv s.exec
  reset : ResetInv s

/-! ## Commands issued one after another -/

/-- A command issued to an idle block and performed: latched with the given operands, executed (20_memory.md R48, R49). -/
def issue (c : Instr × Args) (s : State) : Result := perform c.1 { s with args := c.2, exec := some ⟨encode c.1, c.2, false⟩ }

/-- Commands issued in order; their output collects in `PEND`. -/
def issueAll : List (Instr × Args) → State → Result
  | [], s => .next s
  | c :: cs, s =>
    match issue c s with
    | .next t => issueAll cs t
    | .fault f => .fault f
    | .refused r => .refused r

/-- A command without operands in ARG0..2. -/
def plain (i : Instr) : Instr × Args := (i, ⟨0, 0, 0⟩)

/-- A command whose symbol is in ARG0. -/
def withSymbol (i : Instr) (y : Word) : Instr × Args := (i, ⟨y, 0, 0⟩)

/-- The encode session of a text: EN_START, one EN_SYM per symbol, EN_FLUSH (44_encoder.md). -/
def encodeSession (text : List Word) : List (Instr × Args) :=
  plain .enStart :: text.map (withSymbol .enSym) ++ [plain .enFlush]

/-- The commands of `ENCODE text` after its SRESET, up to EN_FLUSH (30_encoding.md R60). -/
def encodeCommands (text : List Word) : List (Instr × Args) :=
  text.map (withSymbol .fcCount) ++ [plain .tbBuild, plain .ctDerive] ++ encodeSession text

/-- `CT_LOAD` of one row of a carried code table (R60 `LOAD`). -/
def loadRow (x : Slot) : Instr × Args :=
  (.ctLoad x.len.val, ⟨x.sym.setWidth 32, x.code.extractLsb' 0 32, x.code.extractLsb' 32 32⟩)

/-- The decode session of a payload: DE_UNIT for every unit but the last, DE_LAST for the last (R60 `DECODE`). -/
def decodeSession : List StorageUnit → Nat → List (Instr × Args)
  | [], _ => []
  | [u], skipLast => [plain (.deLast u skipLast)]
  | u :: v :: us, skipLast => plain (.deUnit u) :: decodeSession (v :: us) skipLast

/-- The commands of `DECODE` after its SRESET (30_encoding.md R60). -/
def decodeCommands (units : List StorageUnit) (rows : List Slot) (skipLast : Nat) : List (Instr × Args) :=
  rows.map loadRow ++ [plain .trRebuild]
    ++ if units = [] then [] else plain .deStart :: decodeSession units skipLast

/-- The Code Table the host carries: the rows with `LEN >= 1`, in slot order (R60). -/
def SymTable.codeRows (t : SymTable) : List Slot := (t.valid.map fun i => t.slots[i]).filter fun x => x.len ≠ 0

/-- Reset, and the internal NOP performed: the block is idle (70_reset_and_hazards.md R105). -/
def State.idle : State := { State.reset with exec := none }

/-! ## The end of a run (70_reset_and_hazards.md R114) -/

/-- The run has ended and succeeded: nothing is left to do and no error is recorded. -/
def State.succeeded (s : State) : Bool := s.env.host.isEmpty && !s.busy && !s.error.err

end Sys2Proof.Machine
end

