-- ==== Sys2Proof/Certificates/Slice0/Obligations.lean ====
section
/-! DEFINITION. The statements for the provers: what the numbered rules of the spec say HUFFCORE does. `s.latched` is the
command in EXEC, `s.symbolArg` its ARG0 (20_memory.md R48, R49). -/

open Sys2Proof Sys2Proof.Machine

/-! ## Command words (30_encoding.md) -/

/-- R61: the decoder reads back every well-formed command from its word, with every operand at every value its field
admits. -/
def Obligations.DecodeOfEncode : Prop := ∀ i : Instr, WellFormed i → decode (encode i) = .ok i

/-- R61, R63: a word the decoder takes is the word of exactly that command, and the command fits its format. -/
def Obligations.EncodeOfDecode : Prop := ∀ (w : Word) (i : Instr), decode w = .ok i → WellFormed i ∧ encode i = w

/-- R61: no two rows match one word. -/
def Obligations.EachWordSelectsOneRow : Prop :=
  ∀ (w : Word) (r q : Row), r ∈ opcodeMap → q ∈ opcodeMap → r.selects w → q.selects w → r = q

/-- R62: a word that matches no row is illegal and raises E_ILLEGAL_CMD at acceptance, and only such a word is; the words of
the unassigned opcodes, every word of opcode 0x01 but the exact SRESET word, and R62's three examples match none. The exact
SRESET word is honoured before any other check. -/
def Obligations.UnmatchedWordsAreIllegal : Prop :=
  (∀ w : Word, (∀ r ∈ opcodeMap, ¬ r.selects w) →
    (∃ e, decode w = .error e) ∧
    ∀ s : State, s.error.err = false → s.busy = false → accept w s = .next { s with error := ⟨true, 0x01, 0, w⟩ }) ∧
  (∀ w : Word, (∃ r ∈ opcodeMap, r.selects w) → ∃ i, decode w = .ok i) ∧
  (∀ w : Word,
    (0x02 ≤ (opcOf w).toNat ∧ (opcOf w).toNat ≤ 0x0F ∨ 0x12 ≤ (opcOf w).toNat ∧ (opcOf w).toNat ≤ 0x1F ∨
      0x22 ≤ (opcOf w).toNat ∧ (opcOf w).toNat ≤ 0x2F ∨ 0x34 ≤ (opcOf w).toNat ∧ (opcOf w).toNat ≤ 0x3F ∨
      0x43 ≤ (opcOf w).toNat ∧ (opcOf w).toNat ≤ 0x4F ∨ 0x52 ≤ (opcOf w).toNat) →
    ∀ r ∈ opcodeMap, ¬ r.selects w) ∧
  (∀ w : Word, opcOf w = 0x01 → w ≠ 0x00000001#32 → ∀ r ∈ opcodeMap, ¬ r.selects w) ∧
  (∀ w ∈ ([0x00000110#32, 0x00000152#32, 0x00002151#32] : List Word), ∀ r ∈ opcodeMap, ¬ r.selects w) ∧
  ∀ s : State, ∃ e, accept 0x00000001#32 s = .next { State.reset with env := e }

/-- T-ENC-1 (95_test_vectors.md): a few words written out from R55 to R57 and the commands they stand for. -/
def Obligations.SpecWordsDecode : Prop :=
  decode 0x00000000#32 = .ok .nop ∧ decode 0x00000001#32 = .ok .sreset ∧ decode 0x00030011#32 = .ok (.fcRead 3) ∧
  decode 0x00040021#32 = .ok (.trRead 4) ∧ decode 0x00400032#32 = .ok (.ctLoad 64) ∧
  decode 0x00000041#32 = .ok .enSym ∧ decode 0x5DAC0051#32 = .ok (.deUnit 0x5DAC) ∧
  decode 0x5C001351#32 = .ok (.deLast 0x5C00 9)

/-! ## Acceptance, the CORE's steps, reset (20_memory.md, 70_reset_and_hazards.md) -/

/-- R48: the execute step drops the latched command in the error state, otherwise runs its pseudocode with the operands
latched with it and then empties EXEC; without a latched command it is not enabled. That a turn not enabled changes nothing,
and that `nextTurn` says whose turn it is, is the model's choice (log entries 1 and 12). -/
def Obligations.StepPerformsLatchedCommand : Prop :=
  ∀ s s' : State, s.nextTurn = (.execute, s') →
    (s'.exec = none → step s = .next s') ∧
    (∀ c, s'.exec = some c → s'.error.err = true → step s = .next { s' with exec := none }) ∧
    (∀ c i, s'.exec = some c → s'.error.err = false → decode c.word = .ok i → s'.latched = c ∧
      (∀ t, exec i s' = .next t → step s = .next { t with exec := none }) ∧
      (∀ f, exec i s' = .fault f → step s = .fault f) ∧ (∀ r, exec i s' = .refused r → step s = .refused r))

/-- R49: a CMD write is handled in this order: SRESET, the error state, busy, illegal, accepted with the operands latched. -/
def Obligations.AcceptanceOrder : Prop :=
  ∀ (w : Word) (s : State),
    (w = 0x00000001#32 → ∃ e, accept w s = .next { State.reset with env := e }) ∧
    (w ≠ 0x00000001#32 → s.error.err = true → accept w s = .next s) ∧
    (w ≠ 0x00000001#32 → s.error.err = false → s.busy = true →
      ∃ t, accept w s = .next t ∧ t.error = ⟨true, 0x02, 0, w⟩ ∧ t.exec = none) ∧
    (w ≠ 0x00000001#32 → s.error.err = false → s.busy = false → (∃ e, decode w = .error e) →
      accept w s = .next { s with error := ⟨true, 0x01, 0, w⟩ }) ∧
    (w ≠ 0x00000001#32 → s.error.err = false → s.busy = false → (∃ i, decode w = .ok i) →
      accept w s = .next { s with exec := some ⟨w, s.args, false⟩ })

/-- R110: a command has the operands that stand when its word is accepted, and a later write of the argument registers
changes neither the accepted command nor anything it does. -/
def Obligations.ArgumentsAreLatched : Prop :=
  (∀ (w : Word) (i : Instr) (s : State), i ≠ .sreset → s.error.err = false → s.busy = false → decode w = .ok i →
    accept w s = .next { s with exec := some ⟨w, s.args, false⟩ }) ∧
  (∀ (s : State) (r : Reg) (v : Word), r = .arg0 ∨ r = .arg1 ∨ r = .arg2 →
    ∃ a, hostWrite r.offset .word v s = .next { s with args := a }) ∧
  ∀ (i : Instr) (s t : State) (c : Command) (a : Args), i ≠ .sreset → s.exec = some c → exec i s = .next t →
    exec i { s with args := a } = .next { t with args := a }

/-- R94: after E_CMD_BUSY a prefix of the words still owed stays, the latched command is gone, and nothing else of
HUFFCORE's state changes. The words owed are PEND and what the latched command would emit if performed now. That the rest
stays as it was, where the spec allows any value, is the model's choice (log entry 4). -/
def Obligations.BusyCommandKeepsPrefix : Prop :=
  ∀ (w : Word) (s : State) (full : List Word), w ≠ 0x00000001#32 → s.error.err = false → s.busy = true →
    (s.exec = none ∧ full = s.pend ∨
      ∃ c i u, s.exec = some c ∧ decode c.word = .ok i ∧ i ≠ .sreset ∧ exec i s = .next u ∧ full = u.pend) →
    ∃ n ≤ full.length, accept w s = .next
      { s with pend := full.take n, exec := none, error := ⟨true, 0x02, 0, w⟩
               env := { s.env with draws := s.env.draws + 1 } }

/-- A word put where the next step takes its command from is the command that step performs. How a word is put there is the
model's choice (log entry 6). -/
def Obligations.FetchedWordRuns : Prop :=
  ∀ (s : State) (w : Word) (i : Instr), decode w = .ok i →
    (i ≠ .sreset → step (s.withFetchWord 32 w.toNat) =
      perform i { s with exec := some ⟨w, s.args, false⟩, error := ⟨false, 0, 0, 0⟩ }) ∧
    (i = .sreset → step (s.withFetchWord 32 w.toNat) = .next { State.reset with env := s.env })

/-- R36: the reset value of every piece of state, whether reset comes from SRESET performed, from a write of its word in any
state, or from the platform. R105: until the internal NOP completes a read of STATUS gives exactly 1, whatever the host has
written to ARG0..2, SRESET restarts the reset and any other command word raises E_CMD_BUSY; from then on STATUS reads 0 and
every other register its reset value. (Log entry 14: R105 is read as the exception to R108.) -/
def Obligations.ResetValues : Prop :=
  ∀ s : State, ∃ t, exec .sreset s = .next t ∧ hostWrite Reg.cmd.offset .word 0x00000001#32 s = .next t ∧
    takeTurn .hardReset s = .next t ∧
    t.args = ⟨0, 0, 0⟩ ∧ t.res = ⟨0, 0, 0, 0⟩ ∧ t.error = ⟨false, 0, 0, 0⟩ ∧
    t.table.nsym = 0 ∧ t.table.total = 0 ∧ (∀ i : Fin 256, t.table.slots[i] = ⟨0, 0, 0, 0⟩) ∧
    t.tree.nnode = 0 ∧ t.tree.root = .empty ∧ (∀ k : Fin 1024, t.tree.nodes[k] = ⟨.empty, .empty⟩) ∧
    t.enc = ⟨false, 0, 0, 0⟩ ∧ t.dec = ⟨false, 0, 0⟩ ∧ t.fifo = [] ∧ t.pend = [] ∧
    (∃ b, t.exec = some ⟨0x00000000#32, ⟨0, 0, 0⟩, b⟩) ∧
    t.regValue .id = 0x48554646#32 ∧ t.regValue .params = 0x10400100#32 ∧ t.regValue .params2 = 0x00100400#32 ∧
    ∀ (a : Args) (e : Env),
      let u : State := { t with args := a, env := e }
      let v : State := { u with exec := none }
      u.hostRead 0x08 .word = (0x00000001#32, u) ∧ (∃ d, accept 0x00000001#32 u = .next { t with env := d }) ∧
      (∀ w, w ≠ 0x00000001#32 → ∃ x, accept w u = .next x ∧ x.error = ⟨true, 0x02, 0, w⟩ ∧ x.exec = none) ∧
      executeStep u = .next v ∧ v.hostRead 0x14 .word = (a.arg0, v) ∧ v.hostRead 0x18 .word = (a.arg1, v) ∧
      v.hostRead 0x1C .word = (a.arg2, v) ∧ v.hostRead 0x00 .word = (0x48554646#32, v) ∧
      v.hostRead 0x04 .word = (0x10400100#32, v) ∧ v.hostRead 0x40 .word = (0x00100400#32, v) ∧
      ∀ off ∈ ([0x08, 0x0C, 0x10, 0x20, 0x24, 0x28, 0x2C, 0x30, 0x34, 0x38, 0x3C, 0x44, 0x48] : List (Fin 128)),
        v.hostRead off .word = (0x00000000#32, v)

/-- R47: the move step takes the head of PEND to the tail of the FIFO while there is one and the FIFO holds fewer than 16
words, in the error state too; where it is not enabled it changes nothing (the model's choice, log entry 12). -/
def Obligations.MoveStepMovesHead : Prop :=
  ∀ s : State,
    (∀ w rest, s.pend = w :: rest → s.fifo.length < 16 →
      takeTurn .move s = .next { s with fifo := s.fifo ++ [w], pend := rest }) ∧
    (s.pend = [] ∨ 16 ≤ s.fifo.length → takeTurn .move s = .next s)

/-- R113, R9: a command other than SRESET only appends words to PEND, at most 4 for EN_SYM, 1 for EN_FLUSH, 16 for DE_UNIT
and DE_LAST, none for any other. EN_SYM's bound is for an encoder within its invariant (R29). -/
def Obligations.CommandsOnlyAppendWords : Prop :=
  ∀ (i : Instr) (s t : State), i ≠ .sreset → exec i s = .next t →
    ∃ ws, t.pend = s.pend ++ ws ∧ t.fifo = s.fifo ∧
      match i with
      | .enSym => EncoderInv s.enc → ws.length ≤ 4
      | .enFlush => ws.length ≤ 1
      | .deUnit _ => ws.length ≤ 16
      | .deLast _ _ => ws.length ≤ 16
      | _ => ws = []

/-! ## The register window (10_state.md, 20_memory.md) -/

/-- R17, R41: what a 32-bit read of each offset returns while BUSY and ERR are 0, and that it changes nothing (OUT_DATA, at
0x30, pops: `OutDataPops`). -/
def Obligations.RegisterReads : Prop :=
  ∀ s : State, s.busy = false → s.error.err = false →
    s.hostRead 0x00 .word = (0x48554646#32, s) ∧ s.hostRead 0x04 .word = (0x10400100#32, s) ∧
    s.hostRead 0x08 .word = (s.statusWord, s) ∧ s.hostRead 0x0C .word = (s.error.info, s) ∧
    s.hostRead 0x10 .word = (0, s) ∧ s.hostRead 0x14 .word = (s.args.arg0, s) ∧
    s.hostRead 0x18 .word = (s.args.arg1, s) ∧ s.hostRead 0x1C .word = (s.args.arg2, s) ∧
    s.hostRead 0x20 .word = (s.res.res0, s) ∧ s.hostRead 0x24 .word = (s.res.res1, s) ∧
    s.hostRead 0x28 .word = (s.res.res2, s) ∧ s.hostRead 0x2C .word = (s.res.res3, s) ∧
    s.hostRead 0x34 .word = (BitVec.ofNat 32 s.table.nsym.val, s) ∧
    s.hostRead 0x38 .word = (BitVec.ofNat 32 s.tree.nnode.val, s) ∧
    s.hostRead 0x3C .word = (s.table.total, s) ∧ s.hostRead 0x40 .word = (0x00100400#32, s) ∧
    s.hostRead 0x44 .word = (s.error.cmd, s) ∧ s.hostRead 0x48 .word = (s.tree.root.word, s)

/-- R46: the two word formats, OUT_COUNT, that words enter the FIFO at its tail and none enters once it holds 16, and what a
read of OUT_DATA pops, in every state. The move clauses are R47's; that a move step changes nothing with 16 words in the
FIFO, where it is not enabled, is the model's choice (log entry 12). -/
def Obligations.OutDataPops : Prop :=
  (∀ u : StorageUnit, unitWord u = 0xA0000000#32 ||| u.setWidth 32) ∧
  (∀ y : Symbol, symbolWord y = 0xC0000000#32 ||| y.setWidth 32) ∧
  ∀ s : State,
    (s.fifo.length ≤ 16 → (s.statusWord.extractLsb' 16 5).toNat = s.fifo.length) ∧
    (16 ≤ s.fifo.length → moveStep s = s) ∧
    (∀ w rest, s.pend = w :: rest → s.fifo.length < 16 → moveStep s = { s with fifo := s.fifo ++ [w], pend := rest }) ∧
    (s.fifo = [] → s.hostRead 0x30 .word = (0x00000000#32, s)) ∧
    ∀ w rest, s.fifo = w :: rest → s.hostRead 0x30 .word = (w, { s with fifo := rest })

/-- R40: an access that is not a 4-byte one at a multiple of 4 has no effect, and a read returns 0. -/
def Obligations.UnsupportedAccessesDoNothing : Prop :=
  ∀ (s : State) (off : Fin 128) (width : Width) (v : Word), width ≠ .word ∨ off.val % 4 ≠ 0 →
    s.hostRead off width = (0, s) ∧ hostWrite off width v s = .next s

/-- R43: offsets 0x4C to 0x7C are reserved: a 32-bit read returns 0, a 32-bit write has no effect. -/
def Obligations.ReservedOffsetsDoNothing : Prop :=
  ∀ (s : State) (off : Fin 128) (v : Word), 0x4C ≤ off.val → off.val ≤ 0x7C →
    s.hostRead off .word = (0, s) ∧ hostWrite off .word v s = .next s

/-- R42: a 32-bit write to ARG0..2 is taken at once, busy or not; to CMD it goes to the acceptance logic; to a read-only
register it has no effect. -/
def Obligations.HostWrites : Prop :=
  ∀ (s : State) (v : Word),
    hostWrite 0x14 .word v s = .next { s with args := ⟨v, s.args.arg1, s.args.arg2⟩ } ∧
    hostWrite 0x18 .word v s = .next { s with args := ⟨s.args.arg0, v, s.args.arg2⟩ } ∧
    hostWrite 0x1C .word v s = .next { s with args := ⟨s.args.arg0, s.args.arg1, v⟩ } ∧
    hostWrite 0x10 .word v s = accept v s ∧
    ∀ off ∈ ([0x00, 0x04, 0x08, 0x0C, 0x20, 0x24, 0x28, 0x2C, 0x30, 0x34, 0x38, 0x3C, 0x40, 0x44, 0x48] : List (Fin 128)),
      hostWrite off .word v s = .next s

/-- R44: byte lane `j` of a register value is `v[8j+7:8j]`, and the four lanes make the value. -/
def Obligations.ByteLanesLittleEndian : Prop :=
  ∀ v : Word, (∀ j k : Nat, j < 4 → k < 8 → (laneByte v j).getLsbD k = v.getLsbD (8 * j + k)) ∧
    wordOfLanes (laneByte v 0) (laneByte v 1) (laneByte v 2) (laneByte v 3) = v ∧
    decodeBytes (lanesOf v) = decode v

/-- R39: the window is the 128 bytes at HUFF_BASE, a multiple of 128; no other address reaches it. HUFF_BASE is held open
(log entry 5). -/
def Obligations.WindowAddresses : Prop :=
  Config.huffBase % 128 = 0 ∧ (∀ off : Fin 128, windowOffset (Config.huffBase + off.val) = some off) ∧
  ∀ a, a < Config.huffBase ∨ Config.huffBase + 128 ≤ a → windowOffset a = none

/-- R33, and the fields of STATUS of R20. -/
def Obligations.StatusFields : Prop :=
  ∀ s : State,
    (s.statusWord.getLsbD 0 = true ↔ s.exec ≠ none ∨ s.pend ≠ []) ∧
    s.statusWord.getLsbD 1 = s.error.err ∧ s.statusWord.getLsbD 2 = s.enc.act ∧ s.statusWord.getLsbD 3 = s.dec.act ∧
    s.statusWord.extractLsb' 4 4 = s.enc.held.extractLsb' 0 4 ∧ s.statusWord.extractLsb' 8 8 = s.error.code ∧
    s.statusWord.extractLsb' 16 5 = BitVec.ofNat 5 s.fifo.length ∧ s.statusWord.extractLsb' 21 11 = 0

/-- R93, R108: in every state STATUS is exact outside bits 7:2 (and whole until a reset completes, `ResetValues`), and ERRINFO, ERRCMD, ARG0..2 and the constants are exact;
while BUSY = 1 or ERR = 1 a read of RES0..3, NSYM, NNODE, TOTAL or ROOT returns some value. None of these reads changes
HUFFCORE's state; the counter of draws is the model's own (log entry 3). -/
def Obligations.ReadsWhileBusyOrInError : Prop :=
  ∀ s : State,
    (∃ v d, s.hostRead 0x08 .word = (v, { s with env := { s.env with draws := d } }) ∧
      v &&& 0xFFFFFF03#32 = s.statusWord &&& 0xFFFFFF03#32) ∧
    s.hostRead 0x00 .word = (0x48554646#32, s) ∧ s.hostRead 0x04 .word = (0x10400100#32, s) ∧
    s.hostRead 0x0C .word = (s.error.info, s) ∧ s.hostRead 0x14 .word = (s.args.arg0, s) ∧
    s.hostRead 0x18 .word = (s.args.arg1, s) ∧ s.hostRead 0x1C .word = (s.args.arg2, s) ∧
    s.hostRead 0x40 .word = (0x00100400#32, s) ∧ s.hostRead 0x44 .word = (s.error.cmd, s) ∧
    ∀ off ∈ ([0x20, 0x24, 0x28, 0x2C, 0x34, 0x38, 0x3C, 0x48] : List (Fin 128)),
      ∃ v d, s.hostRead off .word = (v, { s with env := { s.env with draws := d } })

/-! ## Errors (60_exceptions.md) -/

/-- R90 with the codes of R89: raising an error records the code, the info word and the command word (the word written at
acceptance, the latched word in a command), unless an error is recorded already; nothing done before is undone. -/
def Obligations.RaiseRecordsFirstError : Prop :=
  (∀ (s : State) (w : Word) (n : ErrorName) (info : Word),
    (s.error.err = false → s.raiseWith w n info = { s with error := ⟨true, n.code, info, w⟩ }) ∧
    (s.error.err = true → s.raiseWith w n info = s)) ∧
  (∀ (s : State) (n : ErrorName) (info : Word) (c : Command), s.exec = some c →
    (s.error.err = false → s.raise n info = { s with error := ⟨true, n.code, info, c.word⟩ }) ∧
    (s.error.err = true → s.raise n info = s)) ∧
  ErrorName.illegalCmd.code = 0x01 ∧ ErrorName.cmdBusy.code = 0x02 ∧ ErrorName.badSymbol.code = 0x03 ∧
  ErrorName.tableFull.code = 0x04 ∧ ErrorName.countOvf.code = 0x05 ∧ ErrorName.badIndex.code = 0x06 ∧
  ErrorName.badArg.code = 0x07 ∧ ErrorName.codeTooLong.code = 0x08 ∧ ErrorName.malformed.code = 0x09 ∧
  ErrorName.treeFull.code = 0x0A ∧ ErrorName.missingCode.code = 0x0B ∧ ErrorName.decodeError.code = 0x0C ∧
  ErrorName.decPartial.code = 0x0D ∧ ErrorName.noTree.code = 0x0E ∧ ErrorName.sequence.code = 0x0F

/-- R92: in the error state a step either is a reset, or keeps the recorded error and performs no command: the results, the
tables, the tree, the encoder and the decoder stay as they are. -/
def Obligations.FirstErrorIsKept : Prop :=
  ∀ s t : State, s.error.err = true → step s = .next t →
    (∃ e, t = { State.reset with env := e }) ∨
    (t.error = s.error ∧ t.res = s.res ∧ t.table = s.table ∧ t.tree = s.tree ∧ t.enc = s.enc ∧ t.dec = s.dec)

/-! ## Control and the frequency counter (40_control.md, 41_frequency.md) -/

/-- R64: NOP does nothing. Written to a block that is idle and without error it makes BUSY 1, and the execute step after it
leaves the state as it was before the write, with BUSY 0. SRESET's result is `ResetValues`. -/
def Obligations.NopChangesNothing : Prop :=
  encode .nop = 0x00000000#32 ∧ (∀ s : State, exec .nop s = .next s) ∧
  ∀ s : State, s.busy = false → s.error.err = false →
    ∃ t, accept (encode .nop) s = .next t ∧ t.busy = true ∧
      (∀ n, n ≠ 0 → t.statusWord.getLsbD n = s.statusWord.getLsbD n) ∧ executeStep t = .next s

/-- R67: FC_COUNT of a symbol that has a slot adds one to that slot's count and to TOTAL; of a new symbol, it fills the next
slot with count 1 and no code. Every other slot and all other state stay. Its errors come in the order of its checks. -/
def Obligations.FcCountCounts : Prop :=
  ∀ s : State,
    let y := s.latched.args.arg0
    let new := ∀ i : Fin 256, i.val < s.table.nsym.val → s.table.slots[i].sym.setWidth 32 ≠ y
    (0x10FFFF#32 < y → exec .fcCount s = .next (s.raise .badSymbol y)) ∧
    (y ≤ 0x10FFFF#32 → s.table.total = 0xFFFFFFFF#32 → exec .fcCount s = .next (s.raise .countOvf y)) ∧
    (y ≤ 0x10FFFF#32 → s.table.total ≠ 0xFFFFFFFF#32 → new → s.table.nsym.val = 256 →
      exec .fcCount s = .next (s.raise .tableFull y)) ∧
    (y ≤ 0x10FFFF#32 → s.table.total ≠ 0xFFFFFFFF#32 →
    (∀ i : Fin 256, i.val < s.table.nsym.val → s.table.slots[i].sym.setWidth 32 = y →
      (∀ j : Fin 256, j.val < s.table.nsym.val → s.table.slots[j].sym.setWidth 32 = y → j = i) →
      ∃ tab, exec .fcCount s = .next { s with table := tab } ∧ tab.nsym = s.table.nsym ∧
        tab.total = s.table.total + 1 ∧ tab.slots[i] = { s.table.slots[i] with count := s.table.slots[i].count + 1 } ∧
        ∀ j : Fin 256, j ≠ i → tab.slots[j] = s.table.slots[j]) ∧
    (∀ i : Fin 256, i.val = s.table.nsym.val →
      (∀ j : Fin 256, j.val < s.table.nsym.val → s.table.slots[j].sym.setWidth 32 ≠ y) →
      ∃ tab, exec .fcCount s = .next { s with table := tab } ∧ tab.nsym.val = s.table.nsym.val + 1 ∧
        tab.total = s.table.total + 1 ∧ tab.slots[i] = ⟨y.setWidth 21, 1, 0, 0⟩ ∧
        ∀ j : Fin 256, j ≠ i → tab.slots[j] = s.table.slots[j]))

/-- R66: FC_COUNT of every symbol of a text, from reset and without error, leaves one slot for each distinct symbol, in the
order of first occurrence, with its number of occurrences; TOTAL is the text's length. -/
def Obligations.CountsOfText : Prop :=
  ∀ (text : List Word) (t : State), issueAll (text.map (withSymbol .fcCount)) State.idle = .next t → t.error.err = false →
    let syms := t.table.valid.map fun i => (t.table.slots[i].sym.setWidth 32 : Word)
    t.table.total.toNat = text.length ∧ syms.Nodup ∧ (∀ y, y ∈ syms ↔ y ∈ text) ∧
    (∀ i : Fin 256, i.val < t.table.nsym.val → 1 ≤ t.table.slots[i].count.toNat ∧
      t.table.slots[i].count.toNat = text.count (t.table.slots[i].sym.setWidth 32)) ∧
    ∀ i j : Fin 256, i < j → j.val < t.table.nsym.val →
      text.idxOf (t.table.slots[i].sym.setWidth 32) < text.idxOf (t.table.slots[j].sym.setWidth 32)

/-- R68: FC_READ reports a valid slot's symbol and count, and raises E_BAD_INDEX for any other index. -/
def Obligations.FcReadReports : Prop :=
  ∀ s : State,
    (∀ i : Fin 256, i.val < s.table.nsym.val →
      exec (.fcRead i.val) s =
        .next { s with res := ⟨s.table.slots[i].sym.setWidth 32, s.table.slots[i].count, 0, 0⟩ }) ∧
    ∀ slot, s.table.nsym.val ≤ slot → exec (.fcRead slot) s = .next (s.raise .badIndex (BitVec.ofNat 32 slot))

/-! ## The tree builder (42_tree_builder.md) -/

/-- R70: the sorted list's weights descend and the elements of each weight keep their order; so a new last element goes right
after the last one that is not lighter. The last two elements merge, the last one to the left. -/
def Obligations.StableSort : Prop :=
  (∀ w : List Weighted, (stableSortDesc w).Pairwise (fun x y => y.weight ≤ x.weight) ∧
    ∀ v, (stableSortDesc w).filter (fun x => x.weight == v) = w.filter (fun x => x.weight == v)) ∧
  (∀ (w : List Weighted) (x : Weighted), w.Pairwise (fun a b => b.weight ≤ a.weight) →
    stableSortDesc (w ++ [x]) =
      w.filter (fun a => decide (x.weight ≤ a.weight)) ++ x :: w.filter (fun a => decide (a.weight < x.weight))) ∧
  ∀ (fuel : Nat) (w : List Weighted) (r l : Weighted) (T T' : Tree) (k : Fin 1024),
    T.alloc ⟨l.ref, r.ref⟩ = some (k, T') →
    mergeLoop (fuel + 1) (w ++ [r, l]) T =
      mergeLoop fuel (stableSortDesc (w ++ [⟨.node k, l.weight + r.weight⟩])) T'

/-- R69: an empty table gives no tree, one slot gives the bare leaf; any decode session is closed. -/
def Obligations.TbBuildOfAtMostOneSlot : Prop :=
  ∀ s : State,
    (s.table.nsym.val = 0 → exec .tbBuild s = .next
      { s with tree := ⟨s.tree.nodes, 0, .empty⟩, dec := { s.dec with act := false } }) ∧
    (s.table.nsym.val = 1 → exec .tbBuild s = .next
      { s with tree := ⟨s.tree.nodes, 0, .leaf 0⟩, dec := { s.dec with act := false } })

/-- R71: over n >= 2 slots TB_BUILD allocates n - 1 nodes, the root last; every valid slot is the leaf of exactly one child
field and every other node but the root is exactly one child; no child is EMPTY; children come before parents; the left
child is never heavier; the root weighs the sum of all counts. -/
def Obligations.TbBuildTree : Prop :=
  ∀ s : State, 2 ≤ s.table.nsym.val →
    ∃ T : Tree, exec .tbBuild s = .next { s with tree := T, dec := { s.dec with act := false } } ∧
      T.nnode.val + 1 = s.table.nsym.val ∧ (∃ k : Fin 1024, k.val + 2 = s.table.nsym.val ∧ T.root = .node k) ∧
      (∀ i : Fin 256, i.val < s.table.nsym.val →
        ∃! kb : Fin 1024 × Bool, kb.1.val < T.nnode.val ∧ T.nodes[kb.1].child kb.2 = .leaf i) ∧
      (∀ m : Fin 1024, m.val + 1 < T.nnode.val →
        ∃! kb : Fin 1024 × Bool, kb.1.val < T.nnode.val ∧ T.nodes[kb.1].child kb.2 = .node m) ∧
      (∀ (k : Fin 1024) (b : Bool), k.val < T.nnode.val →
        T.nodes[k].child b ≠ .empty ∧ RefOk s.table.nsym.val T.nnode.val (T.nodes[k].child b)) ∧
      T.ChildrenBelow ∧
      (∀ k : Fin 1024, k.val < T.nnode.val →
        T.weight s.table 1024 T.nodes[k].c0 ≤ T.weight s.table 1024 T.nodes[k].c1) ∧
      T.weight s.table 1024 T.root = (s.table.valid.map fun i => s.table.slots[i].count.toNat).sum ∧
      ∀ k : Fin 1024, T.nnode.val ≤ k.val → T.nodes[k] = s.tree.nodes[k]

/-- R72, with the Ref encoding of 10_state.md R27: TR_READ reports an allocated node's children, ROOT and NNODE, and raises
E_BAD_INDEX for any other index. -/
def Obligations.TrReadReports : Prop :=
  (Ref.empty.word = 0x00000000#32 ∧ (∀ i : Fin 256, (Ref.leaf i).word = 0x40000000#32 ||| BitVec.ofNat 32 i.val) ∧
    ∀ k : Fin 1024, (Ref.node k).word = 0x80000000#32 ||| BitVec.ofNat 32 k.val) ∧
  ∀ s : State,
    (∀ k : Fin 1024, k.val < s.tree.nnode.val →
      exec (.trRead k.val) s = .next { s with res :=
        ⟨s.tree.nodes[k].c0.word, s.tree.nodes[k].c1.word, s.tree.root.word, BitVec.ofNat 32 s.tree.nnode.val⟩ }) ∧
    ∀ node, s.tree.nnode.val ≤ node → exec (.trRead node) s = .next (s.raise .badIndex (BitVec.ofNat 32 node))

/-! ## The code table (43_code_table.md) -/

/-- R73: on a tree without cycles whose leaves lie at most 64 deep, CT_DERIVE gives every slot with one leaf that leaf's path
as its code, the single-symbol tree's slot length 1, and every valid slot without a leaf no code. Symbols, counts, NSYM, TOTAL
and all other state stay. -/
def Obligations.CtDeriveGivesPaths : Prop :=
  ∀ s : State, TreeInv s.tree s.table.nsym.val → (∀ p i, s.tree.LeafPath p i → p.length ≤ 64) →
    ∃ tab, exec .ctDerive s = .next { s with table := tab } ∧ tab.nsym = s.table.nsym ∧ tab.total = s.table.total ∧
      ∀ i : Fin 256,
        tab.slots[i].sym = s.table.slots[i].sym ∧ tab.slots[i].count = s.table.slots[i].count ∧
        (∀ p, s.tree.LeafPath p i → (∀ q, s.tree.LeafPath q i → q = p) →
          tab.slots[i].code.toNat = pathValue p ∧ tab.slots[i].len.val = max p.length 1) ∧
        (i.val < s.table.nsym.val → (∀ p, ¬ s.tree.LeafPath p i) → tab.slots[i].code = 0 ∧ tab.slots[i].len = 0) ∧
        (s.table.nsym.val ≤ i.val → tab.slots[i] = s.table.slots[i])

/-- R73, R91: with a leaf deeper than 64, CT_DERIVE raises E_CODE_TOO_LONG for the first such leaf in walk order, left before
right. -/
def Obligations.CtDeriveRaisesTooLong : Prop :=
  ∀ (s : State) (p : List Bool) (i : Fin 256), TreeInv s.tree s.table.nsym.val → s.tree.LeafPath p i → 64 < p.length →
    (∀ q j, s.tree.LeafPath q j → 64 < q.length → q = p ∨ List.Lex (fun a b => a = false ∧ b = true) p q) →
    ∃ tab, exec .ctDerive s = .next (State.raise { s with table := tab } .codeTooLong (BitVec.ofNat 32 i.val))

/-- R74: the code TB_BUILD and CT_DERIVE give each of n >= 2 slots has at least one bit, fits its length and is the path to
the slot's only leaf; the codes are prefix-free and complete. With one slot the code is (0, 1). -/
def Obligations.BuiltCodesArePrefixFreeAndComplete : Prop :=
  (∀ s t u : State, s.table.nsym.val = 1 → exec .tbBuild s = .next t → exec .ctDerive t = .next u →
    u.table.slots[0].code = 0 ∧ u.table.slots[0].len = 1 ∧ u.table.PrefixFree) ∧
  ∀ s t u : State, 2 ≤ s.table.nsym.val → exec .tbBuild s = .next t → exec .ctDerive t = .next u → u.error.err = false →
    (∀ i : Fin 256, i.val < u.table.nsym.val →
      1 ≤ u.table.slots[i].len.val ∧ u.table.slots[i].code.toNat < 2 ^ u.table.slots[i].len.val ∧
      ∀ p, u.tree.LeafPath p i ↔ p = u.table.slots[i].bits) ∧
    u.table.PrefixFree ∧
    (u.table.valid.map fun i => 2 ^ (64 - u.table.slots[i].len.val)).sum = 2 ^ 64

/-- R75: CT_READ reports a valid slot's symbol, code and length, and raises E_BAD_INDEX for any other index. -/
def Obligations.CtReadReports : Prop :=
  ∀ s : State,
    (∀ i : Fin 256, i.val < s.table.nsym.val →
      exec (.ctRead i.val) s = .next { s with res :=
        ⟨s.table.slots[i].sym.setWidth 32, s.table.slots[i].code.extractLsb' 0 32,
          s.table.slots[i].code.extractLsb' 32 32, BitVec.ofNat 32 s.table.slots[i].len.val⟩ }) ∧
    ∀ slot, s.table.nsym.val ≤ slot → exec (.ctRead slot) s = .next (s.raise .badIndex (BitVec.ofNat 32 slot))

/-- R76: CT_LOAD writes the masked pattern and the length to the symbol's slot, keeping its count, or to a fresh slot with
count 0. Every other slot, TOTAL and all other state stay. Its errors come in the order of its checks. -/
def Obligations.CtLoadWrites : Prop :=
  (∀ (s : State) (len : Nat),
    let y := s.latched.args.arg0
    (0x10FFFF#32 < y → exec (.ctLoad len) s = .next (s.raise .badSymbol y)) ∧
    (y ≤ 0x10FFFF#32 → len < 1 ∨ 64 < len → exec (.ctLoad len) s = .next (s.raise .badArg (BitVec.ofNat 32 len))) ∧
    (y ≤ 0x10FFFF#32 → 1 ≤ len → len ≤ 64 → s.table.nsym.val = 256 →
      (∀ i : Fin 256, i.val < s.table.nsym.val → s.table.slots[i].sym.setWidth 32 ≠ y) →
      exec (.ctLoad len) s = .next (s.raise .tableFull y))) ∧
  ∀ (s : State) (len : Fin 65),
    let y := s.latched.args.arg0
    let code := (s.latched.args.arg2 ++ s.latched.args.arg1 : BitVec 64) &&& BitVec.ofNat 64 (2 ^ len.val - 1)
    y ≤ 0x10FFFF#32 → 1 ≤ len.val →
    (∀ i : Fin 256, i.val < s.table.nsym.val → s.table.slots[i].sym.setWidth 32 = y →
      (∀ j : Fin 256, j.val < s.table.nsym.val → s.table.slots[j].sym.setWidth 32 = y → j = i) →
      ∃ tab, exec (.ctLoad len.val) s = .next { s with table := tab } ∧ tab.nsym = s.table.nsym ∧
        tab.total = s.table.total ∧ tab.slots[i] = ⟨s.table.slots[i].sym, s.table.slots[i].count, code, len⟩ ∧
        ∀ j : Fin 256, j ≠ i → tab.slots[j] = s.table.slots[j]) ∧
    (∀ i : Fin 256, i.val = s.table.nsym.val →
      (∀ j : Fin 256, j.val < s.table.nsym.val → s.table.slots[j].sym.setWidth 32 ≠ y) →
      ∃ tab, exec (.ctLoad len.val) s = .next { s with table := tab } ∧ tab.nsym.val = s.table.nsym.val + 1 ∧
        tab.total = s.table.total ∧ tab.slots[i] = ⟨y.setWidth 21, 0, code, len⟩ ∧
        ∀ j : Fin 256, j ≠ i → tab.slots[j] = s.table.slots[j])

/-- R77: from a prefix-free table that needs at most 1024 nodes TR_REBUILD makes the tree whose leaf paths are exactly the
codes of the Code Table, with the root and one node for every further prefix of a code, and closes any decode session. -/
def Obligations.TrRebuildPlacesEveryCode : Prop :=
  ∀ s : State, s.table.PrefixFree → 1 + (s.table.valid.map s.table.newNodes).sum ≤ 1024 →
    ∃ T : Tree, exec .trRebuild s = .next { s with tree := T, dec := { s.dec with act := false } } ∧
      T.root = .node 0 ∧ T.nnode.val = 1 + (s.table.valid.map s.table.newNodes).sum ∧
      ∀ p i, T.LeafPath p i ↔ s.table.Coded i ∧ p = s.table.slots[i].bits

/-- R77, R89: from a prefix-free table that needs more than 1024 nodes TR_REBUILD raises E_TREE_FULL for the first slot, in
slot order, with which the table needs more. -/
def Obligations.TrRebuildRunsOutOfNodes : Prop :=
  ∀ s : State, s.table.PrefixFree → 1024 < 1 + (s.table.valid.map s.table.newNodes).sum →
    ∃ (T : Tree) (i : Fin 256), i.val < s.table.nsym.val ∧
      exec .trRebuild s = .next
        (State.raise { s with tree := T, dec := { s.dec with act := false } } .treeFull (BitVec.ofNat 32 i.val)) ∧
      1024 < 1 + ((s.table.valid.take (i.val + 1)).map s.table.newNodes).sum ∧
      1 + ((s.table.valid.take i.val).map s.table.newNodes).sum ≤ 1024

/-- R77, R91: from a table that is not prefix-free, with codes short enough that no node can be missing, TR_REBUILD raises
E_MALFORMED for the first slot, in slot order, whose code collides with an earlier one. -/
def Obligations.TrRebuildRejectsCollision : Prop :=
  ∀ s : State, ¬ s.table.PrefixFree → 1 + (s.table.valid.map fun i => s.table.slots[i].len.val - 1).sum ≤ 1024 →
    ∃ (T : Tree) (i : Fin 256),
      exec .trRebuild s = .next
        (State.raise { s with tree := T, dec := { s.dec with act := false } } .malformed (BitVec.ofNat 32 i.val)) ∧
      (∃ j, j < i ∧ s.table.Coded i ∧ s.table.Coded j ∧
        (s.table.slots[j].bits <+: s.table.slots[i].bits ∨ s.table.slots[i].bits <+: s.table.slots[j].bits)) ∧
      ∀ a b, b < a → a < i → s.table.Coded a → s.table.Coded b →
        ¬ s.table.slots[b].bits <+: s.table.slots[a].bits ∧ ¬ s.table.slots[a].bits <+: s.table.slots[b].bits

/-- R78: for any table TR_REBUILD accepts, CT_DERIVE on the result reproduces every code and length: the whole table. -/
def Obligations.DeriveUndoesRebuild : Prop :=
  ∀ s t : State, TableInv s.table → exec .trRebuild s = .next t → t.error.err = false →
    exec .ctDerive t = .next { t with table := s.table }

/-- R78: after TB_BUILD and CT_DERIVE on n >= 2 slots, TR_REBUILD makes a tree with the same leaf at every path, n - 1 nodes
and no EMPTY child. -/
def Obligations.RebuildUndoesDerive : Prop :=
  ∀ s t u : State, 2 ≤ s.table.nsym.val → exec .tbBuild s = .next t → exec .ctDerive t = .next u → u.error.err = false →
    ∃ v, exec .trRebuild u = .next v ∧ v.error.err = false ∧ v.tree.nnode.val + 1 = s.table.nsym.val ∧
      (∀ p i, v.tree.LeafPath p i ↔ u.tree.LeafPath p i) ∧
      ∀ (k : Fin 1024) (b : Bool), k.val < v.tree.nnode.val → v.tree.nodes[k].child b ≠ .empty

/-! ## The encoder (44_encoder.md) -/

/-- R79: EN_START opens a session with nothing held and no unit counted. -/
def Obligations.EnStartOpens : Prop := ∀ s : State, exec .enStart s = .next { s with enc := ⟨true, 0, 0, 0⟩ }

/-- R80: EN_SYM loses and invents no bit: the units it emits followed by the bits it then holds are the bits held before
followed by the symbol's code; it emits whole units as long as 16 bits are held and counts them. Everything else stays. Its
errors come in the order of its checks. -/
def Obligations.EnSymSendsCode : Prop :=
  (∀ s : State,
    let y := s.latched.args.arg0
    (s.enc.act = false → exec .enSym s = .next (s.raise .sequence 0)) ∧
    (s.enc.act = true → 0x10FFFF#32 < y → exec .enSym s = .next (s.raise .badSymbol y)) ∧
    (s.enc.act = true → y ≤ 0x10FFFF#32 →
      (∀ i : Fin 256, i.val < s.table.nsym.val → s.table.slots[i].sym.setWidth 32 = y → s.table.slots[i].len = 0) →
      exec .enSym s = .next (s.raise .missingCode y))) ∧
  ∀ (s : State) (i : Fin 256),
    let y := s.latched.args.arg0
    let n := s.enc.held.toNat + s.table.slots[i].len.val
    TableInv s.table → EncoderInv s.enc → s.enc.act = true → y ≤ 0x10FFFF#32 → i.val < s.table.nsym.val →
    s.table.slots[i].sym.setWidth 32 = y → s.table.slots[i].len ≠ 0 →
    ∃ ws e, exec .enSym s = .next { s with enc := e, pend := s.pend ++ ws } ∧ e.act = true ∧
      e.held.toNat = n % 16 ∧ ws.length = n / 16 ∧ e.units = s.enc.units + BitVec.ofNat 32 ws.length ∧
      (∀ w ∈ ws, w = unitWord (unitOf w)) ∧
      unitsBits ws ++ e.heldBits = s.enc.heldBits ++ s.table.slots[i].bits ∧ e.acc.toNat < 2 ^ e.held.toNat

/-- R81: EN_FLUSH emits the held bits padded with zeros as one last unit if any are held, reports skipLast and the unit count
and closes the session; without a session it raises E_SEQUENCE. -/
def Obligations.EnFlushPads : Prop :=
  ∀ s : State,
    (s.enc.act = false → exec .enFlush s = .next (s.raise .sequence 0)) ∧
    (s.enc.act = true → s.enc.held = 0 → exec .enFlush s = .next
      { s with enc := ⟨false, 0, 0, s.enc.units⟩, res := ⟨0, s.enc.units, 0, 0⟩ }) ∧
    (s.enc.act = true → 1 ≤ s.enc.held.toNat → s.enc.held.toNat ≤ 15 →
      ∃ u : StorageUnit, msbFirst u 16 = s.enc.heldBits ++ List.replicate (16 - s.enc.held.toNat) false ∧
        exec .enFlush s = .next
          { s with pend := s.pend ++ [unitWord u], enc := ⟨false, 0, 0, s.enc.units + 1⟩
                   res := ⟨BitVec.ofNat 32 (16 - s.enc.held.toNat), s.enc.units + 1, 0, 0⟩ })

/-- R82: a session that encodes symbols whose codes have B bits together emits ceil(B / 16) units that spell the codes in
order followed by skipLast zero bits, with skipLast = (16 - B mod 16) mod 16. -/
def Obligations.SessionPayload : Prop :=
  ∀ (s t : State) (text : List Word), TableInv s.table → issueAll (encodeSession text) s = .next t →
    t.error.err = false →
    ∃ (rows : List Slot) (ws : List Word),
      let B := (rows.map fun x => x.len.val).sum
      let skipLast := (16 - B % 16) % 16
      text.map s.table.codeOf = rows.map some ∧ t.pend = s.pend ++ ws ∧ ws.length = (B + 15) / 16 ∧
      t.res = ⟨BitVec.ofNat 32 skipLast, BitVec.ofNat 32 ws.length, 0, 0⟩ ∧ 16 * ws.length - skipLast = B ∧
      unitsBits ws = (rows.flatMap fun x => x.bits) ++ List.replicate skipLast false

/-! ## The decoder (45_decoder.md) -/

/-- R83: DE_START opens a session at the root node and raises E_NO_TREE on no tree (0) and on a bare leaf (1). -/
def Obligations.DeStartOpens : Prop :=
  ∀ s : State,
    (∀ r, s.tree.root = .node r → exec .deStart s = .next { s with dec := ⟨true, r, 0⟩ }) ∧
    (s.tree.root = .empty → exec .deStart s = .next (s.raise .noTree 0)) ∧
    (∀ i, s.tree.root = .leaf i → exec .deStart s = .next (s.raise .noTree 1))

/-- R85 with R84's bit procedure: without a session DE_UNIT raises E_SEQUENCE. When the unit's bits spell leaves from where
the walk stands, it emits their symbols in order, counts them and stays where the bits end. At the first bit that leads to an
EMPTY child it raises E_DECODE with the bit's position, keeping what was decoded before it. -/
def Obligations.DeUnitDecodes : Prop :=
  ∀ (s : State) (u : StorageUnit),
    (s.dec.act = false → exec (.deUnit u) s = .next (s.raise .sequence 0)) ∧
    ∀ (r c : Fin 1024) (out : List (Fin 256)), s.dec.act = true → s.tree.root = .node r →
      let t : State := { s with dec := ⟨true, c, s.dec.syms + BitVec.ofNat 32 out.length⟩
                                pend := s.pend ++ out.map fun i => symbolWord s.table.slots[i].sym }
      (Spells s.tree r s.dec.cur (msbFirst u 16) out c → exec (.deUnit u) s = .next t) ∧
      ∀ (p q : List Bool) (b : Bool), msbFirst u 16 = p ++ b :: q → Spells s.tree r s.dec.cur p out c →
        s.tree.nodes[c].child b = .empty →
        exec (.deUnit u) s = .next (t.raise .decodeError (BitVec.ofNat 32 (15 - p.length)))

/-- R86: without a session DE_LAST raises E_SEQUENCE. It decodes all but the last `skip` bits as DE_UNIT does, with E_DECODE at
the first bit that leads to an EMPTY child; if the bits end at the root it closes the session and reports the symbol count,
otherwise it raises E_DEC_PARTIAL with the node reached. -/
def Obligations.DeLastDecodes : Prop :=
  ∀ (s : State) (u : StorageUnit) (skip : Nat), skip ≤ 15 →
    (s.dec.act = false → exec (.deLast u skip) s = .next (s.raise .sequence 0)) ∧
    ∀ (r c : Fin 1024) (out : List (Fin 256)), s.dec.act = true → s.tree.root = .node r →
      let n := s.dec.syms + BitVec.ofNat 32 out.length
      let pend := s.pend ++ out.map fun i => symbolWord s.table.slots[i].sym
      (Spells s.tree r s.dec.cur ((msbFirst u 16).take (16 - skip)) out c →
        (c = r → exec (.deLast u skip) s = .next { s with dec := ⟨false, r, n⟩, pend := pend, res := ⟨n, 0, 0, 0⟩ }) ∧
        (c ≠ r → exec (.deLast u skip) s = .next
          (State.raise { s with dec := ⟨true, c, n⟩, pend := pend } .decPartial (BitVec.ofNat 32 c.val)))) ∧
      ∀ (p q : List Bool) (b : Bool), (msbFirst u 16).take (16 - skip) = p ++ b :: q →
        Spells s.tree r s.dec.cur p out c → s.tree.nodes[c].child b = .empty →
        exec (.deLast u skip) s = .next (State.raise { s with dec := ⟨true, c, n⟩, pend := pend } .decodeError
          (BitVec.ofNat 32 (15 - p.length)))

/-- R87: if the commands of ENCODE end without error on a text, the commands of DECODE on its units, code table and skipLast
end without error and emit the text. -/
def Obligations.DecodeOfEncodedText : Prop :=
  ∀ (text : List Word) (e : State), issueAll (encodeCommands text) State.idle = .next e → e.error.err = false →
    ∃ d, issueAll (decodeCommands (e.pend.map unitOf) e.table.codeRows e.res.res0.toNat) State.idle = .next d ∧
      d.error.err = false ∧ d.pend = text.map fun y => symbolWord (y.setWidth 21)

/-! ## What each command leaves alone -/

/-- FC_READ, CT_READ and TR_READ change at most the result registers and the error state (10_state.md R14; R68, R72, R75). -/
def Obligations.ReadCommandsFrame : Prop :=
  ∀ (i : Instr) (s t : State), (∃ n, i = .fcRead n ∨ i = .ctRead n ∨ i = .trRead n) → exec i s = .next t →
    t = { s with res := t.res, error := t.error } ∧ (t.res = s.res ∨ t.error = s.error)

/-- FC_COUNT, CT_LOAD and CT_DERIVE change at most the symbol table and the error state; CT_DERIVE and CT_LOAD change no
count and not TOTAL, FC_COUNT no code of a slot that was valid. -/
def Obligations.TableCommandsFrame : Prop :=
  ∀ (i : Instr) (s t : State), (i = .fcCount ∨ (∃ n, i = .ctLoad n) ∨ i = .ctDerive) → exec i s = .next t →
    t = { s with table := t.table, error := t.error } ∧
    (i ≠ .fcCount → t.table.total = s.table.total ∧
      ∀ j : Fin 256, j.val < s.table.nsym.val → t.table.slots[j].count = s.table.slots[j].count) ∧
    (i = .fcCount → ∀ j : Fin 256, j.val < s.table.nsym.val →
      t.table.slots[j].code = s.table.slots[j].code ∧ t.table.slots[j].len = s.table.slots[j].len)

/-- TB_BUILD and TR_REBUILD change at most the tree, DEC_ACT, which they clear, and the error state (10_state.md R20, R28). -/
def Obligations.TreeCommandsFrame : Prop :=
  ∀ (i : Instr) (s t : State), i = .tbBuild ∨ i = .trRebuild → exec i s = .next t →
    t = { s with tree := t.tree, dec := { s.dec with act := false }, error := t.error } ∧
    (i = .tbBuild → t.error = s.error)

/-- EN_START, EN_SYM and EN_FLUSH change at most the encoder, PEND and the error state; EN_FLUSH also the results; EN_START
neither PEND nor the error state. -/
def Obligations.EncoderCommandsFrame : Prop :=
  ∀ (i : Instr) (s t : State), i = .enStart ∨ i = .enSym ∨ i = .enFlush → exec i s = .next t →
    t = { s with enc := t.enc, res := t.res, pend := t.pend, error := t.error } ∧ (i ≠ .enFlush → t.res = s.res) ∧
    (i = .enStart → t.pend = s.pend ∧ t.error = s.error)

/-- DE_START, DE_UNIT and DE_LAST change at most the decoder, PEND and the error state; DE_LAST also the results; DE_START not
PEND; DE_UNIT not DEC_ACT. -/
def Obligations.DecoderCommandsFrame : Prop :=
  ∀ (i : Instr) (s t : State), (i = .deStart ∨ (∃ u, i = .deUnit u) ∨ ∃ u k, i = .deLast u k) → exec i s = .next t →
    t = { s with dec := t.dec, res := t.res, pend := t.pend, error := t.error } ∧
    ((∀ u k, i ≠ .deLast u k) → t.res = s.res) ∧ (i = .deStart → t.pend = s.pend) ∧
    ((∃ u, i = .deUnit u) → t.dec.act = s.dec.act)

/-- 10_state.md R25: slots are allocated in order and never freed but by reset: a command other than SRESET keeps every valid
slot's symbol and never lowers NSYM, raising it by at most one. -/
def Obligations.SlotsAreNeverFreed : Prop :=
  ∀ (i : Instr) (s t : State), i ≠ .sreset → exec i s = .next t →
    s.table.nsym.val ≤ t.table.nsym.val ∧ t.table.nsym.val ≤ s.table.nsym.val + 1 ∧
    ∀ j : Fin 256, j.val < s.table.nsym.val → t.table.slots[j].sym = s.table.slots[j].sym

/-! ## Invariants and progress -/

/-- 10_state.md R36, R37: the invariant holds right after reset. -/
def Obligations.ResetMeetsInvariant : Prop := Inv State.reset

/-- 10_state.md R37: whoever's turn it is, a step from a state that meets the invariant leads to one that meets it. -/
def Obligations.StepKeepsInvariant : Prop := ∀ s t : State, Inv s → step s = .next t → Inv t

/-- From a state that meets the invariant every step answers a next state: the stops of log entries 7 to 9 are not reached. -/
def Obligations.StepNeverStops : Prop := ∀ s : State, Inv s → ∃ t, step s = .next t

/-- R60, R109, R113: a host that polls, beside a CORE that moves when it can, ends with BUSY = 0 and the FIFO empty, and has
popped every word owed, in order. That the CORE moves when it can is the model's default order (log entry 1). -/
def Obligations.PollEnds : Prop :=
  ∀ s : State, Inv s → s.env.turns = [] → s.env.host = [.poll] →
    ∃ (n : Nat) (t : State), Host.Core.run Sys2Proof.core n s = .next t ∧ t.env.host = [] ∧ t.busy = false ∧
      t.fifo = [] ∧ (s.exec = none → t.outList = s.outList ++ s.fifo ++ s.pend)
end

