-- ==== Sys2Proof/Laws/State.lean ====
section
/-! SUPPORT. What each named update of the state does to each field: one lemma per field per update. -/

namespace Sys2Proof.Machine

/-! ## raiseWith -/

@[simp] theorem State.raiseWith_args (s : State) (w : Word) (n : ErrorName) (info : Word) : (s.raiseWith w n info).args = s.args := rfl
@[simp] theorem State.raiseWith_res (s : State) (w : Word) (n : ErrorName) (info : Word) : (s.raiseWith w n info).res = s.res := rfl
@[simp] theorem State.raiseWith_table (s : State) (w : Word) (n : ErrorName) (info : Word) : (s.raiseWith w n info).table = s.table := rfl
@[simp] theorem State.raiseWith_tree (s : State) (w : Word) (n : ErrorName) (info : Word) : (s.raiseWith w n info).tree = s.tree := rfl
@[simp] theorem State.raiseWith_enc (s : State) (w : Word) (n : ErrorName) (info : Word) : (s.raiseWith w n info).enc = s.enc := rfl
@[simp] theorem State.raiseWith_dec (s : State) (w : Word) (n : ErrorName) (info : Word) : (s.raiseWith w n info).dec = s.dec := rfl
@[simp] theorem State.raiseWith_error (s : State) (w : Word) (n : ErrorName) (info : Word) : (s.raiseWith w n info).error = s.error.record w n info := rfl
@[simp] theorem State.raiseWith_fifo (s : State) (w : Word) (n : ErrorName) (info : Word) : (s.raiseWith w n info).fifo = s.fifo := rfl
@[simp] theorem State.raiseWith_pend (s : State) (w : Word) (n : ErrorName) (info : Word) : (s.raiseWith w n info).pend = s.pend := rfl
@[simp] theorem State.raiseWith_exec (s : State) (w : Word) (n : ErrorName) (info : Word) : (s.raiseWith w n info).exec = s.exec := rfl
@[simp] theorem State.raiseWith_env (s : State) (w : Word) (n : ErrorName) (info : Word) : (s.raiseWith w n info).env = s.env := rfl

/-! ## raise -/

@[simp] theorem State.raise_args (s : State) (n : ErrorName) (info : Word) : (s.raise n info).args = s.args := rfl
@[simp] theorem State.raise_res (s : State) (n : ErrorName) (info : Word) : (s.raise n info).res = s.res := rfl
@[simp] theorem State.raise_table (s : State) (n : ErrorName) (info : Word) : (s.raise n info).table = s.table := rfl
@[simp] theorem State.raise_tree (s : State) (n : ErrorName) (info : Word) : (s.raise n info).tree = s.tree := rfl
@[simp] theorem State.raise_enc (s : State) (n : ErrorName) (info : Word) : (s.raise n info).enc = s.enc := rfl
@[simp] theorem State.raise_dec (s : State) (n : ErrorName) (info : Word) : (s.raise n info).dec = s.dec := rfl
@[simp] theorem State.raise_error (s : State) (n : ErrorName) (info : Word) : (s.raise n info).error = s.error.record s.latched.word n info := rfl
@[simp] theorem State.raise_fifo (s : State) (n : ErrorName) (info : Word) : (s.raise n info).fifo = s.fifo := rfl
@[simp] theorem State.raise_pend (s : State) (n : ErrorName) (info : Word) : (s.raise n info).pend = s.pend := rfl
@[simp] theorem State.raise_exec (s : State) (n : ErrorName) (info : Word) : (s.raise n info).exec = s.exec := rfl
@[simp] theorem State.raise_env (s : State) (n : ErrorName) (info : Word) : (s.raise n info).env = s.env := rfl

/-! ## emit -/

@[simp] theorem State.emit_args (s : State) (ws : List Word) : (s.emit ws).args = s.args := rfl
@[simp] theorem State.emit_res (s : State) (ws : List Word) : (s.emit ws).res = s.res := rfl
@[simp] theorem State.emit_table (s : State) (ws : List Word) : (s.emit ws).table = s.table := rfl
@[simp] theorem State.emit_tree (s : State) (ws : List Word) : (s.emit ws).tree = s.tree := rfl
@[simp] theorem State.emit_enc (s : State) (ws : List Word) : (s.emit ws).enc = s.enc := rfl
@[simp] theorem State.emit_dec (s : State) (ws : List Word) : (s.emit ws).dec = s.dec := rfl
@[simp] theorem State.emit_error (s : State) (ws : List Word) : (s.emit ws).error = s.error := rfl
@[simp] theorem State.emit_fifo (s : State) (ws : List Word) : (s.emit ws).fifo = s.fifo := rfl
@[simp] theorem State.emit_pend (s : State) (ws : List Word) : (s.emit ws).pend = s.pend ++ ws := rfl
@[simp] theorem State.emit_exec (s : State) (ws : List Word) : (s.emit ws).exec = s.exec := rfl
@[simp] theorem State.emit_env (s : State) (ws : List Word) : (s.emit ws).env = s.env := rfl

/-! ## setRes -/

@[simp] theorem State.setRes_args (s : State) (r0 r1 r2 r3 : Word) : (s.setRes r0 r1 r2 r3).args = s.args := rfl
@[simp] theorem State.setRes_res (s : State) (r0 r1 r2 r3 : Word) : (s.setRes r0 r1 r2 r3).res = ⟨r0, r1, r2, r3⟩ := rfl
@[simp] theorem State.setRes_table (s : State) (r0 r1 r2 r3 : Word) : (s.setRes r0 r1 r2 r3).table = s.table := rfl
@[simp] theorem State.setRes_tree (s : State) (r0 r1 r2 r3 : Word) : (s.setRes r0 r1 r2 r3).tree = s.tree := rfl
@[simp] theorem State.setRes_enc (s : State) (r0 r1 r2 r3 : Word) : (s.setRes r0 r1 r2 r3).enc = s.enc := rfl
@[simp] theorem State.setRes_dec (s : State) (r0 r1 r2 r3 : Word) : (s.setRes r0 r1 r2 r3).dec = s.dec := rfl
@[simp] theorem State.setRes_error (s : State) (r0 r1 r2 r3 : Word) : (s.setRes r0 r1 r2 r3).error = s.error := rfl
@[simp] theorem State.setRes_fifo (s : State) (r0 r1 r2 r3 : Word) : (s.setRes r0 r1 r2 r3).fifo = s.fifo := rfl
@[simp] theorem State.setRes_pend (s : State) (r0 r1 r2 r3 : Word) : (s.setRes r0 r1 r2 r3).pend = s.pend := rfl
@[simp] theorem State.setRes_exec (s : State) (r0 r1 r2 r3 : Word) : (s.setRes r0 r1 r2 r3).exec = s.exec := rfl
@[simp] theorem State.setRes_env (s : State) (r0 r1 r2 r3 : Word) : (s.setRes r0 r1 r2 r3).env = s.env := rfl

/-! ## drew -/

@[simp] theorem State.drew_args (s : State) : s.drew.args = s.args := rfl
@[simp] theorem State.drew_res (s : State) : s.drew.res = s.res := rfl
@[simp] theorem State.drew_table (s : State) : s.drew.table = s.table := rfl
@[simp] theorem State.drew_tree (s : State) : s.drew.tree = s.tree := rfl
@[simp] theorem State.drew_enc (s : State) : s.drew.enc = s.enc := rfl
@[simp] theorem State.drew_dec (s : State) : s.drew.dec = s.dec := rfl
@[simp] theorem State.drew_error (s : State) : s.drew.error = s.error := rfl
@[simp] theorem State.drew_fifo (s : State) : s.drew.fifo = s.fifo := rfl
@[simp] theorem State.drew_pend (s : State) : s.drew.pend = s.pend := rfl
@[simp] theorem State.drew_exec (s : State) : s.drew.exec = s.exec := rfl
@[simp] theorem State.drew_env (s : State) : s.drew.env = { s.env with draws := s.env.draws + 1 } := rfl

/-! ## noteReply -/

@[simp] theorem State.noteReply_args (s : State) (off : Fin 128) (v : Word) : (s.noteReply off v).args = s.args := rfl
@[simp] theorem State.noteReply_res (s : State) (off : Fin 128) (v : Word) : (s.noteReply off v).res = s.res := rfl
@[simp] theorem State.noteReply_table (s : State) (off : Fin 128) (v : Word) : (s.noteReply off v).table = s.table := rfl
@[simp] theorem State.noteReply_tree (s : State) (off : Fin 128) (v : Word) : (s.noteReply off v).tree = s.tree := rfl
@[simp] theorem State.noteReply_enc (s : State) (off : Fin 128) (v : Word) : (s.noteReply off v).enc = s.enc := rfl
@[simp] theorem State.noteReply_dec (s : State) (off : Fin 128) (v : Word) : (s.noteReply off v).dec = s.dec := rfl
@[simp] theorem State.noteReply_error (s : State) (off : Fin 128) (v : Word) : (s.noteReply off v).error = s.error := rfl
@[simp] theorem State.noteReply_fifo (s : State) (off : Fin 128) (v : Word) : (s.noteReply off v).fifo = s.fifo := rfl
@[simp] theorem State.noteReply_pend (s : State) (off : Fin 128) (v : Word) : (s.noteReply off v).pend = s.pend := rfl
@[simp] theorem State.noteReply_exec (s : State) (off : Fin 128) (v : Word) : (s.noteReply off v).exec = s.exec := rfl
@[simp] theorem State.noteReply_env (s : State) (off : Fin 128) (v : Word) : (s.noteReply off v).env = { s.env with replies := s.env.replies ++ [⟨off, v⟩] } := rfl

/-! ## thenDo -/

@[simp] theorem State.thenDo_args (s : State) (ops : List HostOp) : (s.thenDo ops).args = s.args := rfl
@[simp] theorem State.thenDo_res (s : State) (ops : List HostOp) : (s.thenDo ops).res = s.res := rfl
@[simp] theorem State.thenDo_table (s : State) (ops : List HostOp) : (s.thenDo ops).table = s.table := rfl
@[simp] theorem State.thenDo_tree (s : State) (ops : List HostOp) : (s.thenDo ops).tree = s.tree := rfl
@[simp] theorem State.thenDo_enc (s : State) (ops : List HostOp) : (s.thenDo ops).enc = s.enc := rfl
@[simp] theorem State.thenDo_dec (s : State) (ops : List HostOp) : (s.thenDo ops).dec = s.dec := rfl
@[simp] theorem State.thenDo_error (s : State) (ops : List HostOp) : (s.thenDo ops).error = s.error := rfl
@[simp] theorem State.thenDo_fifo (s : State) (ops : List HostOp) : (s.thenDo ops).fifo = s.fifo := rfl
@[simp] theorem State.thenDo_pend (s : State) (ops : List HostOp) : (s.thenDo ops).pend = s.pend := rfl
@[simp] theorem State.thenDo_exec (s : State) (ops : List HostOp) : (s.thenDo ops).exec = s.exec := rfl
@[simp] theorem State.thenDo_env (s : State) (ops : List HostOp) : (s.thenDo ops).env = { s.env with host := ops ++ s.env.host } := rfl

/-! ## resetCore -/

@[simp] theorem State.resetCore_args (s : State) : s.resetCore.args = State.reset.args := rfl
@[simp] theorem State.resetCore_res (s : State) : s.resetCore.res = State.reset.res := rfl
@[simp] theorem State.resetCore_table (s : State) : s.resetCore.table = State.reset.table := rfl
@[simp] theorem State.resetCore_tree (s : State) : s.resetCore.tree = State.reset.tree := rfl
@[simp] theorem State.resetCore_enc (s : State) : s.resetCore.enc = State.reset.enc := rfl
@[simp] theorem State.resetCore_dec (s : State) : s.resetCore.dec = State.reset.dec := rfl
@[simp] theorem State.resetCore_error (s : State) : s.resetCore.error = State.reset.error := rfl
@[simp] theorem State.resetCore_fifo (s : State) : s.resetCore.fifo = State.reset.fifo := rfl
@[simp] theorem State.resetCore_pend (s : State) : s.resetCore.pend = State.reset.pend := rfl
@[simp] theorem State.resetCore_exec (s : State) : s.resetCore.exec = State.reset.exec := rfl
@[simp] theorem State.resetCore_env (s : State) : s.resetCore.env = s.env := rfl

/-! ## afterBits -/

@[simp] theorem State.afterBits_args (s : State) (e : DecEnd) : (s.afterBits e).args = s.args := rfl
@[simp] theorem State.afterBits_res (s : State) (e : DecEnd) : (s.afterBits e).res = s.res := rfl
@[simp] theorem State.afterBits_table (s : State) (e : DecEnd) : (s.afterBits e).table = s.table := rfl
@[simp] theorem State.afterBits_tree (s : State) (e : DecEnd) : (s.afterBits e).tree = s.tree := rfl
@[simp] theorem State.afterBits_enc (s : State) (e : DecEnd) : (s.afterBits e).enc = s.enc := rfl
@[simp] theorem State.afterBits_dec (s : State) (e : DecEnd) : (s.afterBits e).dec = e.dec := rfl
@[simp] theorem State.afterBits_error (s : State) (e : DecEnd) : (s.afterBits e).error = s.error := rfl
@[simp] theorem State.afterBits_fifo (s : State) (e : DecEnd) : (s.afterBits e).fifo = s.fifo := rfl
@[simp] theorem State.afterBits_pend (s : State) (e : DecEnd) : (s.afterBits e).pend = s.pend ++ e.out := rfl
@[simp] theorem State.afterBits_exec (s : State) (e : DecEnd) : (s.afterBits e).exec = s.exec := rfl
@[simp] theorem State.afterBits_env (s : State) (e : DecEnd) : (s.afterBits e).env = s.env := rfl

/-! ## idle -/

@[simp] theorem State.idle_exec : State.idle.exec = none := rfl
@[simp] theorem State.idle_table : State.idle.table = State.reset.table := rfl
@[simp] theorem State.idle_tree : State.idle.tree = State.reset.tree := rfl
@[simp] theorem State.idle_error : State.idle.error = State.reset.error := rfl

/-! ## Rewriting a slot or a node -/

@[simp] theorem SymTable.modify_nsym (t : SymTable) (i : Fin 256) (f : Slot → Slot) : (t.modify i f).nsym = t.nsym := rfl
@[simp] theorem SymTable.modify_total (t : SymTable) (i : Fin 256) (f : Slot → Slot) : (t.modify i f).total = t.total := rfl
@[simp] theorem SymTable.setCode_nsym (t : SymTable) (i : Fin 256) (c : BitVec 64) (l : Fin 65) :
    (t.setCode i c l).nsym = t.nsym := rfl
@[simp] theorem SymTable.setCode_total (t : SymTable) (i : Fin 256) (c : BitVec 64) (l : Fin 65) :
    (t.setCode i c l).total = t.total := rfl
@[simp] theorem SymTable.countOne_nsym (t : SymTable) (i : Fin 256) : (t.countOne i).nsym = t.nsym := rfl
@[simp] theorem SymTable.countOne_total (t : SymTable) (i : Fin 256) : (t.countOne i).total = t.total + 1 := rfl
@[simp] theorem Tree.setChild_nnode (t : Tree) (k : Fin 1024) (b : Bool) (r : Ref) : (t.setChild k b r).nnode = t.nnode := rfl
@[simp] theorem Tree.setChild_root (t : Tree) (k : Fin 1024) (b : Bool) (r : Ref) : (t.setChild k b r).root = t.root := rfl
@[simp] theorem Tree.placeholder_nnode (t : Tree) : t.placeholder.nnode = 1 := rfl
@[simp] theorem Tree.placeholder_root (t : Tree) : t.placeholder.root = .node 0 := rfl

/-- Rewriting slot `i` shows at `i` and nowhere else. -/
theorem SymTable.modify_slots (t : SymTable) (i j : Fin 256) (f : Slot → Slot) :
    (t.modify i f).slots[j] = if i = j then f t.slots[i] else t.slots[j] := by
  simp only [SymTable.modify, Fin.getElem_fin, Vector.getElem_set, Fin.ext_iff]

/-- Setting slot `i`'s code shows at `i` and nowhere else. -/
theorem SymTable.setCode_slots (t : SymTable) (i j : Fin 256) (c : BitVec 64) (l : Fin 65) :
    (t.setCode i c l).slots[j] = if i = j then ⟨t.slots[i].sym, t.slots[i].count, c, l⟩ else t.slots[j] :=
  t.modify_slots i j _

/-- Counting at slot `i` shows at `i` and nowhere else. -/
theorem SymTable.countOne_slots (t : SymTable) (i j : Fin 256) :
    (t.countOne i).slots[j] = if i = j
      then ⟨t.slots[i].sym, t.slots[i].count + 1, t.slots[i].code, t.slots[i].len⟩ else t.slots[j] :=
  t.modify_slots i j fun x => { x with count := x.count + 1 }

@[simp] theorem Node.child_setChild (n : Node) (b : Bool) (r : Ref) : (n.setChild b r).child b = r := by
  cases b <;> rfl

theorem Node.child_setChild_ne (n : Node) {b c : Bool} (r : Ref) (h : c ≠ b) : (n.setChild b r).child c = n.child c := by
  cases b <;> cases c <;> first | rfl | exact absurd rfl h

/-- Setting child `b` of node `k` shows there and nowhere else. -/
theorem Tree.setChild_nodes (t : Tree) (k m : Fin 1024) (b : Bool) (r : Ref) :
    (t.setChild k b r).nodes[m] = if k = m then t.nodes[k].setChild b r else t.nodes[m] := by
  simp only [Tree.setChild, Fin.getElem_fin, Vector.getElem_set, Fin.ext_iff]

end Sys2Proof.Machine
end

