-- ==== Sys2Proof/Laws/Ops.lean ====
section
/-! SUPPORT. What each shared operation can do, said once: recording an error, the symbol-table primitives, the tree-memory
primitives, the working list, one placed code. -/

namespace Sys2Proof.Machine

/-! ## Recording an error -/

theorem ErrorState.record_of_clear (e : ErrorState) (w : Word) (n : ErrorName) (info : Word) (h : e.err = false) :
    e.record w n info = ⟨true, n.code, info, w⟩ := by simp [ErrorState.record, h]

theorem ErrorState.record_of_set (e : ErrorState) (w : Word) (n : ErrorName) (info : Word) (h : e.err = true) :
    e.record w n info = e := by simp [ErrorState.record, h]

@[simp] theorem ErrorState.record_err (e : ErrorState) (w : Word) (n : ErrorName) (info : Word) :
    (e.record w n info).err = true := by
  unfold ErrorState.record
  split <;> simp_all

theorem State.latched_of_exec (s : State) (c : Command) (h : s.exec = some c) : s.latched = c := by
  simp [State.latched, h]

/-- Recording an error keeps the error registers' invariant. -/
theorem ErrorInv.record {e : ErrorState} (h : ErrorInv e) (w : Word) (n : ErrorName) (info : Word) :
    ErrorInv (e.record w n info) := by
  cases he : e.err with
  | true => rw [e.record_of_set w n info he]; exact h
  | false =>
    rw [e.record_of_clear w n info he]
    exact ⟨fun hf => by simp at hf, fun _ => ⟨n, rfl⟩⟩

/-! ## The symbol table -/

theorem SymTable.mem_valid (t : SymTable) (i : Fin 256) : i ∈ t.valid ↔ i.val < t.nsym.val := by
  unfold SymTable.valid
  rw [List.mem_take_iff_getElem]
  constructor
  · rintro ⟨k, hk, rfl⟩
    simp only [List.length_finRange] at hk
    simp only [List.getElem_finRange, Fin.val_cast]
    omega
  · intro h
    exact ⟨i.val, by simp only [List.length_finRange]; omega, by simp⟩

@[simp] theorem SymTable.valid_length (t : SymTable) : t.valid.length = t.nsym.val := by
  simp only [SymTable.valid, List.length_take, List.length_finRange]
  omega

theorem SymTable.valid_nodup (t : SymTable) : t.valid.Nodup :=
  (List.nodup_finRange 256).sublist (List.take_sublist _ _)

/-- `lookup` answers a valid slot that holds the symbol. -/
theorem SymTable.lookup_some {t : SymTable} {y : Word} {i : Fin 256} (h : t.lookup y = some i) :
    i.val < t.nsym.val ∧ t.slots[i].sym.setWidth 32 = y :=
  ⟨(t.mem_valid i).1 (List.mem_of_find?_eq_some h), by simpa using List.find?_some h⟩

/-- `lookup` answers none exactly when no valid slot holds the symbol. -/
theorem SymTable.lookup_none {t : SymTable} {y : Word} :
    t.lookup y = none ↔ ∀ i : Fin 256, i.val < t.nsym.val → t.slots[i].sym.setWidth 32 ≠ y := by
  simp [SymTable.lookup, List.find?_eq_none, t.mem_valid]

/-- What `alloc` does when it answers a slot. -/
theorem SymTable.alloc_some {t t' : SymTable} {y : Word} {i : Fin 256} (h : t.alloc y = some (i, t')) :
    i.val = t.nsym.val ∧ t'.nsym.val = t.nsym.val + 1 ∧ t'.total = t.total ∧
      ∀ j : Fin 256, t'.slots[j] = if i = j then ⟨y.setWidth 21, 0, 0, 0⟩ else t.slots[j] := by
  unfold SymTable.alloc at h
  split at h
  · simp only [Option.some.injEq, Prod.mk.injEq] at h
    obtain ⟨rfl, rfl⟩ := h
    refine ⟨rfl, rfl, rfl, fun j => ?_⟩
    simp only [Fin.getElem_fin, Vector.getElem_set, Fin.ext_iff]
  · simp at h

/-- `alloc` answers none exactly when the table is full. -/
theorem SymTable.alloc_none {t : SymTable} {y : Word} : t.alloc y = none ↔ t.nsym.val = 256 := by
  unfold SymTable.alloc
  have := t.nsym.isLt
  split <;> simp <;> omega

/-- What `slotFor` does when it answers a slot: it found one, or allocated the next. -/
theorem SymTable.slotFor_some {t t' : SymTable} {y : Word} {i : Fin 256} (h : t.slotFor y = some (i, t')) :
    (t.lookup y = some i ∧ t' = t) ∨ (t.lookup y = none ∧ t.alloc y = some (i, t')) := by
  unfold SymTable.slotFor at h
  split at h
  · next hl =>
    simp only [Option.some.injEq, Prod.mk.injEq] at h
    exact .inl ⟨h.1 ▸ hl, h.2.symm⟩
  · next hl => exact .inr ⟨hl, h⟩

/-- `slotFor` answers none exactly when the symbol is new and the table is full. -/
theorem SymTable.slotFor_none {t : SymTable} {y : Word} :
    t.slotFor y = none ↔ t.lookup y = none ∧ t.nsym.val = 256 := by
  unfold SymTable.slotFor
  split
  · next hl => simp [hl]
  · next hl => simp [hl, SymTable.alloc_none]

/-! ## The tree memory -/

/-- What `Tree.alloc` does when it answers a node. -/
theorem Tree.alloc_some {t t' : Tree} {n : Node} {k : Fin 1024} (h : t.alloc n = some (k, t')) :
    k.val = t.nnode.val ∧ t'.nnode.val = t.nnode.val + 1 ∧ t'.root = t.root ∧
      ∀ m : Fin 1024, t'.nodes[m] = if k = m then n else t.nodes[m] := by
  unfold Tree.alloc at h
  split at h
  · simp only [Option.some.injEq, Prod.mk.injEq] at h
    obtain ⟨rfl, rfl⟩ := h
    refine ⟨rfl, rfl, rfl, fun j => ?_⟩
    simp only [Fin.getElem_fin, Vector.getElem_set, Fin.ext_iff]
  · simp at h

/-- `Tree.alloc` answers none exactly when the tree memory is full. -/
theorem Tree.alloc_none {t : Tree} {n : Node} : t.alloc n = none ↔ t.nnode.val = 1024 := by
  unfold Tree.alloc
  have := t.nnode.isLt
  split <;> simp <;> omega

@[simp] theorem Tree.follow_nil (t : Tree) (r : Ref) : t.follow r [] = some r := by
  cases r <;> rfl

@[simp] theorem Tree.follow_node (t : Tree) (k : Fin 1024) (b : Bool) (bs : List Bool) :
    t.follow (.node k) (b :: bs) = t.follow (t.nodes[k].child b) bs := rfl

@[simp] theorem Tree.follow_leaf (t : Tree) (i : Fin 256) (b : Bool) (bs : List Bool) :
    t.follow (.leaf i) (b :: bs) = none := rfl

@[simp] theorem Tree.follow_empty (t : Tree) (b : Bool) (bs : List Bool) : t.follow .empty (b :: bs) = none := rfl

/-- Following one path after another. -/
theorem Tree.follow_append (t : Tree) (r : Ref) (p q : List Bool) :
    t.follow r (p ++ q) = (t.follow r p).bind fun c => t.follow c q := by
  induction p generalizing r with
  | nil => simp
  | cons b bs ih => cases r <;> simp [ih]

/-! ## The working list -/

theorem insertDesc_perm (x : Weighted) (w : List Weighted) : (insertDesc x w).Perm (x :: w) := by
  induction w with
  | nil => exact .refl _
  | cons y ys ih =>
    unfold insertDesc
    split
    · exact (ih.cons y).trans (.swap x y ys)
    · exact .refl _

/-- Sorting permutes the working list. -/
theorem stableSortDesc_perm (w : List Weighted) : (stableSortDesc w).Perm w := by
  induction w with
  | nil => exact .refl _
  | cons x xs ih => exact (insertDesc_perm x _).trans (ih.cons x)

@[simp] theorem stableSortDesc_length (w : List Weighted) : (stableSortDesc w).length = w.length :=
  (stableSortDesc_perm w).length_eq

/-! ## The bit positions of a unit -/

theorem unitBits_succ (nb : Nat) : unitBits (nb + 1) = unitBits nb ++ [15 - nb] := by
  simp [unitBits, List.range_succ]

@[simp] theorem unitBits_length (nb : Nat) : (unitBits nb).length = nb := by simp [unitBits]

/-! ## Draining the encoder -/

@[simp] theorem Encoder.drain_act (fuel : Nat) (e : Encoder) : (Encoder.drain fuel e).1.act = e.act := by
  induction fuel generalizing e with
  | zero => rfl
  | succ n ih =>
    unfold Encoder.drain
    split
    · simp [ih, Encoder.dropUnit]
    · rfl

/-- A drain that starts below 16 held bits does nothing. -/
theorem Encoder.drain_of_lt (fuel : Nat) (e : Encoder) (h : e.held.toNat < 16) : Encoder.drain fuel e = (e, []) := by
  cases fuel with
  | zero => rfl
  | succ n => simp [Encoder.drain, Nat.not_le.2 h]

/-! ## What the host makes of output words -/

@[simp] theorem isUnit_unitWord (u : StorageUnit) : HostProgram.isUnit (unitWord u) = true := by
  simp only [HostProgram.isUnit, unitWord, beq_iff_eq]
  exact BitVec.eq_of_getLsbD_eq fun i hi => by
    rw [BitVec.getLsbD_extractLsb', BitVec.getLsbD_append]
    interval_cases i <;> simp

@[simp] theorem isSymbol_unitWord (u : StorageUnit) : HostProgram.isSymbol (unitWord u) = false := by
  have h := isUnit_unitWord u
  simp only [HostProgram.isUnit, HostProgram.isSymbol, beq_iff_eq, beq_eq_false_iff_ne] at h ⊢
  rw [h]
  decide

@[simp] theorem isSymbol_symbolWord (y : Symbol) : HostProgram.isSymbol (symbolWord y) = true := by
  simp only [HostProgram.isSymbol, symbolWord, beq_iff_eq]
  exact BitVec.eq_of_getLsbD_eq fun i hi => by
    rw [BitVec.getLsbD_extractLsb', BitVec.getLsbD_append]
    interval_cases i <;> simp

@[simp] theorem isUnit_symbolWord (y : Symbol) : HostProgram.isUnit (symbolWord y) = false := by
  have h := isSymbol_symbolWord y
  simp only [HostProgram.isUnit, HostProgram.isSymbol, beq_iff_eq, beq_eq_false_iff_ne] at h ⊢
  rw [h]
  decide

/-- The units an encoder emitted are the payload the host takes. -/
theorem payload_units (us : List StorageUnit) : HostProgram.payload (us.map unitWord) = us := by
  induction us with
  | nil => rfl
  | cons u us ih =>
    have hu : (unitWord u).extractLsb' 0 16 = u := by
      apply BitVec.eq_of_getLsbD_eq
      intro i hi
      rw [BitVec.getLsbD_extractLsb', unitWord, BitVec.getLsbD_append]
      simp [hi]
    simpa [HostProgram.payload, hu] using ih

/-- The symbols a decoder emitted are the text the host takes. -/
theorem text_symbols (ys : List Symbol) : HostProgram.text (ys.map symbolWord) = ys := by
  induction ys with
  | nil => rfl
  | cons y ys ih =>
    have hy : (symbolWord y).extractLsb' 0 21 = y := by
      apply BitVec.eq_of_getLsbD_eq
      intro i hi
      rw [BitVec.getLsbD_extractLsb', symbolWord, BitVec.getLsbD_append]
      simp [hi]
    simpa [HostProgram.text, hy] using ih

end Sys2Proof.Machine
end

