-- ==== Sys2Proof/Laws/PerInstr.lean ====
section
/-! SUPPORT. Statements about every command as syntax, one lemma per constructor. -/

namespace Sys2Proof.Laws

/-- The low half of a format-I word is its opcode byte under a zero byte. -/
theorem formatI_low (imm : BitVec 16) (opc : Byte) : formatI imm opc &&& 0x0000FFFF#32 = opc.setWidth 32 := by
  apply BitVec.eq_of_toNat_eq
  have h := opc.isLt
  simp only [formatI, BitVec.toNat_and, BitVec.toNat_append, BitVec.toNat_setWidth, BitVec.toNat_ofNat]
  rw [show (65535 % 2 ^ 32 : Nat) = 2 ^ 16 - 1 from rfl, Nat.and_two_pow_sub_one_eq_mod]
  simp only [Nat.shiftLeft_eq, Nat.zero_mod, Nat.or_zero]
  rw [← Nat.shiftLeft_eq _ 8, ← Nat.shiftLeft_add_eq_or_of_lt h, Nat.shiftLeft_eq]
  omega

/-- A format-L word as a number: the unit above bit 16, SKIP at bit 9, LAST and the opcode below. -/
theorem formatL_toNat (unit : BitVec 16) (skip : BitVec 4) :
    (formatL unit skip).toNat = 65536 * unit.toNat + (512 * skip.toNat + 0x151) := by
  have h := skip.isLt
  simp only [formatL, BitVec.toNat_append]
  rw [← Nat.shiftLeft_add_eq_or_of_lt (by decide), ← Nat.shiftLeft_add_eq_or_of_lt (by decide),
    ← Nat.shiftLeft_add_eq_or_of_lt h, ← Nat.shiftLeft_add_eq_or_of_lt (by decide)]
  simp only [Nat.shiftLeft_eq, BitVec.toNat_ofNat]
  omega

/-- The bits DE_LAST's mask covers are those of its pattern. -/
theorem formatL_fixed (unit : BitVec 16) (skip : BitVec 4) : formatL unit skip &&& 0x0000E1FF#32 = 0x00000151#32 := by
  apply BitVec.eq_of_toNat_eq
  have h := skip.isLt
  have hm : (0xE1FF : Nat) = (2 ^ 16 - 1) &&& 0xE1FF := rfl
  rw [BitVec.toNat_and, formatL_toNat, show (0x0000E1FF#32).toNat = 0xE1FF from rfl, hm, ← Nat.and_assoc,
    Nat.and_two_pow_sub_one_eq_mod, show (65536 * unit.toNat + (512 * skip.toNat + 0x151)) % 2 ^ 16
      = 512 * skip.toNat + 0x151 by omega]
  generalize skip.toNat = k at h
  interval_cases k <;> rfl

namespace RowMatch

/-- The command's word selects the row of the opcode map that bears its mnemonic (30_encoding.md R61). -/
def Statement (i : Instr) : Prop := ∃ r ∈ opcodeMap, r.selects (encode i) ∧ LawsName i = r.mnemonic
where
  /-- The mnemonic a constructor stands for. -/
  LawsName : Instr → Mnemonic
    | .nop => .NOP | .sreset => .SRESET | .fcCount => .FC_COUNT | .fcRead _ => .FC_READ
    | .tbBuild => .TB_BUILD | .trRead _ => .TR_READ | .ctDerive => .CT_DERIVE | .ctRead _ => .CT_READ
    | .ctLoad _ => .CT_LOAD | .trRebuild => .TR_REBUILD | .enStart => .EN_START | .enSym => .EN_SYM
    | .enFlush => .EN_FLUSH | .deStart => .DE_START | .deUnit _ => .DE_UNIT | .deLast _ _ => .DE_LAST

theorem nop : Statement .nop := ⟨⟨.NOP, 0x00, 0xFFFFFFFF⟩, by decide, by decide, rfl⟩
theorem sreset : Statement .sreset := ⟨⟨.SRESET, 0x01, 0xFFFFFFFF⟩, by decide, by decide, rfl⟩
theorem fcCount : Statement .fcCount := ⟨⟨.FC_COUNT, 0x10, 0xFFFFFFFF⟩, by decide, by decide, rfl⟩
theorem fcRead (slot : Nat) : Statement (.fcRead slot) :=
  ⟨⟨.FC_READ, 0x11, 0x0000FFFF⟩, by decide, formatI_low _ _, rfl⟩
theorem tbBuild : Statement .tbBuild := ⟨⟨.TB_BUILD, 0x20, 0xFFFFFFFF⟩, by decide, by decide, rfl⟩
theorem trRead (node : Nat) : Statement (.trRead node) :=
  ⟨⟨.TR_READ, 0x21, 0x0000FFFF⟩, by decide, formatI_low _ _, rfl⟩
theorem ctDerive : Statement .ctDerive := ⟨⟨.CT_DERIVE, 0x30, 0xFFFFFFFF⟩, by decide, by decide, rfl⟩
theorem ctRead (slot : Nat) : Statement (.ctRead slot) :=
  ⟨⟨.CT_READ, 0x31, 0x0000FFFF⟩, by decide, formatI_low _ _, rfl⟩
theorem ctLoad (len : Nat) : Statement (.ctLoad len) :=
  ⟨⟨.CT_LOAD, 0x32, 0x0000FFFF⟩, by decide, formatI_low _ _, rfl⟩
theorem trRebuild : Statement .trRebuild := ⟨⟨.TR_REBUILD, 0x33, 0xFFFFFFFF⟩, by decide, by decide, rfl⟩
theorem enStart : Statement .enStart := ⟨⟨.EN_START, 0x40, 0xFFFFFFFF⟩, by decide, by decide, rfl⟩
theorem enSym : Statement .enSym := ⟨⟨.EN_SYM, 0x41, 0xFFFFFFFF⟩, by decide, by decide, rfl⟩
theorem enFlush : Statement .enFlush := ⟨⟨.EN_FLUSH, 0x42, 0xFFFFFFFF⟩, by decide, by decide, rfl⟩
theorem deStart : Statement .deStart := ⟨⟨.DE_START, 0x50, 0xFFFFFFFF⟩, by decide, by decide, rfl⟩
theorem deUnit (unit : StorageUnit) : Statement (.deUnit unit) :=
  ⟨⟨.DE_UNIT, 0x51, 0x0000FFFF⟩, by decide, formatI_low _ _, rfl⟩
theorem deLast (unit : StorageUnit) (skip : Nat) : Statement (.deLast unit skip) :=
  ⟨⟨.DE_LAST, 0x151, 0x0000E1FF⟩, by decide, formatL_fixed _ _, rfl⟩

end RowMatch

end Sys2Proof.Laws
end

