-- ==== Sys2Proof/Laws/Commands.lean ====
section
/-! SUPPORT. What each command can do, said once: if its meaning answers a next state, one of these cases holds. -/

namespace Sys2Proof.Machine

theorem execFcCount_cases {s t : State} (h : exec .fcCount s = .next t) :
    (¬ LegalSymbol s.symbolArg ∧ t = s.raise .badSymbol s.symbolArg) ∨
    (LegalSymbol s.symbolArg ∧ s.table.total = 0xFFFFFFFF#32 ∧ t = s.raise .countOvf s.symbolArg) ∨
    (LegalSymbol s.symbolArg ∧ s.table.total ≠ 0xFFFFFFFF#32 ∧ s.table.slotFor s.symbolArg = none ∧
      t = s.raise .tableFull s.symbolArg) ∨
    (LegalSymbol s.symbolArg ∧ s.table.total ≠ 0xFFFFFFFF#32 ∧ ∃ i tab, s.table.slotFor s.symbolArg = some (i, tab) ∧
      t = { s with table := tab.countOne i }) := by
  simp only [exec, execFcCount] at h
  by_cases hy : LegalSymbol s.symbolArg
  · by_cases ht : s.table.total = 0xFFFFFFFF#32
    · simp only [hy, ht, not_true, if_true, if_false, Host.Outcome.next.injEq] at h
      exact .inr (.inl ⟨hy, ht, h.symm⟩)
    · simp only [hy, ht, not_true, if_false] at h
      cases hs : s.table.slotFor s.symbolArg with
      | none =>
        simp only [hs, Host.Outcome.next.injEq] at h
        exact .inr (.inr (.inl ⟨hy, ht, rfl, h.symm⟩))
      | some p =>
        simp only [hs, Host.Outcome.next.injEq] at h
        exact .inr (.inr (.inr ⟨hy, ht, p.1, p.2, rfl, h.symm⟩))
  · simp only [hy, not_false_iff, if_true, Host.Outcome.next.injEq] at h
    exact .inl ⟨hy, h.symm⟩

theorem execFcRead_cases {s t : State} {slot : Nat} (h : exec (.fcRead slot) s = .next t) :
    (∃ i : Fin 256, i.val = slot ∧ slot < s.table.nsym.val ∧
      t = s.setRes (s.table.slots[i].sym.setWidth 32) s.table.slots[i].count 0 0) ∨
    (s.table.nsym.val ≤ slot ∧ t = s.raise .badIndex (word32 slot)) := by
  simp only [exec, execFcRead] at h
  split at h
  · next hlt =>
    simp only [Host.Outcome.next.injEq] at h
    exact .inl ⟨⟨slot, by omega⟩, rfl, hlt, h.symm⟩
  · next hge =>
    simp only [Host.Outcome.next.injEq] at h
    exact .inr ⟨by omega, h.symm⟩

theorem execCtRead_cases {s t : State} {slot : Nat} (h : exec (.ctRead slot) s = .next t) :
    (∃ i : Fin 256, i.val = slot ∧ slot < s.table.nsym.val ∧
      t = s.setRes (s.table.slots[i].sym.setWidth 32) (s.table.slots[i].code.extractLsb' 0 32)
        (s.table.slots[i].code.extractLsb' 32 32) (word32 s.table.slots[i].len.val)) ∨
    (s.table.nsym.val ≤ slot ∧ t = s.raise .badIndex (word32 slot)) := by
  simp only [exec, execCtRead] at h
  split at h
  · next hlt =>
    simp only [Host.Outcome.next.injEq] at h
    exact .inl ⟨⟨slot, by omega⟩, rfl, hlt, h.symm⟩
  · next hge =>
    simp only [Host.Outcome.next.injEq] at h
    exact .inr ⟨by omega, h.symm⟩

theorem execTrRead_cases {s t : State} {node : Nat} (h : exec (.trRead node) s = .next t) :
    (∃ k : Fin 1024, k.val = node ∧ node < s.tree.nnode.val ∧
      t = s.setRes s.tree.nodes[k].c0.word s.tree.nodes[k].c1.word s.tree.root.word (word32 s.tree.nnode.val)) ∨
    (s.tree.nnode.val ≤ node ∧ t = s.raise .badIndex (word32 node)) := by
  simp only [exec, execTrRead] at h
  split at h
  · next hlt =>
    simp only [Host.Outcome.next.injEq] at h
    exact .inl ⟨⟨node, by omega⟩, rfl, hlt, h.symm⟩
  · next hge =>
    simp only [Host.Outcome.next.injEq] at h
    exact .inr ⟨by omega, h.symm⟩

theorem execCtDerive_cases {s t : State} (h : exec .ctDerive s = .next t) :
    (∃ tab, s.tree.walk 1024 s.tree.root 0 0 s.table.clearCodes = .done tab ∧ t = { s with table := tab }) ∨
    (∃ i tab, s.tree.walk 1024 s.tree.root 0 0 s.table.clearCodes = .tooLong i tab ∧
      t = State.raise { s with table := tab } .codeTooLong (word32 i.val)) := by
  simp only [exec, execCtDerive] at h
  split at h
  · next tab hw => exact .inl ⟨tab, hw, by simpa using h.symm⟩
  · next i tab hw => exact .inr ⟨i, tab, hw, by simpa using h.symm⟩
  · cases h

theorem execCtLoad_cases {s t : State} {len : Nat} (h : exec (.ctLoad len) s = .next t) :
    (¬ LegalSymbol s.symbolArg ∧ t = s.raise .badSymbol s.symbolArg) ∨
    (LegalSymbol s.symbolArg ∧ ¬ LegalLength len ∧ t = s.raise .badArg (word32 len)) ∨
    (LegalSymbol s.symbolArg ∧ LegalLength len ∧ s.table.slotFor s.symbolArg = none ∧
      t = s.raise .tableFull s.symbolArg) ∨
    (LegalSymbol s.symbolArg ∧ ∃ (hl : LegalLength len) (i : Fin 256) (tab : SymTable),
      s.table.slotFor s.symbolArg = some (i, tab) ∧
      t = { s with table := tab.setCode i (lowBits s.patternArg len) ⟨len, Nat.lt_succ_of_le hl.2⟩ }) := by
  simp only [exec, execCtLoad] at h
  by_cases hy : LegalSymbol s.symbolArg
  · by_cases hl : LegalLength len
    · simp only [hy, not_true, if_false] at h
      rw [dif_pos hl] at h
      cases hs : s.table.slotFor s.symbolArg with
      | none =>
        simp only [hs, Host.Outcome.next.injEq] at h
        exact .inr (.inr (.inl ⟨hy, hl, rfl, h.symm⟩))
      | some p =>
        simp only [hs, Host.Outcome.next.injEq] at h
        exact .inr (.inr (.inr ⟨hy, hl, p.1, p.2, rfl, h.symm⟩))
    · simp only [hy, not_true, if_false] at h
      rw [dif_neg hl] at h
      simp only [Host.Outcome.next.injEq] at h
      exact .inr (.inl ⟨hy, hl, h.symm⟩)
  · simp only [hy, not_false_iff, if_true, Host.Outcome.next.injEq] at h
    exact .inl ⟨hy, h.symm⟩

theorem execTrRebuild_cases {s t : State} (h : exec .trRebuild s = .next t) :
    ((Tree.placeAll s.table s.table.valid s.tree.placeholder).error = none ∧
      t = { s with tree := (Tree.placeAll s.table s.table.valid s.tree.placeholder).tree
                   dec := { s.dec with act := false } }) ∨
    (∃ n i, (Tree.placeAll s.table s.table.valid s.tree.placeholder).error = some (n, i) ∧
      t = State.raise { s with tree := (Tree.placeAll s.table s.table.valid s.tree.placeholder).tree
                               dec := { s.dec with act := false } } n (word32 i.val)) := by
  simp only [exec, execTrRebuild] at h
  split at h
  · next he => exact .inl ⟨he, by simpa using h.symm⟩
  · next n i he => exact .inr ⟨n, i, he, by simpa using h.symm⟩

theorem execEnSym_cases {s t : State} (h : exec .enSym s = .next t) :
    (s.enc.act = false ∧ t = s.raise .sequence 0) ∨
    (s.enc.act = true ∧ ¬ LegalSymbol s.symbolArg ∧ t = s.raise .badSymbol s.symbolArg) ∨
    (s.enc.act = true ∧ LegalSymbol s.symbolArg ∧ s.table.codeOf s.symbolArg = none ∧
      t = s.raise .missingCode s.symbolArg) ∨
    (s.enc.act = true ∧ LegalSymbol s.symbolArg ∧ ∃ x, s.table.codeOf s.symbolArg = some x ∧
      t = State.emit { s with enc := (Encoder.drain 8 (s.enc.append x.code x.len.val)).1 }
        (Encoder.drain 8 (s.enc.append x.code x.len.val)).2) := by
  simp only [exec, execEnSym] at h
  cases ha : s.enc.act with
  | false =>
    simp only [ha, Bool.false_eq_true, not_false_iff, if_true, Host.Outcome.next.injEq] at h
    exact .inl ⟨rfl, h.symm⟩
  | true =>
    by_cases hy : LegalSymbol s.symbolArg
    · simp only [ha, hy, not_true, if_false] at h
      cases hc : s.table.codeOf s.symbolArg with
      | none =>
        simp only [hc, Host.Outcome.next.injEq] at h
        exact .inr (.inr (.inl ⟨rfl, hy, rfl, h.symm⟩))
      | some x =>
        simp only [hc, Host.Outcome.next.injEq] at h
        exact .inr (.inr (.inr ⟨rfl, hy, x, rfl, h.symm⟩))
    · simp only [ha, hy, not_true, not_false_iff, if_true, if_false, Host.Outcome.next.injEq] at h
      exact .inr (.inl ⟨rfl, hy, h.symm⟩)

theorem execEnFlush_cases {s t : State} (h : exec .enFlush s = .next t) :
    (s.enc.act = false ∧ t = s.raise .sequence 0) ∨
    (s.enc.act = true ∧ 0 < s.enc.held.toNat ∧
      t = State.setRes (State.emit { s with enc := ⟨false, 0, 0, s.enc.units + 1⟩ } [unitWord s.enc.paddedUnit])
        (word32 (16 - s.enc.held.toNat)) (s.enc.units + 1) 0 0) ∨
    (s.enc.act = true ∧ s.enc.held.toNat = 0 ∧
      t = State.setRes { s with enc := ⟨false, 0, 0, s.enc.units⟩ } 0 s.enc.units 0 0) := by
  simp only [exec, execEnFlush] at h
  cases ha : s.enc.act with
  | false =>
    simp only [ha, Bool.false_eq_true, not_false_iff, if_true, Host.Outcome.next.injEq] at h
    exact .inl ⟨rfl, h.symm⟩
  | true =>
    simp only [ha, not_true, if_false] at h
    split at h
    · next hh => exact .inr (.inl ⟨rfl, hh, by simpa using h.symm⟩)
    · next hh => exact .inr (.inr ⟨rfl, by omega, by simpa using h.symm⟩)

theorem execDeStart_cases {s t : State} (h : exec .deStart s = .next t) :
    (∃ r, s.tree.root = .node r ∧ t = { s with dec := ⟨true, r, 0⟩ }) ∨
    ((∀ r, s.tree.root ≠ .node r) ∧ t = s.raise .noTree s.tree.root.kind) := by
  simp only [exec, execDeStart] at h
  split at h
  · next r hr => exact .inl ⟨r, hr, by simpa using h.symm⟩
  · next hr => exact .inr ⟨fun r hc => hr r hc, by simpa using h.symm⟩

theorem execDeUnit_cases {s t : State} {unit : StorageUnit} (h : exec (.deUnit unit) s = .next t) :
    (s.dec.act = false ∧ t = s.raise .sequence 0) ∨
    (s.dec.act = true ∧ ∃ r, s.tree.root = .node r ∧
      (((decBits s.table s.tree r unit (unitBits 16) s.dec).bad = none ∧
        t = s.afterBits (decBits s.table s.tree r unit (unitBits 16) s.dec)) ∨
       ∃ j, (decBits s.table s.tree r unit (unitBits 16) s.dec).bad = some j ∧
        t = (s.afterBits (decBits s.table s.tree r unit (unitBits 16) s.dec)).raise .decodeError (word32 j))) := by
  simp only [exec, execDeUnit] at h
  cases ha : s.dec.act with
  | false =>
    simp only [ha, Bool.false_eq_true, not_false_iff, if_true, Host.Outcome.next.injEq] at h
    exact .inl ⟨rfl, h.symm⟩
  | true =>
    simp only [ha, not_true, if_false] at h
    split at h
    · next r hr =>
      refine .inr ⟨rfl, r, hr, ?_⟩
      split at h
      · next hb => exact .inl ⟨hb, by simpa using h.symm⟩
      · next j hb => exact .inr ⟨j, hb, by simpa using h.symm⟩
    · cases h

theorem execDeLast_cases {s t : State} {unit : StorageUnit} {skip : Nat} (h : exec (.deLast unit skip) s = .next t) :
    (s.dec.act = false ∧ t = s.raise .sequence 0) ∨
    (s.dec.act = true ∧ ∃ r e, s.tree.root = .node r ∧ e = decBits s.table s.tree r unit (unitBits (16 - skip)) s.dec ∧
      ((∃ j, e.bad = some j ∧ t = (s.afterBits e).raise .decodeError (word32 j)) ∨
       (e.bad = none ∧ e.dec.cur = r ∧
        t = State.setRes (s.afterBits { e with dec := { e.dec with act := false } }) e.dec.syms 0 0 0) ∨
       (e.bad = none ∧ e.dec.cur ≠ r ∧ t = (s.afterBits e).raise .decPartial (word32 e.dec.cur.val)))) := by
  simp only [exec, execDeLast] at h
  cases ha : s.dec.act with
  | false =>
    simp only [ha, Bool.false_eq_true, not_false_iff, if_true, Host.Outcome.next.injEq] at h
    exact .inl ⟨rfl, h.symm⟩
  | true =>
    simp only [ha, not_true, if_false] at h
    split at h
    · next r hr =>
      refine .inr ⟨rfl, r, _, hr, rfl, ?_⟩
      split at h
      · next j hb => exact .inl ⟨j, hb, by simpa using h.symm⟩
      · next hb =>
        split at h
        · next hc => exact .inr (.inl ⟨hb, hc, by simpa using h.symm⟩)
        · next hc => exact .inr (.inr ⟨hb, hc, by simpa using h.symm⟩)
    · cases h

/-- A session's open flag is not touched by the walk over bits. -/
@[simp] theorem decBits_act (tab : SymTable) (t : Tree) (r : Fin 1024) (u : StorageUnit) (js : List Nat) (d : Decoder) :
    (decBits tab t r u js d).dec.act = d.act := by
  induction js generalizing d with
  | nil => rfl
  | cons j js ih =>
    simp only [decBits]
    split
    · rfl
    · simp [ih]
    · simp [ih]

/-- The walk over bits emits at most one word a bit. -/
theorem decBits_out_length (tab : SymTable) (t : Tree) (r : Fin 1024) (u : StorageUnit) (js : List Nat) (d : Decoder) :
    (decBits tab t r u js d).out.length ≤ js.length := by
  induction js generalizing d with
  | nil => simp [decBits]
  | cons j js ih =>
    simp only [decBits]
    split
    · simp
    · simpa using ih _
    · exact (ih _).trans (by simp)

end Sys2Proof.Machine
end

