-- ==== Sys2Proof/Laws/Step.lean ====
section
/-! SUPPORT. What one step can do, said once: whose turn it is, and what each agent's step answers. -/

namespace Sys2Proof.Machine

/-- With a turn given, that agent moves and the turn is used up. -/
theorem State.nextTurn_cons {s : State} {t : Turn} {ts : List Turn} (h : s.env.turns = t :: ts) :
    s.nextTurn = (t, { s with env := { s.env with turns := ts } }) := by simp [State.nextTurn, h]

/-- With none given, the default agent moves. -/
theorem State.nextTurn_nil {s : State} (h : s.env.turns = []) : s.nextTurn = (s.defaultTurn, s) := by
  simp [State.nextTurn, h]

/-- Choosing whose turn it is changes only the list of turns. -/
theorem State.nextTurn_state (s : State) : ∃ ts, s.nextTurn.2 = { s with env := { s.env with turns := ts } } := by
  unfold State.nextTurn
  split
  · exact ⟨s.env.turns, rfl⟩
  · next ts _ => exact ⟨ts, rfl⟩

/-- What a step that answers a next state can be: one of the four turns. -/
theorem step_cases {s t : State} (h : step s = .next t) :
    (s.nextTurn.1 = .host ∧ hostTurn s.nextTurn.2 = .next t) ∨
    (s.nextTurn.1 = .execute ∧ executeStep s.nextTurn.2 = .next t) ∨
    (s.nextTurn.1 = .move ∧ t = moveStep s.nextTurn.2) ∨
    (s.nextTurn.1 = .hardReset ∧ t = s.nextTurn.2.resetCore) := by
  unfold step at h
  cases ht : s.nextTurn.1 with
  | host => exact .inl ⟨rfl, by simpa [takeTurn, ht] using h⟩
  | execute => exact .inr (.inl ⟨rfl, by simpa [takeTurn, ht] using h⟩)
  | move => exact .inr (.inr (.inl ⟨rfl, by simpa [takeTurn, ht] using h.symm⟩))
  | hardReset => exact .inr (.inr (.inr ⟨rfl, by simpa [takeTurn, ht] using h.symm⟩))

/-- What the execute step can do. -/
theorem executeStep_cases {s t : State} (h : executeStep s = .next t) :
    (s.exec = none ∧ t = s) ∨
    (s.exec.isSome ∧ s.error.err = true ∧ t = { s with exec := none }) ∨
    (∃ c i u, s.exec = some c ∧ s.error.err = false ∧ decode c.word = .ok i ∧ exec i s = .next u ∧
      t = { u with exec := none }) := by
  unfold executeStep at h
  cases hx : s.exec with
  | none =>
    simp only [hx, Host.Outcome.next.injEq] at h
    exact .inl ⟨rfl, h.symm⟩
  | some c =>
    simp only [hx] at h
    cases he : s.error.err with
    | true =>
      simp only [he, if_true, Host.Outcome.next.injEq] at h
      exact .inr (.inl ⟨rfl, rfl, h.symm⟩)
    | false =>
      simp only [he, Bool.false_eq_true, if_false] at h
      cases hd : decode c.word with
      | error e => simp [hd] at h
      | ok i =>
        simp only [hd, perform] at h
        cases hu : exec i s with
        | next u =>
          simp only [hu, Host.Outcome.next.injEq] at h
          exact .inr (.inr ⟨c, i, u, rfl, rfl, hd, hu, h.symm⟩)
        | fault f => simp [hu] at h
        | refused r => simp [hu] at h

/-- What the move step can do. -/
theorem moveStep_cases (s : State) :
    moveStep s = s ∨ ∃ w rest, s.pend = w :: rest ∧ s.fifo.length < Config.outDepth ∧
      moveStep s = { s with fifo := s.fifo ++ [w], pend := rest } := by
  unfold moveStep
  split
  · exact .inl rfl
  · next w rest hp =>
    split
    · next hl => exact .inr ⟨w, rest, hp, hl, rfl⟩
    · exact .inl rfl

/-- What the acceptance logic can do (20_memory.md R49). -/
theorem accept_cases {w : Word} {s t : State} (h : accept w s = .next t) :
    (w = 1 ∧ t = s.resetCore) ∨ (w ≠ 1 ∧ s.error.err = true ∧ t = s) ∨
    (w ≠ 1 ∧ s.error.err = false ∧ s.busy = true ∧ t = s.abortBusy w) ∨
    (w ≠ 1 ∧ s.error.err = false ∧ s.busy = false ∧ (∃ e, decode w = .error e) ∧ t = s.raiseWith w .illegalCmd 0) ∨
    (w ≠ 1 ∧ s.error.err = false ∧ s.busy = false ∧ (∃ i, decode w = .ok i) ∧
      t = { s with exec := some ⟨w, s.args, false⟩ }) := by
  unfold accept at h
  by_cases h1 : w = 1
  · have h1' : w = 0x00000001#32 := h1
    rw [if_pos h1'] at h
    simp only [exec, execSreset, Host.Outcome.next.injEq] at h
    exact .inl ⟨h1, h.symm⟩
  · have h1' : ¬ w = 0x00000001#32 := h1
    simp only [h1', if_false] at h
    cases he : s.error.err with
    | true =>
      simp only [he, if_true, Host.Outcome.next.injEq] at h
      exact .inr (.inl ⟨h1, rfl, h.symm⟩)
    | false =>
      simp only [he, Bool.false_eq_true, if_false] at h
      cases hb : s.busy with
      | true =>
        simp only [hb, if_true, Host.Outcome.next.injEq] at h
        exact .inr (.inr (.inl ⟨h1, rfl, rfl, h.symm⟩))
      | false =>
        simp only [hb, Bool.false_eq_true, if_false] at h
        cases hd : decode w with
        | error e =>
          simp only [hd, Host.Outcome.next.injEq] at h
          exact .inr (.inr (.inr (.inl ⟨h1, rfl, rfl, ⟨e, rfl⟩, h.symm⟩)))
        | ok i =>
          simp only [hd, Host.Outcome.next.injEq] at h
          exact .inr (.inr (.inr (.inr ⟨h1, rfl, rfl, ⟨i, rfl⟩, h.symm⟩)))

/-- A host read changes at most the FIFO and the counter of draws. -/
theorem State.hostRead_frame (s : State) (off : Fin 128) (width : Width) :
    ∃ fifo draws, (s.hostRead off width).2 = { s with fifo := fifo, env := { s.env with draws := draws } } := by
  unfold State.hostRead
  split
  · next r _ =>
    unfold State.readReg
    split
    · exact ⟨s.fifo.tail, s.env.draws, rfl⟩
    · split
      · exact ⟨s.fifo, s.env.draws + 1, rfl⟩
      · exact ⟨s.fifo, s.env.draws, rfl⟩
    · split
      · exact ⟨s.fifo, s.env.draws + 1, rfl⟩
      · exact ⟨s.fifo, s.env.draws, rfl⟩
  · exact ⟨s.fifo, s.env.draws, rfl⟩

@[simp] theorem State.resetting_idle (s : State) : State.resetting { s with exec := none } = false := rfl

@[simp] theorem State.resetting_resetCore (s : State) : s.resetCore.resetting = true := rfl

/-- Until a reset completes a read of STATUS is exact and draws nothing (70_reset_and_hazards.md R105). -/
theorem State.hostRead_status_resetting {s : State} (h : s.resetting = true) (he : s.error.err = false) :
    s.hostRead Reg.status.offset .word = (s.statusWord, s) := by
  have : s.readReg .status = (s.statusWord, s) := by simp [State.readReg, State.statusDrawn, h, he]
  exact this

/-- What a host write can do: nothing, one operand register, or the acceptance logic. -/
theorem hostWrite_cases {off : Fin 128} {width : Width} {v : Word} {s t : State}
    (h : hostWrite off width v s = .next t) :
    t = s ∨ (∃ a, t = { s with args := a }) ∨ (accessedReg off width = some .cmd ∧ accept v s = .next t) := by
  unfold hostWrite at h
  split at h
  · next r hr =>
    cases r <;> simp only [writeReg, Host.Outcome.next.injEq] at h <;>
      first
        | exact .inl h.symm
        | exact .inr (.inl ⟨_, h.symm⟩)
        | exact .inr (.inr ⟨hr, h⟩)
  · exact .inl (by simpa using h.symm)

end Sys2Proof.Machine
end

