-- ==== Sys2Proof/Tests/Slice0.lean ====
section
/-! SUPPORT. The model's own tests, each about one step on a small state with its expected result from the spec's test
vectors (95_test_vectors.md, named at each) or worked out by hand from the rule named; and for every statement with
hypotheses a concrete state that meets them. -/

namespace Sys2Proof.Tests

open Sys2Proof.Machine

/-! ## Small states -/

/-- The reset slots with the first ones replaced. -/
def slots (l : List Slot) : Vector Slot 256 :=
  l.zipIdx.foldl (fun v p => v.setIfInBounds p.2 p.1) State.reset.table.slots

/-- The reset nodes with the first ones replaced. -/
def nodes (l : List Node) : Vector Node 1024 :=
  l.zipIdx.foldl (fun v p => v.setIfInBounds p.2 p.1) State.reset.tree.nodes

/-- An idle block whose symbol table holds these slots. -/
def tabled (l : List Slot) (total : Word) : State :=
  { State.idle with table := ⟨slots l, Fin.ofNat 257 l.length, total⟩ }

/-- The same with these tree nodes, and the root at node 0. -/
def treed (s : State) (l : List Node) : State := { s with tree := ⟨nodes l, Fin.ofNat 1025 l.length, .node 0⟩ }

/-- Command `i` latched with these operands. -/
def latch (s : State) (i : Instr) (a0 a1 a2 : Word) : State := { s with exec := some ⟨encode i, ⟨a0, a1, a2⟩, false⟩ }

/-- What a step's result satisfies. -/
def after (r : Result) (p : State → Bool) : Bool :=
  match r with
  | .next t => p t
  | .fault _ => false
  | .refused _ => false

/-- The counts of "abracadabra" (X1). -/
def abra : State := tabled [⟨0x61, 5, 0, 0⟩, ⟨0x62, 2, 0, 0⟩, ⟨0x72, 2, 0, 0⟩, ⟨0x63, 1, 0, 0⟩, ⟨0x64, 1, 0, 0⟩] 11

/-- The code table a:(0,1), b:(2,2), c:(3,2) (X5). -/
def abc : State := tabled [⟨0x61, 0, 0, 1⟩, ⟨0x62, 0, 2, 2⟩, ⟨0x63, 0, 3, 2⟩] 0

/-- That table and its tree, table A1 of the vectors, with a decode session open at the root. -/
def abcDecoding : State :=
  { treed abc [⟨.leaf 0, .node 1⟩, ⟨.leaf 1, .leaf 2⟩] with dec := ⟨true, 0, 0⟩ }

/-- Table A0 of the vectors: a:(0,1) alone, with a decode session open. -/
def oneDecoding : State := { treed (tabled [⟨0x61, 0, 0, 1⟩] 0) [⟨.leaf 0, .empty⟩] with dec := ⟨true, 0, 0⟩ }

/-! ## WellFormed refuses each operand that does not fit (R56, R57) -/

theorem test_wellFormed_refuses :
    ¬ WellFormed (.fcRead 65536) ∧ ¬ WellFormed (.trRead 65536) ∧ ¬ WellFormed (.ctRead 65536) ∧
    ¬ WellFormed (.ctLoad 65536) ∧ ¬ WellFormed (.deLast 0 16) := by decide

theorem test_wellFormed_accepts :
    WellFormed (.fcRead 65535) ∧ WellFormed (.trRead 65535) ∧ WellFormed (.ctRead 65535) ∧
    WellFormed (.ctLoad 65535) ∧ WellFormed (.deLast 0xFFFF 15) := by decide

/-! ## Decoding words written out from R55 to R57 (T-ENC-1) -/

theorem test_decode_format_P :
    decode 0x00000000#32 = .ok .nop ∧ decode 0x00000001#32 = .ok .sreset ∧ decode 0x00000010#32 = .ok .fcCount ∧
    decode 0x00000020#32 = .ok .tbBuild ∧ decode 0x00000030#32 = .ok .ctDerive ∧ decode 0x00000033#32 = .ok .trRebuild ∧
    decode 0x00000040#32 = .ok .enStart ∧ decode 0x00000041#32 = .ok .enSym ∧ decode 0x00000042#32 = .ok .enFlush ∧
    decode 0x00000050#32 = .ok .deStart := ⟨rfl, rfl, rfl, rfl, rfl, rfl, rfl, rfl, rfl, rfl⟩

theorem test_decode_formats_I_L :
    decode 0x00030011#32 = .ok (.fcRead 3) ∧ decode 0x00040021#32 = .ok (.trRead 4) ∧
    decode 0x00030031#32 = .ok (.ctRead 3) ∧ decode 0x00400032#32 = .ok (.ctLoad 64) ∧
    decode 0x5DAC0051#32 = .ok (.deUnit 0x5DAC) ∧ decode 0x5C001351#32 = .ok (.deLast 0x5C00 9) ∧
    decode 0xFFFF1F51#32 = .ok (.deLast 0xFFFF 15) ∧ decode 0x00000151#32 = .ok (.deLast 0 0) :=
  ⟨rfl, rfl, rfl, rfl, rfl, rfl, rfl, rfl⟩

theorem test_decode_illegal :
    decode 0x00000101#32 = .error .reservedBitSet ∧ decode 0x00000110#32 = .error .reservedBitSet ∧
    decode 0x80000010#32 = .error .reservedBitSet ∧ decode 0x00000311#32 = .error .reservedBitSet ∧
    decode 0x00002151#32 = .error .reservedBitSet ∧ decode 0x00000043#32 = .error .unassignedOpcode ∧
    decode 0x00000152#32 = .error .unassignedOpcode ∧ decode 0x000000FF#32 = .error .unassignedOpcode :=
  ⟨rfl, rfl, rfl, rfl, rfl, rfl, rfl, rfl⟩

theorem test_encode_words :
    encode (.ctLoad 64) = 0x00400032#32 ∧ encode (.deUnit 0x5DAC) = 0x5DAC0051#32 ∧
    encode (.deLast 0x1600 8) = 0x16001151#32 ∧ encode .enSym = 0x00000041#32 := by decide

theorem test_decode_bytes : decodeBytes [0x51, 0x13, 0x00, 0x5C] = .ok (.deLast 0x5C00 9) ∧
    decodeBytes [0x51] = .error .notOneWord := ⟨rfl, rfl⟩

/-! ## The host interface -/

/-- T-CTL-1: after reset STATUS reads 1, and 0 once the internal NOP is done. -/
theorem test_reset_status : (State.reset.hostRead 0x08 .word).1 = 1 ∧
    after (step State.reset) (fun t => (t.hostRead 0x08 .word).1 == 0) = true := by decide +kernel

/-- R105: it still reads 1 when the host has written ARG0 in between; R108: bits 7:2 are drawn while a NOP the host wrote
is latched (not decided by any value, so only the draw is tested). -/
theorem test_status_until_reset_completes :
    after (hostWrite 0x14 .word 9 State.reset) (fun t => (t.hostRead 0x08 .word).1 == 1) = true ∧
    after (accept 0 State.idle) (fun t => (t.hostRead 0x08 .word).2.env.draws == 1) = true := by decide +kernel

/-- The result of P1, from the replies its last accesses get. -/
theorem test_encoded : HostProgram.encoded
    [⟨0x08, 0x00020000⟩, ⟨0x30, 0xA0005DAC⟩, ⟨0x30, 0xA0005C00⟩, ⟨0x20, 9⟩, ⟨0x24, 2⟩, ⟨0x34, 2⟩, ⟨0x08, 0⟩,
      ⟨0x20, 0x61⟩, ⟨0x24, 0⟩, ⟨0x28, 0⟩, ⟨0x2C, 1⟩, ⟨0x08, 0⟩, ⟨0x20, 0x62⟩, ⟨0x24, 2⟩, ⟨0x28, 0⟩, ⟨0x2C, 2⟩, ⟨0x08, 0⟩] =
    ⟨[0x5DAC, 0x5C00], [(0x61, 0, 1), (0x62, 2, 2)], 9, true⟩ := by decide +kernel

/-- The result of P4's decode half; the UNIT word is no part of the text. -/
theorem test_decoded : HostProgram.decoded
    [⟨0x30, 0xA0000000⟩, ⟨0x30, 0xC0000078⟩, ⟨0x30, 0xC0000078⟩, ⟨0x30, 0xC0000078⟩, ⟨0x30, 0⟩, ⟨0x20, 3⟩, ⟨0x08, 0⟩] =
    ⟨[0x78, 0x78, 0x78], true⟩ := by decide +kernel

/-- T-MEM-6: the byte lanes of ID. -/
theorem test_id_lanes : lanesOf Config.idWord = [0x46, 0x46, 0x55, 0x48] := by decide

/-- T-MEM-2: unsupported accesses. -/
theorem test_unsupported :
    (State.idle.hostRead 0x00 .half).1 = 0 ∧ (State.idle.hostRead 0x02 .word).1 = 0 ∧
    after (hostWrite 0x15 .word 9 State.idle) (fun t => t.args.arg0 == 0) = true ∧
    after (hostWrite 0x10 .byte 0x10 State.idle) (fun t => t.exec == none) = true := by decide +kernel

/-- T-CTL-5: an illegal word, and T-ERR-3 (a): a command before the internal NOP is done. -/
theorem test_acceptance_errors :
    after (accept 0x00000101#32 State.idle) (fun t => t.error == ⟨true, 0x01, 0, 0x00000101#32⟩) = true ∧
    after (accept 0x00000010#32 State.reset) (fun t => t.error == ⟨true, 0x02, 0, 0x10#32⟩ && t.exec == none) = true := by
  decide +kernel

/-- T-MEM-4: sixteen words in the FIFO hold the CORE; a pop makes room. -/
theorem test_fifo_hold :
    (moveStep { State.idle with fifo := List.replicate 16 1, pend := [2] }).pend = [2] ∧
    (moveStep { State.idle with fifo := List.replicate 15 1, pend := [2] }).fifo = List.replicate 15 1 ++ [2] := by
  decide +kernel

/-- R60: a STATUS read of 0x00100001 makes POLL pop sixteen words and poll again. -/
theorem test_poll_tail : pollTail 0x00100001#32 = List.replicate 16 (.rd .outData) ++ [.poll] := by decide +kernel

/-! ## Commands -/

/-- T-CTL-2. -/
theorem test_nop : after (step (State.idle.withFetchWord 32 0x00000000)) (fun t => t.exec == none) = true := by
  decide +kernel

/-- T-CTL-3: SRESET leaves the error state. -/
theorem test_sreset :
    after (step (State.withFetchWord { abra with error := ⟨true, 0x0B, 0x62, 0x41⟩ } 32 0x00000001))
      (fun t => t.error == ⟨false, 0, 0, 0⟩ && t.table.nsym == 0 && t.statusWord == 1) = true := by decide +kernel

/-- T-FC-1, T-FC-3. -/
theorem test_fc_count :
    after (exec .fcCount (latch abra .fcCount 0x62 0 0))
      (fun t => t.table.slots[1].count == 3 && t.table.total == 12 && t.table.nsym == 5) = true ∧
    after (exec .fcCount (latch State.idle .fcCount 0x110000 0 0))
      (fun t => t.error == ⟨true, 0x03, 0x110000, 0x10⟩ && t.table.nsym == 0) = true := by decide +kernel

/-- X1, T-FC-6. -/
theorem test_fc_read :
    after (exec (.fcRead 2) abra) (fun t => t.res == ⟨0x72, 2, 0, 0⟩) = true ∧
    after (exec (.fcRead 5) (latch abra (.fcRead 5) 0 0 0)) (fun t => t.error == ⟨true, 0x06, 5, 0x00050011⟩) = true := by
  decide +kernel

/-- T-TB-1. -/
theorem test_tb_build :
    after (exec .tbBuild abra) (fun t => t.tree.root == .node 3 && t.tree.nnode == 4 &&
      t.tree.nodes.toList.take 4 ==
        [⟨.leaf 4, .leaf 3⟩, ⟨.node 0, .leaf 2⟩, ⟨.leaf 1, .node 1⟩, ⟨.leaf 0, .node 2⟩]) = true := by decide +kernel

/-- T-TB-4, "abcd". -/
theorem test_tb_build_ties :
    after (exec .tbBuild (tabled [⟨0x61, 1, 0, 0⟩, ⟨0x62, 1, 0, 0⟩, ⟨0x63, 1, 0, 0⟩, ⟨0x64, 1, 0, 0⟩] 4))
      (fun t => t.tree.root == .node 2 && t.tree.nodes.toList.take 3 ==
        [⟨.leaf 3, .leaf 2⟩, ⟨.leaf 1, .leaf 0⟩, ⟨.node 1, .node 0⟩]) = true := by decide +kernel

/-- TR_READ #3 of T-TB-1. -/
theorem test_tr_read :
    after (exec (.trRead 3) { abra with tree :=
        ⟨nodes [⟨.leaf 4, .leaf 3⟩, ⟨.node 0, .leaf 2⟩, ⟨.leaf 1, .node 1⟩, ⟨.leaf 0, .node 2⟩], 4, .node 3⟩ })
      (fun t => t.res == ⟨0x40000000, 0x80000002, 0x80000003, 4⟩) = true := by decide +kernel

/-- X3: the codes of the tree `[[a,b],[c,d]]`, and T-CT-4: the single-symbol convention. -/
theorem test_ct_derive :
    after (exec .ctDerive (treed (tabled [⟨0x61, 0, 9, 9⟩, ⟨0x62, 0, 9, 9⟩, ⟨0x63, 0, 9, 9⟩, ⟨0x64, 0, 9, 9⟩] 0)
        [⟨.node 1, .node 2⟩, ⟨.leaf 0, .leaf 1⟩, ⟨.leaf 2, .leaf 3⟩]))
      (fun t => (t.table.slots.toList.take 4).map (fun x => (x.code, x.len)) == [(0, 2), (1, 2), (2, 2), (3, 2)]) = true ∧
    after (exec .ctDerive { tabled [⟨0x78, 3, 0, 0⟩] 3 with tree := ⟨nodes [], 0, .leaf 0⟩ })
      (fun t => t.table.slots[0] == ⟨0x78, 3, 0, 1⟩) = true := by decide +kernel

/-- CT_READ #3 of T-CT-2's row c:(13,4), and T-CT-5's all-ones pattern. -/
theorem test_ct_read :
    after (exec (.ctRead 0) (tabled [⟨0x63, 1, 0xD, 4⟩] 1)) (fun t => t.res == ⟨0x63, 0xD, 0, 4⟩) = true ∧
    after (exec (.ctRead 0) (tabled [⟨0x61, 0, 0xFFFFFFFFFFFFFFFF, 64⟩] 0))
      (fun t => t.res == ⟨0x61, 0xFFFFFFFF, 0xFFFFFFFF, 0x40⟩) = true := by decide +kernel

/-- T-CT-5, T-CT-8. -/
theorem test_ct_load :
    after (exec (.ctLoad 1) (latch State.idle (.ctLoad 1) 0x61 0xFF 0))
      (fun t => t.table.slots[0] == ⟨0x61, 0, 1, 1⟩ && t.table.nsym == 1) = true ∧
    after (exec (.ctLoad 0) (latch State.idle (.ctLoad 0) 0x110000 0 0))
      (fun t => t.error == ⟨true, 0x03, 0x110000, 0x00000032⟩) = true := by decide +kernel

/-- T-CT-13, and the third row of T-CT-10. -/
theorem test_tr_rebuild :
    after (exec .trRebuild abc) (fun t => t.tree.root == .node 0 && t.tree.nnode == 2 &&
      t.tree.nodes.toList.take 2 == [⟨.leaf 0, .node 1⟩, ⟨.leaf 1, .leaf 2⟩]) = true ∧
    after (exec .trRebuild (latch (tabled [⟨0x61, 0, 0, 2⟩, ⟨0x62, 0, 0, 1⟩] 0) .trRebuild 0 0 0))
      (fun t => t.error == ⟨true, 0x09, 1, 0x00000033⟩) = true := by decide +kernel

/-- R79's restart. -/
theorem test_en_start :
    after (exec .enStart { abc with enc := ⟨true, 5, 3, 7⟩ }) (fun t => t.enc == ⟨true, 0, 0, 0⟩ && t.pend == []) = true := by
  decide +kernel

/-- T-EN-3: 15 held bits and a 64-bit code; R80's example. -/
theorem test_en_sym :
    after (exec .enSym (latch { tabled [⟨0x79, 0, 0xFFFFFFFFFFFFFFFF, 64⟩] 0 with enc := ⟨true, 0x7FFF, 15, 0⟩ }
        .enSym 0x79 0 0))
      (fun t => t.enc == ⟨true, 0x7FFF, 15, 4⟩ && t.pend == List.replicate 4 0xA000FFFF#32) = true ∧
    after (exec .enSym (latch { abc with enc := ⟨true, 0, 3, 0⟩ } .enSym 0x62 0 0))
      (fun t => t.enc == ⟨true, 2, 5, 0⟩ && t.pend == []) = true := by decide +kernel

/-- X5: the eight held bits of "aaabca". -/
theorem test_en_flush :
    after (exec .enFlush { abc with enc := ⟨true, 0b00010110, 8, 0⟩ })
      (fun t => t.pend == [0xA0001600#32] && t.res == ⟨8, 1, 0, 0⟩ && t.enc == ⟨false, 0, 0, 1⟩) = true ∧
    after (exec .enFlush (latch abc .enFlush 0 0 0)) (fun t => t.error == ⟨true, 0x0F, 0, 0x42⟩) = true := by
  decide +kernel

/-- R83's example, and T-DE-6 with a bare leaf. -/
theorem test_de_start :
    after (exec .deStart { abcDecoding with dec := ⟨false, 1, 4⟩ }) (fun t => t.dec == ⟨true, 0, 0⟩) = true ∧
    after (exec .deStart (latch { State.idle with tree := ⟨nodes [], 0, .leaf 0⟩ } .deStart 0 0 0))
      (fun t => t.error == ⟨true, 0x0E, 1, 0x50⟩) = true := by decide +kernel

/-- The bits 00010110 10000000 on table A1: a, a, a, b, c, a, b and then six a's, by hand from R84. -/
theorem test_de_unit :
    after (exec (.deUnit 0x1680) abcDecoding)
      (fun t => t.pend == [0xC0000061, 0xC0000061, 0xC0000061, 0xC0000062, 0xC0000063, 0xC0000061, 0xC0000062] ++
        List.replicate 6 0xC0000061#32 && t.dec == ⟨true, 0, 13⟩) = true := by decide +kernel

/-- T-DE-1, and the second row of T-DE-8. -/
theorem test_de_last :
    after (exec (.deLast 0x1600 8) abcDecoding)
      (fun t => t.pend == [0xC0000061, 0xC0000061, 0xC0000061, 0xC0000062, 0xC0000063, 0xC0000061] &&
        t.res == ⟨6, 0, 0, 0⟩ && t.dec.act == false) = true ∧
    after (exec (.deLast 0x2000 13) (latch oneDecoding (.deLast 0x2000 13) 0 0 0))
      (fun t => t.pend == [0xC0000061, 0xC0000061] && t.error == ⟨true, 0x0C, 0xD, 0x20001B51⟩) = true := by
  decide +kernel

/-! ## Witnesses: a concrete state and operands that meet the hypotheses of each statement -/

theorem after_next {r : Result} {p : State → Bool} (h : after r p = true) : ∃ t, r = .next t ∧ p t = true := by
  cases r with
  | next t => exact ⟨t, rfl, h⟩
  | fault f => cases h
  | refused f => cases h

/-- A table of one slot a:(0,1). -/
def one : State := tabled [⟨0x61, 0, 0, 1⟩] 0

/-- The two slots of the text "ab" (T-TB-4). -/
def ab : State := tabled [⟨0x61, 1, 0, 0⟩, ⟨0x62, 1, 0, 0⟩] 2

/-- A full table whose slots all hold symbol 0. -/
def full : State := { State.idle with table := ⟨Vector.replicate 256 Slot.reset, 256, 0⟩ }

/-- A state with an error recorded. -/
def failed : State := { State.idle with error := ⟨true, 0x0B, 0x62, 0x41⟩ }

theorem witness_DecodeOfEncode : WellFormed (.deLast 0xFFFF 15) ∧ WellFormed (.fcRead 65535) := by decide

theorem witness_EncodeOfDecode : decode 0x5C001351#32 = .ok (.deLast 0x5C00 9) := rfl

theorem witness_EachWordSelectsOneRow :
    (⟨.DE_LAST, 0x151, 0xE1FF⟩ : Row) ∈ opcodeMap ∧ (⟨.DE_LAST, 0x151, 0xE1FF⟩ : Row).selects 0xFFFF1F51#32 := by decide

theorem witness_UnmatchedWordsAreIllegal :
    (∀ r ∈ opcodeMap, ¬ r.selects 0x80000010#32) ∧ State.idle.error.err = false ∧ State.idle.busy = false ∧
    (∃ r ∈ opcodeMap, r.selects 0x00000151#32) ∧
    (∀ n ∈ ([0x02, 0x0F, 0x12, 0x1F, 0x22, 0x2F, 0x34, 0x3F, 0x43, 0x4F, 0x52, 0xFF] : List Nat),
      (opcOf (BitVec.ofNat 32 n)).toNat = n) ∧
    opcOf 0x00000101#32 = 0x01 ∧ 0x00000101#32 ≠ 0x00000001#32 := by decide +kernel

theorem witness_StepPerformsLatchedCommand :
    State.reset.nextTurn = (.execute, State.reset) ∧ State.reset.exec = some internalNop ∧
    State.reset.error.err = false ∧ decode internalNop.word = .ok .nop ∧ exec .nop State.reset = .next State.reset ∧
    (State.nextTurn { failed with exec := some internalNop }).1 = .execute ∧ failed.error.err = true ∧
    (State.nextTurn { State.idle with env := ⟨[], [.execute], [], 0⟩ }).1 = .execute :=
  ⟨rfl, rfl, rfl, rfl, rfl, rfl, rfl, rfl⟩

theorem witness_AcceptanceOrder :
    failed.error.err = true ∧ (0x00000010#32 : Word) ≠ 0x00000001#32 ∧
    State.reset.error.err = false ∧ State.reset.busy = true ∧ State.idle.busy = false ∧ State.idle.error.err = false ∧
    decode 0x00000110#32 = .error .reservedBitSet ∧ decode 0x00000010#32 = .ok .fcCount :=
  ⟨rfl, by decide, rfl, rfl, rfl, rfl, rfl, rfl⟩

theorem witness_ArgumentsAreLatched :
    (Instr.fcCount ≠ .sreset ∧ State.idle.error.err = false ∧ State.idle.busy = false ∧
      decode 0x00000010#32 = .ok .fcCount) ∧
    ∃ t, (latch abra .fcCount 0x62 0 0).exec = some ⟨encode .fcCount, ⟨0x62, 0, 0⟩, false⟩ ∧
      exec .fcCount (latch abra .fcCount 0x62 0 0) = .next t := by
  obtain ⟨t, ht, _⟩ := after_next (r := exec .fcCount (latch abra .fcCount 0x62 0 0)) (p := fun _ => true)
    (by decide +kernel)
  exact ⟨⟨by decide, rfl, rfl, rfl⟩, t, rfl, ht⟩

theorem witness_BusyCommandKeepsPrefix :
    (State.busy { State.idle with pend := [1] } = true ∧ State.idle.exec = none) ∧
    ∃ u, (latch abcDecoding (.deUnit 0x1680) 0 0 0).busy = true ∧
      decode (encode (.deUnit 0x1680)) = .ok (.deUnit 0x1680) ∧
      exec (.deUnit 0x1680) (latch abcDecoding (.deUnit 0x1680) 0 0 0) = .next u ∧ u.pend.length = 13 := by
  obtain ⟨u, hu, hp⟩ := after_next (r := exec (.deUnit 0x1680) (latch abcDecoding (.deUnit 0x1680) 0 0 0))
    (p := fun t => t.pend.length == 13) (by decide +kernel)
  exact ⟨⟨rfl, rfl⟩, u, rfl, rfl, hu, by simpa using hp⟩

theorem witness_FetchedWordRuns : decode 0x00000033#32 = .ok .trRebuild ∧ decode 0x00000001#32 = .ok .sreset := ⟨rfl, rfl⟩

theorem witness_MoveStepMovesHead :
    (List.replicate 15 (1 : Word)).length < 16 ∧ 16 ≤ (List.replicate 16 (1 : Word)).length ∧
    State.idle.pend = [] := by decide

theorem witness_CommandsOnlyAppendWords :
    (∃ t, exec .enSym (latch { one with enc := ⟨true, 0, 15, 0⟩ } .enSym 0x61 0 0) = .next t ∧ t.pend.length = 1) ∧
    EncoderInv ⟨true, 0, 15, 0⟩ := by
  obtain ⟨t, ht, hp⟩ := after_next (r := exec .enSym (latch { one with enc := ⟨true, 0, 15, 0⟩ } .enSym 0x61 0 0))
    (p := fun t => t.pend.length == 1) (by decide +kernel)
  exact ⟨⟨t, ht, by simpa using hp⟩, by decide, by decide⟩

theorem witness_RegisterReads : State.idle.busy = false ∧ State.idle.error.err = false := ⟨rfl, rfl⟩

theorem witness_OutDataPops :
    (List.replicate 16 (1 : Word)).length ≤ 16 ∧ State.idle.fifo = [] ∧
    State.fifo { State.idle with fifo := [1, 2] } = 1 :: [2] := ⟨by decide, rfl, rfl⟩

theorem witness_UnsupportedAccessesDoNothing : Width.double ≠ .word ∧ (127 : Fin 128).val % 4 ≠ 0 := by decide

theorem witness_ReservedOffsetsDoNothing :
    0x4C ≤ (0x4C : Fin 128).val ∧ (0x7C : Fin 128).val ≤ 0x7C ∧ 0x4C ≤ (0x7C : Fin 128).val := by decide

theorem witness_HostWrites : (0x48 : Fin 128) ∈ ([0x00, 0x04, 0x44, 0x48] : List (Fin 128)) := by decide

theorem witness_ByteLanesLittleEndian : (3 : Nat) < 4 ∧ (7 : Nat) < 8 := by decide

theorem witness_WindowAddresses : Config.huffBase + 128 ≤ Config.huffBase + 128 := Nat.le_refl _

theorem witness_NopChangesNothing : State.idle.busy = false ∧ State.idle.error.err = false := ⟨rfl, rfl⟩

theorem witness_RaiseRecordsFirstError :
    State.reset.exec = some internalNop ∧ State.reset.error.err = false ∧ failed.error.err = true := ⟨rfl, rfl, rfl⟩

theorem full_slots (i : Fin 256) : full.table.slots[i].sym = 0 := by simp [full, Slot.reset]

theorem witness_FirstErrorIsKept : failed.error.err = true ∧ ∃ t, step failed = .next t := ⟨rfl, failed, rfl⟩

theorem witness_FcCountCounts :
    (0x10FFFF#32 < (latch State.idle .fcCount 0x110000 0 0).latched.args.arg0) ∧
    ((latch State.idle .fcCount 0x10FFFF 0 0).latched.args.arg0 ≤ 0x10FFFF#32) ∧
    (tabled [⟨0x61, 0xFFFFFFFF, 0, 0⟩] 0xFFFFFFFF).table.total = 0xFFFFFFFF#32 ∧
    (full.table.nsym.val = 256 ∧ full.table.total ≠ 0xFFFFFFFF#32 ∧
      ∀ i : Fin 256, i.val < full.table.nsym.val → full.table.slots[i].sym.setWidth 32 ≠ (5 : Word)) ∧
    (0x65 : Word) ≤ 0x10FFFF#32 ∧ abra.table.total ≠ 0xFFFFFFFF#32 ∧
    ((1 : Fin 256).val < abra.table.nsym.val ∧ abra.table.slots[1].sym.setWidth 32 = (0x62 : Word) ∧
      ∀ j : Fin 256, j.val < abra.table.nsym.val → abra.table.slots[j].sym.setWidth 32 = (0x62 : Word) → j = 1) ∧
    ((5 : Fin 256).val = abra.table.nsym.val ∧
      ∀ j : Fin 256, j.val < abra.table.nsym.val → abra.table.slots[j].sym.setWidth 32 ≠ (0x65 : Word)) := by
  refine ⟨by decide +kernel, by decide +kernel, by decide +kernel, ⟨rfl, by decide +kernel, fun i _ => ?_⟩,
    by decide +kernel⟩
  rw [full_slots]
  decide

theorem witness_CountsOfText : ∃ t, issueAll ([0x61, 0x62, 0x61].map (withSymbol .fcCount)) State.idle = .next t ∧
    t.error.err = false := by
  obtain ⟨t, ht, hp⟩ := after_next (r := issueAll ([0x61, 0x62, 0x61].map (withSymbol .fcCount)) State.idle)
    (p := fun t => t.error.err == false) (by decide +kernel)
  exact ⟨t, ht, by simpa using hp⟩

theorem witness_FcReadReports : (4 : Fin 256).val < abra.table.nsym.val ∧ abra.table.nsym.val ≤ 5 := by decide +kernel

theorem witness_StableSort :
    ([⟨.leaf 0, 5⟩, ⟨.leaf 1, 2⟩, ⟨.leaf 2, 2⟩] : List Weighted).Pairwise (fun a b => b.weight ≤ a.weight) ∧
    ∃ T', State.reset.tree.alloc ⟨.leaf 2, .leaf 1⟩ = some (0, T') := ⟨by decide, _, rfl⟩

theorem witness_TbBuildOfAtMostOneSlot : State.idle.table.nsym.val = 0 ∧ one.table.nsym.val = 1 := ⟨rfl, rfl⟩

theorem witness_TbBuildTree : 2 ≤ ab.table.nsym.val ∧ 2 ≤ full.table.nsym.val := by decide +kernel

theorem witness_TrReadReports :
    (1 : Fin 1024).val < abcDecoding.tree.nnode.val ∧ abcDecoding.tree.nnode.val ≤ 2 := by decide +kernel

theorem oneDecoding_node (k : Fin 1024) (h : k.val < oneDecoding.tree.nnode.val) :
    oneDecoding.tree.nodes[k] = ⟨.leaf 0, .empty⟩ := by
  have hn : oneDecoding.tree.nnode.val = 1 := rfl
  obtain rfl : k = 0 := Fin.ext (by rw [hn] at h; simpa using h)
  decide +kernel

theorem oneDecoding_root : oneDecoding.tree.root = .node 0 := rfl

theorem oneDecoding_path {p : List Bool} {i : Fin 256} (h : oneDecoding.tree.LeafPath p i) : p = [false] ∧ i = 0 := by
  unfold Tree.LeafPath at h
  rw [oneDecoding_root] at h
  cases p with
  | nil => simp at h
  | cons b bs =>
    rw [Tree.follow_node, oneDecoding_node 0 (by decide +kernel)] at h
    cases b <;> cases bs <;> simp [Node.child] at h
    exact ⟨rfl, h.symm⟩

theorem oneDecoding_treeInv : TreeInv oneDecoding.tree oneDecoding.table.nsym.val where
  root := by show (0 : Fin 1024).val < oneDecoding.tree.nnode.val; decide +kernel
  child k b h := by
    rw [oneDecoding_node k h]
    cases b <;> simp [Node.child, RefOk]
    decide +kernel
  ordered := .inl fun k m b h hc => by
    rw [oneDecoding_node k h] at hc
    cases b <;> simp [Node.child] at hc

theorem witness_CtDeriveGivesPaths : TreeInv oneDecoding.tree oneDecoding.table.nsym.val ∧
    (∀ p i, oneDecoding.tree.LeafPath p i → p.length ≤ 64) ∧ oneDecoding.tree.LeafPath [false] 0 :=
  ⟨oneDecoding_treeInv, fun p i h => by rw [(oneDecoding_path h).1]; decide,
    by decide +kernel⟩

/-- A chain of 65 nodes, each with the next as its left child; the leaf of slot 0 hangs 65 deep. -/
def deep : State := { one with tree :=
  ⟨Vector.ofFn fun k : Fin 1024 => if k.val < 64 then ⟨.node (k + 1), .empty⟩ else ⟨.leaf 0, .empty⟩, 65, .node 0⟩ }

theorem deep_node (k : Fin 1024) :
    deep.tree.nodes[k] = if k.val < 64 then ⟨.node (k + 1), .empty⟩ else ⟨.leaf 0, .empty⟩ := by
  simp [deep]

theorem deep_path (n : Nat) : ∀ (k : Fin 1024) (q : List Bool) (j : Fin 256), k.val + n = 64 →
    (deep.tree.follow (.node k) q = some (.leaf j) ↔ q = List.replicate (n + 1) false ∧ j = 0) := by
  induction n with
  | zero =>
    intro k q j hk
    cases q with
    | nil => simp
    | cons b bs =>
      rw [Tree.follow_node, deep_node, if_neg (by omega)]
      cases b <;> cases bs <;> simp [Node.child, eq_comm]
  | succ n ih =>
    intro k q j hk
    cases q with
    | nil => simp
    | cons b bs =>
      rw [Tree.follow_node, deep_node, if_pos (by omega)]
      cases b with
      | false =>
        have hk' : (k + 1 : Fin 1024).val = k.val + 1 := by
          rw [Fin.val_add_one_of_lt' (by omega)]
        simpa [Node.child, List.replicate_succ] using ih (k + 1) bs j (by omega)
      | true => cases bs <;> simp [Node.child, List.replicate_succ]

theorem deep_treeInv : TreeInv deep.tree deep.table.nsym.val where
  root := by show (0 : Fin 1024).val < deep.tree.nnode.val; decide +kernel
  child k b h := by
    have hn : deep.tree.nnode.val = 65 := rfl
    have hs : deep.table.nsym.val = 1 := rfl
    rw [deep_node]
    split
    · next hk =>
      have hk' : (k + 1 : Fin 1024).val = k.val + 1 := by rw [Fin.val_add_one_of_lt' (by omega)]
      cases b <;> simp [Node.child, RefOk, hn]
      omega
    · cases b <;> simp [Node.child, RefOk, hs]
  ordered := .inr fun k m b h hc => by
    have hn : deep.tree.nnode.val = 65 := rfl
    rw [deep_node] at hc
    split at hc
    · next hk =>
      have hk' : (k + 1 : Fin 1024).val = k.val + 1 := by rw [Fin.val_add_one_of_lt' (by omega)]
      cases b <;> simp [Node.child] at hc
      rw [← hc]
      exact Fin.lt_def.2 (by omega)
    · cases b <;> simp [Node.child] at hc

theorem witness_CtDeriveRaisesTooLong :
    TreeInv deep.tree deep.table.nsym.val ∧ deep.tree.LeafPath (List.replicate 65 false) 0 ∧
    64 < (List.replicate 65 false).length ∧
    (∀ q j, deep.tree.LeafPath q j → 64 < q.length →
      q = List.replicate 65 false ∨ List.Lex (fun a b => a = false ∧ b = true) (List.replicate 65 false) q) :=
  ⟨deep_treeInv, (deep_path 64 0 _ _ rfl).2 ⟨rfl, rfl⟩, by decide, fun q j h _ => .inl ((deep_path 64 0 q j rfl).1 h).1⟩

/-- Used by the two statements about TB_BUILD followed by CT_DERIVE. -/
theorem ab_built : ∃ t u, exec .tbBuild ab = .next t ∧ exec .ctDerive t = .next u ∧ u.error.err = false := by
  obtain ⟨u, hu, hp⟩ := after_next (p := fun u => u.error.err == false)
    (r := exec .ctDerive { ab with tree := ab.tree.build ab.table, dec := { ab.dec with act := false } })
    (by decide +kernel)
  exact ⟨_, u, rfl, hu, by simpa using hp⟩

theorem witness_BuiltCodesArePrefixFreeAndComplete :
    (2 ≤ ab.table.nsym.val ∧ ∃ t u, exec .tbBuild ab = .next t ∧ exec .ctDerive t = .next u ∧ u.error.err = false) ∧
    one.table.nsym.val = 1 ∧ ∃ t u, exec .tbBuild one = .next t ∧ exec .ctDerive t = .next u := by
  obtain ⟨u, hu, _⟩ := after_next (p := fun _ => true)
    (r := exec .ctDerive { one with tree := one.tree.build one.table, dec := { one.dec with act := false } })
    (by decide +kernel)
  exact ⟨⟨by decide +kernel, ab_built⟩, rfl, _, u, rfl, hu⟩

theorem witness_RebuildUndoesDerive : 2 ≤ ab.table.nsym.val ∧
    ∃ t u, exec .tbBuild ab = .next t ∧ exec .ctDerive t = .next u ∧ u.error.err = false := ⟨by decide +kernel, ab_built⟩

theorem witness_CtReadReports : (2 : Fin 256).val < abc.table.nsym.val ∧ abc.table.nsym.val ≤ 3 := by decide +kernel

theorem witness_CtLoadWrites :
    (0x10FFFF#32 < (latch State.idle (.ctLoad 1) 0x110000 0 0).latched.args.arg0 ∧ (0 : Nat) < 1 ∧ 64 < 65 ∧
      (latch State.idle (.ctLoad 0) 0x10FFFF 0 0).latched.args.arg0 ≤ 0x10FFFF#32) ∧
    (0x62 : Word) ≤ 0x10FFFF#32 ∧ 1 ≤ (64 : Fin 65).val ∧
    ((1 : Fin 256).val < abc.table.nsym.val ∧ abc.table.slots[1].sym.setWidth 32 = (0x62 : Word) ∧
      ∀ j : Fin 256, j.val < abc.table.nsym.val → abc.table.slots[j].sym.setWidth 32 = (0x62 : Word) → j = 1) ∧
    ((3 : Fin 256).val = abc.table.nsym.val ∧
      ∀ j : Fin 256, j.val < abc.table.nsym.val → abc.table.slots[j].sym.setWidth 32 ≠ (0x64 : Word)) := by
  decide +kernel

theorem one_coded {i : Fin 256} (h : one.table.Coded i) : i = 0 := by
  have hn : one.table.nsym.val = 1 := rfl
  exact Fin.ext (by have := h.1; rw [hn] at this; simpa using this)

theorem one_prefixFree : one.table.PrefixFree := fun i j hi hj _ => by rw [one_coded hi, one_coded hj]

theorem witness_TrRebuildPlacesEveryCode : one.table.PrefixFree ∧
    1 + (one.table.valid.map one.table.newNodes).sum ≤ 1024 := ⟨one_prefixFree, by decide +kernel⟩

/-- Eighteen codes of 64 bits that differ in their first five. -/
def bushy : State := { State.idle with table :=
  ⟨Vector.ofFn fun k : Fin 256 => ⟨BitVec.ofNat 21 k.val, 0, BitVec.ofNat 64 (k.val * 2 ^ 59), 64⟩, 18, 0⟩ }

theorem bushy_bits (i : Fin 256) : bushy.table.slots[i].bits = msbFirst (BitVec.ofNat 64 (i.val * 2 ^ 59)) 64 := by
  simp [bushy, Slot.bits]

theorem bushy_apart : ∀ i j : Fin 18, (msbFirst (BitVec.ofNat 64 (i.val * 2 ^ 59)) 64).take 5 =
    (msbFirst (BitVec.ofNat 64 (j.val * 2 ^ 59)) 64).take 5 → i = j := by decide +kernel

/-- Two of the codes that agree in five or more bits are one. -/
theorem bushy_same {i j : Fin 256} {n : Nat} (hi : i.val < 18) (hj : j.val < 18) (hn : 5 ≤ n)
    (h : bushy.table.slots[i].bits.take n <+: bushy.table.slots[j].bits) : i = j := by
  rw [bushy_bits, bushy_bits] at h
  obtain ⟨t, ht⟩ := h
  have h5 := congrArg (List.take 5) ht
  rw [List.take_append_of_le_length (by simp [msbFirst]; omega), List.take_take, Nat.min_eq_left hn] at h5
  have h18 := bushy_apart ⟨i.val, hi⟩ ⟨j.val, hj⟩ h5
  exact Fin.ext (Fin.mk.inj h18)

theorem bushy_prefixFree : bushy.table.PrefixFree := fun i j hi hj h =>
  bushy_same (n := 64) hi.1 hj.1 (by decide) (List.IsPrefix.trans (List.take_prefix _ _) h)

theorem bushy_valid {i : Fin 256} (h : i ∈ bushy.table.valid) : i.val < 18 := by
  obtain ⟨k, hk, rfl⟩ := List.mem_take_iff_getElem.1 h
  have hn : bushy.table.nsym.val = 18 := rfl
  simp [hn] at hk ⊢
  omega

theorem bushy_newNodes {i : Fin 256} (h : i ∈ bushy.table.valid) : 59 ≤ bushy.table.newNodes i := by
  have hl : bushy.table.slots[i].len.val = 64 := by simp [bushy]
  unfold SymTable.newNodes
  rw [hl, ← List.countP_eq_length_filter]
  refine Nat.le_trans (m := (List.range 64).countP fun n => decide (5 ≤ n)) (by decide)
    (List.countP_mono_left fun n _ hp => ?_)
  have hn : 5 ≤ n := of_decide_eq_true hp
  exact decide_eq_true ⟨by omega, fun j hj hji hpre =>
    absurd (bushy_same (bushy_valid h) (bushy_valid hj) hn hpre) (Fin.ne_of_lt hji).symm⟩

theorem witness_TrRebuildRunsOutOfNodes : bushy.table.PrefixFree ∧
    1024 < 1 + (bushy.table.valid.map bushy.table.newNodes).sum := by
  refine ⟨bushy_prefixFree, ?_⟩
  have := List.card_nsmul_le_sum (bushy.table.valid.map bushy.table.newNodes) 59 fun x hx => by
    obtain ⟨i, hi, rfl⟩ := List.mem_map.1 hx
    exact bushy_newNodes hi
  have hlen : bushy.table.valid.length = 18 := by simp [SymTable.valid, bushy]
  rw [List.length_map, hlen, smul_eq_mul] at this
  omega

/-- Two slots with the same code (T-CT-10, first row). -/
def twice : State := tabled [⟨0x61, 0, 0, 1⟩, ⟨0x62, 0, 0, 1⟩] 0

theorem witness_TrRebuildRejectsCollision : ¬ twice.table.PrefixFree ∧
    1 + (twice.table.valid.map fun i => twice.table.slots[i].len.val - 1).sum ≤ 1024 :=
  ⟨fun h => absurd (h 0 1 (by decide +kernel) (by decide +kernel) (by decide +kernel)) (by decide), by decide +kernel⟩

theorem one_tableInv : TableInv one.table where
  distinct i j hi hj _ := by
    have hn : one.table.nsym.val = 1 := rfl
    rw [hn] at hi hj
    exact Fin.ext (by omega)
  legal i hi := by
    have hn : one.table.nsym.val = 1 := rfl
    obtain rfl : i = 0 := Fin.ext (by rw [hn] at hi; simpa using hi)
    decide +kernel
  codeFits i hi := by
    have hn : one.table.nsym.val = 1 := rfl
    obtain rfl : i = 0 := Fin.ext (by rw [hn] at hi; simpa using hi)
    decide +kernel
  countSum := by decide +kernel

theorem witness_DeriveUndoesRebuild : TableInv one.table ∧
    ∃ t, exec .trRebuild one = .next t ∧ t.error.err = false := by
  obtain ⟨t, ht, hp⟩ := after_next (r := exec .trRebuild one) (p := fun t => t.error.err == false) (by decide +kernel)
  exact ⟨one_tableInv, t, ht, by simpa using hp⟩

theorem witness_EnSymSendsCode : State.idle.enc.act = false ∧
    ((latch { abra with enc := ⟨true, 0, 0, 0⟩ } .enSym 0x62 0 0).enc.act = true ∧ (0x62 : Word) ≤ 0x10FFFF#32 ∧
      ∀ i : Fin 256, i.val < abra.table.nsym.val → abra.table.slots[i].sym.setWidth 32 = (0x62 : Word) →
        abra.table.slots[i].len = 0) ∧ TableInv one.table ∧ EncoderInv ⟨true, 0x7FFF, 15, 0⟩ ∧ (0x61 : Word) ≤ 0x10FFFF#32 ∧
    (0 : Fin 256).val < one.table.nsym.val ∧ one.table.slots[0].sym.setWidth 32 = (0x61 : Word) ∧
    one.table.slots[0].len ≠ 0 :=
  ⟨rfl, ⟨rfl, by decide, by decide +kernel⟩, one_tableInv, ⟨by decide, by decide⟩, by decide, by decide +kernel,
    by decide +kernel, by decide +kernel⟩

theorem witness_EnFlushPads :
    State.idle.enc.act = false ∧ (⟨true, 0, 0, 0⟩ : Encoder).held = 0 ∧
    1 ≤ (⟨true, 1, 1, 0⟩ : Encoder).held.toNat ∧ (⟨true, 0x7FFF, 15, 0⟩ : Encoder).held.toNat ≤ 15 := by decide

theorem witness_SessionPayload : TableInv one.table ∧
    ∃ t, issueAll (encodeSession [0x61, 0x61]) one = .next t ∧ t.error.err = false := by
  obtain ⟨t, ht, hp⟩ := after_next (r := issueAll (encodeSession [0x61, 0x61]) one)
    (p := fun t => t.error.err == false) (by decide +kernel)
  exact ⟨one_tableInv, t, ht, by simpa using hp⟩

theorem witness_DeStartOpens :
    abcDecoding.tree.root = .node 0 ∧ State.idle.tree.root = .empty ∧
    (State.tree { State.idle with tree := ⟨nodes [], 0, .leaf 0⟩ }).root = .leaf 0 := ⟨rfl, rfl, rfl⟩

theorem oneDecoding_spells (n : Nat) :
    Spells oneDecoding.tree 0 0 (List.replicate n false) (List.replicate n 0) 0 := by
  induction n with
  | zero => exact .rest 0 0 [] rfl
  | succ n ih => exact .leaf 0 0 [false] _ 0 _ (by decide +kernel) ih

theorem witness_DeUnitDecodes : State.idle.dec.act = false ∧ oneDecoding.dec.act = true ∧
    oneDecoding.tree.root = .node 0 ∧ oneDecoding.dec.cur = 0 ∧
    Spells oneDecoding.tree 0 0 (msbFirst (0x0000 : StorageUnit) 16) (List.replicate 16 0) 0 ∧
    msbFirst (0x2000 : StorageUnit) 16 = List.replicate 2 false ++ true :: List.replicate 13 false ∧
    Spells oneDecoding.tree 0 0 (List.replicate 2 false) (List.replicate 2 0) 0 ∧
    oneDecoding.tree.nodes[(0 : Fin 1024)].child true = .empty := by
  have h : msbFirst (0x0000 : StorageUnit) 16 = List.replicate 16 false := by decide
  exact ⟨rfl, rfl, rfl, rfl, h ▸ oneDecoding_spells 16, by decide, oneDecoding_spells 2, by decide +kernel⟩

theorem witness_DeLastDecodes : State.idle.dec.act = false ∧
    Spells oneDecoding.tree 0 0 ((msbFirst (0x0000 : StorageUnit) 16).take (16 - 15)) [0] 0 ∧
    Spells abcDecoding.tree 0 0 ((msbFirst (0x8000 : StorageUnit) 16).take (16 - 15)) [] 1 ∧
    abcDecoding.dec.act = true ∧ abcDecoding.tree.root = .node 0 ∧ (1 : Fin 1024) ≠ 0 ∧
    (msbFirst (0x2000 : StorageUnit) 16).take (16 - 13) = List.replicate 2 false ++ true :: [] := by
  have h0 : (msbFirst (0x0000 : StorageUnit) 16).take (16 - 15) = List.replicate 1 false := by decide
  have h1 : (msbFirst (0x8000 : StorageUnit) 16).take (16 - 15) = [true] := by decide
  rw [h0, h1]
  exact ⟨rfl, oneDecoding_spells 1, .rest 0 1 [true] (by decide +kernel), rfl, rfl, by decide, by decide⟩

theorem witness_DecodeOfEncodedText :
    ∃ e, issueAll (encodeCommands [0x61, 0x62, 0x61]) State.idle = .next e ∧ e.error.err = false := by
  obtain ⟨e, he, hp⟩ := after_next (r := issueAll (encodeCommands [0x61, 0x62, 0x61]) State.idle)
    (p := fun t => t.error.err == false) (by decide +kernel)
  exact ⟨e, he, by simpa using hp⟩

theorem witness_ReadCommandsFrame : ∃ t, exec (.fcRead 2) abra = .next t := ⟨_, rfl⟩

theorem witness_TableCommandsFrame :
    ∃ t, exec .fcCount (latch abra .fcCount 0x62 0 0) = .next t ∧ (1 : Fin 256).val < abra.table.nsym.val := by
  obtain ⟨t, ht, _⟩ := after_next (r := exec .fcCount (latch abra .fcCount 0x62 0 0)) (p := fun _ => true)
    (by decide +kernel)
  exact ⟨t, ht, by decide +kernel⟩

theorem witness_TreeCommandsFrame : ∃ t, exec .tbBuild abra = .next t := ⟨_, rfl⟩

theorem witness_EncoderCommandsFrame : ∃ t, exec .enStart abc = .next t := ⟨_, rfl⟩

theorem witness_DecoderCommandsFrame :
    ∃ t, exec (.deLast 0x1600 8) abcDecoding = .next t ∧ t.res = ⟨6, 0, 0, 0⟩ := by
  obtain ⟨t, ht, hp⟩ := after_next (r := exec (.deLast 0x1600 8) abcDecoding) (p := fun t => t.res == ⟨6, 0, 0, 0⟩)
    (by decide +kernel)
  exact ⟨t, ht, by simpa using hp⟩

theorem witness_SlotsAreNeverFreed :
    ∃ t, exec (.ctLoad 2) (latch abc (.ctLoad 2) 0x64 1 0) = .next t ∧ t.table.nsym.val = 4 := by
  obtain ⟨t, ht, hp⟩ := after_next (r := exec (.ctLoad 2) (latch abc (.ctLoad 2) 0x64 1 0))
    (p := fun t => t.table.nsym.val == 4) (by decide +kernel)
  exact ⟨t, ht, by simpa using hp⟩

theorem inv_encoder_reset : EncoderInv State.idle.enc := ⟨by decide, by decide⟩

/-- An idle block meets the invariant whatever its host is about to do. -/
theorem inv_idle (e : Env) : Inv { State.idle with env := e } where
  table :=
    { distinct := fun i _ hi _ _ => absurd hi (Nat.not_lt_zero i.val)
      legal := fun i hi => absurd hi (Nat.not_lt_zero i.val)
      codeFits := fun i hi => absurd hi (Nat.not_lt_zero i.val)
      countSum := rfl }
  tree :=
    { root := trivial
      child := fun k _ hk => absurd hk (Nat.not_lt_zero k.val)
      ordered := .inl fun k _ _ hk _ => absurd hk (Nat.not_lt_zero k.val) }
  enc := inv_encoder_reset
  dec := fun h => Bool.noConfusion h
  error := ⟨fun _ => ⟨rfl, rfl, rfl⟩, fun h => Bool.noConfusion h⟩
  queue := ⟨Nat.zero_le _, fun w hw => absurd hw List.not_mem_nil⟩
  exec := fun c h => by cases h
  reset := fun h => Bool.noConfusion h

theorem witness_StepKeepsInvariant : Inv State.idle ∧ ∃ t, step State.idle = .next t :=
  ⟨inv_idle State.reset.env, _, rfl⟩

theorem witness_StepNeverStops : Inv State.idle := inv_idle State.reset.env

theorem witness_PollEnds : Inv { State.idle with env := ⟨[.poll], [], [], 0⟩ } := inv_idle _

end Sys2Proof.Tests
end

section
/-! PROOFS. The statements on the state's reset values and on STATUS (spec 10_state.md R20, R33, R36;
70_reset_and_hazards.md R105), with the laws they need: the fields of STATUS, exact register reads, E_CMD_BUSY. -/

namespace Sys2Proof.Machine

/-! ## The fields of STATUS (10_state.md R20, R33)

The lower fields are peeled off by the library's laws of `++`, with `simp only`: simp's arithmetic would fold the widths
of the parts into 32, and the laws would no longer apply. -/

theorem State.busy_iff (s : State) : s.busy = true ↔ s.exec ≠ none ∨ s.pend ≠ [] := by
  simp [State.busy, Option.isSome_iff_ne_none]

theorem State.busy_of_exec {s : State} {c : Command} (h : s.exec = some c) : s.busy = true := by
  simp [State.busy, h]

theorem State.statusWord_busy (s : State) : s.statusWord.getLsbD 0 = s.busy := by
  simp only [State.statusWord, BitVec.getLsbD_append]
  simp

theorem State.statusWord_err (s : State) : s.statusWord.getLsbD 1 = s.error.err := by
  simp only [State.statusWord, BitVec.getLsbD_append]
  simp

theorem State.statusWord_encAct (s : State) : s.statusWord.getLsbD 2 = s.enc.act := by
  simp only [State.statusWord, BitVec.getLsbD_append]
  simp

theorem State.statusWord_decAct (s : State) : s.statusWord.getLsbD 3 = s.dec.act := by
  simp only [State.statusWord, BitVec.getLsbD_append]
  simp

theorem State.statusWord_held (s : State) : s.statusWord.extractLsb' 4 4 = s.enc.held.extractLsb' 0 4 := by
  simp (disch := decide) only [State.statusWord, BitVec.extractLsb'_append_eq_of_le, BitVec.extractLsb'_append_eq_right,
    Nat.reduceSub]

theorem State.statusWord_code (s : State) : s.statusWord.extractLsb' 8 8 = s.error.code := by
  simp (disch := decide) only [State.statusWord, BitVec.extractLsb'_append_eq_of_le, BitVec.extractLsb'_append_eq_right,
    Nat.reduceSub]

theorem State.statusWord_outCount (s : State) : s.statusWord.extractLsb' 16 5 = s.outCount := by
  simp (disch := decide) only [State.statusWord, BitVec.extractLsb'_append_eq_of_le, BitVec.extractLsb'_append_eq_right,
    Nat.reduceSub]

theorem State.statusWord_reserved (s : State) : s.statusWord.extractLsb' 21 11 = 0 := by
  simp (disch := decide) only [State.statusWord, BitVec.extractLsb'_append_eq_of_le, Nat.reduceSub]
  rfl

/-- Settles O21: each part is the law of its field. -/
theorem statusFields : Obligations.StatusFields := fun s =>
  ⟨by rw [s.statusWord_busy, s.busy_iff], s.statusWord_err, s.statusWord_encAct, s.statusWord_decAct, s.statusWord_held,
    s.statusWord_code, s.statusWord_outCount, s.statusWord_reserved⟩

/-! ## Register reads (20_memory.md R41, R46) -/

/-- A 32-bit access at a register's offset reaches that register (10_state.md R17). -/
@[simp] theorem accessedReg_offset (r : Reg) : accessedReg r.offset .word = some r := by
  cases r <;> rfl

@[simp] theorem State.hostRead_offset (s : State) (r : Reg) : s.hostRead r.offset .word = s.readReg r := by
  simp [State.hostRead]

@[simp] theorem hostWrite_cmd (s : State) (w : Word) : hostWrite Reg.cmd.offset .word w s = accept w s := by
  simp [hostWrite, writeReg]

/-- While BUSY = 0 and ERR = 0 every register but OUT_DATA reads exactly, without effect. -/
theorem State.hostRead_of_readsDrawn_eq_false {s : State} (h : s.readsDrawn = false) {r : Reg} (ho : r ≠ .outData) :
    s.hostRead r.offset .word = (s.regValue r, s) := by
  have hd : s.statusDrawn = false := by
    simp only [State.readsDrawn, Bool.or_eq_false_iff] at h
    simp [State.statusDrawn, h]
  by_cases hs : r = .status
  · subst hs
    simp [State.readReg, hd, State.regValue]
  · simp [State.readReg, h]

/-- A read of OUT_DATA with the FIFO empty returns 0 and pops nothing (20_memory.md R46). -/
theorem State.hostRead_outData_of_empty {s : State} (h : s.fifo = []) :
    s.hostRead Reg.outData.offset .word = (0x00000000#32, s) := by
  cases s
  cases h
  rfl

/-! ## Acceptance while the block is busy (20_memory.md R49; 60_exceptions.md R94) -/

@[simp] theorem State.abortBusy_exec (s : State) (w : Word) : (s.abortBusy w).exec = none := rfl

theorem State.abortBusy_error {s : State} (h : s.error.err = false) (w : Word) :
    (s.abortBusy w).error = ⟨true, 0x02, 0, w⟩ := by
  simp [State.abortBusy, ErrorState.record_of_clear, h, ErrorName.code]

theorem accept_of_busy {w : Word} {s : State} (hw : w ≠ 0x00000001#32) (he : s.error.err = false)
    (hb : s.busy = true) : accept w s = .next (s.abortBusy w) := by
  simp [accept, hw, he, hb]

@[simp] theorem accept_sreset (s : State) : accept 0x00000001#32 s = .next s.resetCore := rfl

/-! ## Until a reset completes, and after (70_reset_and_hazards.md R105) -/

/-- The reset state, its internal NOP still latched, with the operand registers a host has written and any surroundings;
`s.resetCore` with these two fields replaced is this state by definition. -/
def State.resetPending (a : Args) (e : Env) : State := { State.reset with args := a, env := e }

/-- The reset state once the internal NOP has completed, with the operand registers a host has written. -/
def State.resetDone (a : Args) (e : Env) : State := { State.resetPending a e with exec := none }

theorem State.resetPending_busy (a : Args) (e : Env) : (State.resetPending a e).busy = true :=
  State.busy_of_exec (c := internalNop) rfl

theorem State.resetPending_statusWord (a : Args) (e : Env) : (State.resetPending a e).statusWord = 0x00000001#32 :=
  show State.reset.statusWord = 0x00000001#32 by decide

theorem State.resetDone_statusWord (a : Args) (e : Env) : (State.resetDone a e).statusWord = 0x00000000#32 :=
  show State.idle.statusWord = 0x00000000#32 by decide

theorem State.resetPending_reads_status (a : Args) (e : Env) :
    (State.resetPending a e).hostRead 0x08 .word = (0x00000001#32, State.resetPending a e) := by
  rw [← State.resetPending_statusWord a e]
  exact State.hostRead_status_resetting rfl rfl

/-- The execute step performs the internal NOP and empties EXEC. -/
theorem executeStep_resetPending (a : Args) (e : Env) :
    executeStep (State.resetPending a e) = .next (State.resetDone a e) := rfl

theorem State.resetDone_readsDrawn (a : Args) (e : Env) : (State.resetDone a e).readsDrawn = false := rfl

/-- The registers of R105 that read 0 once the reset has completed: all but the operand registers and the constants. -/
theorem State.resetDone_reads_zero (a : Args) (e : Env) {off : Fin 128}
    (h : off ∈ ([0x08, 0x0C, 0x10, 0x20, 0x24, 0x28, 0x2C, 0x30, 0x34, 0x38, 0x3C, 0x44, 0x48] : List (Fin 128))) :
    (State.resetDone a e).hostRead off .word = (0x00000000#32, State.resetDone a e) := by
  have reads_zero (r : Reg) (ho : r ≠ .outData) (hz : (State.resetDone a e).regValue r = 0x00000000#32) :
      (State.resetDone a e).hostRead r.offset .word = (0x00000000#32, State.resetDone a e) := by
    rw [State.hostRead_of_readsDrawn_eq_false (State.resetDone_readsDrawn a e) ho, hz]
  simp only [List.mem_cons, List.not_mem_nil, or_false] at h
  obtain rfl | rfl | rfl | rfl | rfl | rfl | rfl | rfl | rfl | rfl | rfl | rfl | rfl := h
  · exact reads_zero .status nofun (State.resetDone_statusWord a e)
  · exact reads_zero .errInfo nofun rfl
  · exact reads_zero .cmd nofun rfl
  · exact reads_zero .res0 nofun rfl
  · exact reads_zero .res1 nofun rfl
  · exact reads_zero .res2 nofun rfl
  · exact reads_zero .res3 nofun rfl
  · exact State.hostRead_outData_of_empty (s := State.resetDone a e) rfl
  · exact reads_zero .nsym nofun rfl
  · exact reads_zero .nnode nofun rfl
  · exact reads_zero .total nofun rfl
  · exact reads_zero .errCmd nofun rfl
  · exact reads_zero .root nofun rfl

/-- Settles O11: the one state is `s.resetCore`; before its NOP completes it is busy and resetting, and after it nothing a
read returns is drawn. -/
theorem resetValues : Obligations.ResetValues := by
  intro s
  refine ⟨s.resetCore, rfl, by rw [hostWrite_cmd, accept_sreset], rfl, rfl, rfl, rfl, rfl, rfl, fun i => ?_, rfl, rfl,
    fun k => ?_, rfl, rfl, rfl, rfl, ⟨true, rfl⟩, rfl, rfl, rfl, fun a e => ?_⟩
  · simp [State.reset, Slot.reset]
  · simp [State.reset, Node.blank]
  · have reads (r : Reg) (ho : r ≠ .outData) :=
      State.hostRead_of_readsDrawn_eq_false (State.resetDone_readsDrawn a e) ho
    exact ⟨State.resetPending_reads_status a e, ⟨e, rfl⟩,
      fun w hw => ⟨(State.resetPending a e).abortBusy w, accept_of_busy hw rfl (State.resetPending_busy a e),
        State.abortBusy_error rfl w, State.abortBusy_exec _ w⟩,
      executeStep_resetPending a e, reads .arg0 nofun, reads .arg1 nofun, reads .arg2 nofun, reads .id nofun,
      reads .params nofun, reads .params2 nofun, fun _ h => State.resetDone_reads_zero a e h⟩

end Sys2Proof.Machine
end

section
/-! PROOFS. The statements on acceptance and on the host's accesses to the register window (spec 20_memory.md R40, R42 to
R44, R49), with the laws they need: one equation per case of the acceptance logic, register writes, accesses that reach no
register. -/

namespace Sys2Proof.Machine

/-! ## The cases of the acceptance logic (20_memory.md R49)

`accept_sreset` and `accept_of_busy` are the other two. -/

/-- The first error recorded: nothing but the error registers changes (60_exceptions.md R90). -/
theorem State.raiseWith_of_clear {s : State} (h : s.error.err = false) (w : Word) (n : ErrorName) (info : Word) :
    s.raiseWith w n info = { s with error := ⟨true, n.code, info, w⟩ } := by
  rw [State.raiseWith, ErrorState.record_of_clear _ w n info h]

theorem accept_of_error {w : Word} {s : State} (hw : w ≠ 0x00000001#32) (he : s.error.err = true) :
    accept w s = .next s := by
  simp [accept, hw, he]

theorem accept_of_illegal {w : Word} {s : State} {e : Illegal} (hw : w ≠ 0x00000001#32) (he : s.error.err = false)
    (hb : s.busy = false) (hd : decode w = .error e) : accept w s = .next (s.raiseWith w .illegalCmd 0) := by
  simp [accept, hw, he, hb, hd]

theorem accept_of_decode {w : Word} {s : State} {i : Instr} (hw : w ≠ 0x00000001#32) (he : s.error.err = false)
    (hb : s.busy = false) (hd : decode w = .ok i) : accept w s = .next { s with exec := some ⟨w, s.args, false⟩ } := by
  simp [accept, hw, he, hb, hd]

/-- Settles O7: each part is the law of its case. -/
theorem acceptanceOrder : Obligations.AcceptanceOrder := by
  intro w s
  refine ⟨?sreset, accept_of_error, ?busy, ?illegal, ?accepted⟩
  case sreset =>
    rintro rfl
    exact ⟨s.env, accept_sreset s⟩
  case busy =>
    intro hw he hb
    exact ⟨s.abortBusy w, accept_of_busy hw he hb, State.abortBusy_error he w, s.abortBusy_exec w⟩
  case illegal =>
    rintro hw he hb ⟨e, hd⟩
    rw [accept_of_illegal hw he hb hd, State.raiseWith_of_clear he, ErrorName.code]
  case accepted =>
    rintro hw he hb ⟨i, hd⟩
    exact accept_of_decode hw he hb hd

/-! ## Accesses that reach no register (20_memory.md R40, R43) -/

theorem accessedReg_of_not_supported {off : Fin 128} {width : Width} (h : ¬ Supported off width) :
    accessedReg off width = none := if_neg h

/-- The register map gives a register at its own offset only (10_state.md R17). -/
theorem regAt_some {off : Fin 128} {r : Reg} (h : regAt off = some r) : off = r.offset := by
  unfold regAt at h
  split at h <;> cases h <;> exact Fin.ext ‹_›

/-- ROOT is the last register of the window (10_state.md R17). -/
theorem Reg.offset_le (r : Reg) : r.offset.val ≤ 0x48 := by
  cases r <;> decide

theorem regAt_of_reserved {off : Fin 128} (h : 0x4C ≤ off.val) : regAt off = none := by
  cases hr : regAt off with
  | none => rfl
  | some r =>
    have hle := r.offset_le
    rw [← regAt_some hr] at hle
    omega

theorem accessedReg_of_reserved {off : Fin 128} (h : 0x4C ≤ off.val) (width : Width) : accessedReg off width = none := by
  rw [accessedReg, regAt_of_reserved h, ite_self]

theorem State.hostRead_of_accessedReg_none {off : Fin 128} {width : Width} (h : accessedReg off width = none)
    (s : State) : s.hostRead off width = (0, s) := by
  rw [State.hostRead, h]

theorem hostWrite_of_accessedReg_none {off : Fin 128} {width : Width} (h : accessedReg off width = none) (v : Word)
    (s : State) : hostWrite off width v s = .next s := by
  rw [hostWrite, h]

/-- Settles O16: an unsupported access reaches no register. -/
theorem unsupportedAccessesDoNothing : Obligations.UnsupportedAccessesDoNothing := by
  intro s off width v h
  have hn : accessedReg off width = none := accessedReg_of_not_supported (not_and_or.2 h)
  exact ⟨State.hostRead_of_accessedReg_none hn s, hostWrite_of_accessedReg_none hn v s⟩

/-- Settles O17: no register has a reserved offset. -/
theorem reservedOffsetsDoNothing : Obligations.ReservedOffsetsDoNothing := by
  intro s off v hlo _
  have hn : accessedReg off .word = none := accessedReg_of_reserved hlo .word
  exact ⟨State.hostRead_of_accessedReg_none hn s, hostWrite_of_accessedReg_none hn v s⟩

/-! ## Register writes (20_memory.md R42) -/

@[simp] theorem hostWrite_offset (r : Reg) (v : Word) (s : State) :
    hostWrite r.offset .word v s = writeReg r v s := by
  simp [hostWrite]

@[simp] theorem writeReg_cmd (v : Word) (s : State) : writeReg .cmd v s = accept v s := rfl
@[simp] theorem writeReg_arg0 (v : Word) (s : State) :
    writeReg .arg0 v s = .next { s with args := ⟨v, s.args.arg1, s.args.arg2⟩ } := rfl
@[simp] theorem writeReg_arg1 (v : Word) (s : State) :
    writeReg .arg1 v s = .next { s with args := ⟨s.args.arg0, v, s.args.arg2⟩ } := rfl
@[simp] theorem writeReg_arg2 (v : Word) (s : State) :
    writeReg .arg2 v s = .next { s with args := ⟨s.args.arg0, s.args.arg1, v⟩ } := rfl

/-- The registers a write leaves alone: all but CMD and the operand registers (R42). -/
def Reg.readOnly : List Reg :=
  [.id, .params, .status, .errInfo, .res0, .res1, .res2, .res3, .outData, .nsym, .nnode, .total, .params2, .errCmd, .root]

theorem writeReg_of_readOnly {r : Reg} (h : r ∈ Reg.readOnly) (v : Word) (s : State) : writeReg r v s = .next s := by
  cases r with
  | cmd | arg0 | arg1 | arg2 => exact absurd h (by decide)
  | _ => rfl

/-- Settles O18: each offset is a register's, and the write is that register's. -/
theorem hostWrites : Obligations.HostWrites := by
  intro s v
  refine ⟨hostWrite_offset .arg0 v s, hostWrite_offset .arg1 v s, hostWrite_offset .arg2 v s, hostWrite_cmd s v, ?_⟩
  intro off hoff
  obtain ⟨r, hr, rfl⟩ : ∃ r ∈ Reg.readOnly, r.offset = off := List.mem_map.1 hoff
  rw [hostWrite_offset, writeReg_of_readOnly hr]

/-! ## Byte lanes (20_memory.md R44) -/

theorem laneByte_getLsbD (v : Word) (j : Nat) {k : Nat} (hk : k < 8) :
    (laneByte v j).getLsbD k = v.getLsbD (8 * j + k) := by
  simp [laneByte, hk]

/-- Adjacent lanes join from the highest down, until they are the whole word. -/
theorem wordOfLanes_laneByte (v : Word) :
    wordOfLanes (laneByte v 0) (laneByte v 1) (laneByte v 2) (laneByte v 3) = v := by
  simp only [wordOfLanes, laneByte, Nat.reduceMul]
  rw [BitVec.extractLsb'_append_extractLsb'_eq_extractLsb' (show 24 = 16 + 8 from rfl),
    BitVec.extractLsb'_append_extractLsb'_eq_extractLsb' (show 16 = 8 + 8 from rfl),
    BitVec.extractLsb'_append_extractLsb'_eq_extractLsb' (show 8 = 0 + 8 from rfl)]
  exact BitVec.extractLsb'_eq_self

theorem decodeBytes_lanesOf (v : Word) : decodeBytes (lanesOf v) = decode v :=
  congrArg decode (wordOfLanes_laneByte v)

/-- Settles O19: the bits of a lane, the lanes of a word, and decoding from lanes. -/
theorem byteLanesLittleEndian : Obligations.ByteLanesLittleEndian := fun v =>
  ⟨fun j _ _ hk => laneByte_getLsbD v j hk, wordOfLanes_laneByte v, decodeBytes_lanesOf v⟩

end Sys2Proof.Machine
end

section
/-! PROOFS. The statement on the words no row of the opcode map matches (spec 30_encoding.md R62), with the laws it needs: a
row fixes the opcode byte of the words that select it, and the decoder takes exactly the words some row matches. -/

namespace Sys2Proof.Machine

/-! ## Rows and opcode bytes (30_encoding.md R55 to R57, R61) -/

/-- No format has an operand in the opcode byte. -/
theorem opcOf_mask {r : Row} (hr : r ∈ opcodeMap) : opcOf r.mask = BitVec.allOnes 8 := by
  revert r
  decide

theorem opcOf_and (v w : Word) : opcOf (v &&& w) = opcOf v &&& opcOf w :=
  BitVec.extractLsb'_and

theorem opcOf_of_selects {r : Row} {w : Word} (hr : r ∈ opcodeMap) (h : r.selects w) : opcOf w = opcOf r.pattern := by
  rw [← h, opcOf_and, opcOf_mask hr, BitVec.and_allOnes]

/-- Opcode 0x01 is SRESET's alone. -/
theorem row_of_opcOf_one {r : Row} (hr : r ∈ opcodeMap) (h : opcOf r.pattern = 0x01) :
    r = ⟨.SRESET, 0x00000001, 0xFFFFFFFF⟩ := by
  revert r
  decide

/-- SRESET's mask covers the whole word. -/
theorem eq_one_of_selects_of_opcOf_one {r : Row} {w : Word} (hr : r ∈ opcodeMap) (h : r.selects w)
    (hw : opcOf w = 0x01) : w = 0x00000001#32 := by
  rw [opcOf_of_selects hr h] at hw
  rw [row_of_opcOf_one hr hw] at h
  calc w = w &&& BitVec.allOnes 32 := BitVec.and_allOnes.symm
    _ = 0x00000001#32 := h

/-! ## The decoder takes the words some row matches (30_encoding.md R61, R62) -/

theorem decode_of_unmatched {w : Word} (h : ∀ r ∈ opcodeMap, ¬ r.selects w) :
    decode w = .error (if opcodeAssigned w then .reservedBitSet else .unassignedOpcode) := by
  have hnone : (opcodeMap.find? fun r => w &&& r.mask == r.pattern) = none := by simpa using h
  rw [decode, hnone]
  exact (apply_ite Except.error _ _ _).symm

theorem decode_of_matched {w : Word} (h : ∃ r ∈ opcodeMap, r.selects w) :
    ∃ r ∈ opcodeMap, r.selects w ∧ decode w = .ok (assemble r.mnemonic w) := by
  obtain ⟨r, hr⟩ : ∃ r, (opcodeMap.find? fun r => w &&& r.mask == r.pattern) = some r :=
    Option.isSome_iff_exists.mp (by simpa using h)
  exact ⟨r, List.mem_of_find?_eq_some hr, by simpa using List.find?_some hr, by rw [decode, hr]⟩

theorem ne_one_of_unmatched {w : Word} (h : ∀ r ∈ opcodeMap, ¬ r.selects w) : w ≠ 0x00000001#32 := by
  rintro rfl
  exact h ⟨.SRESET, 0x00000001, 0xFFFFFFFF⟩ (by decide) (by decide)

/-- Settles O4: words that select a row have its opcode byte, and SRESET's row is that of one word. -/
theorem unmatchedWordsAreIllegal : Obligations.UnmatchedWordsAreIllegal := by
  refine ⟨?unmatched, ?matched, ?unassigned, ?sresetOpcode, ?examples, fun s => ⟨s.env, accept_sreset s⟩⟩
  case unmatched =>
    intro w h
    have hd := decode_of_unmatched h
    refine ⟨⟨_, hd⟩, fun s he hb => ?_⟩
    rw [accept_of_illegal (ne_one_of_unmatched h) he hb hd, State.raiseWith_of_clear he, ErrorName.code]
  case matched =>
    intro w h
    obtain ⟨r, -, -, hd⟩ := decode_of_matched h
    exact ⟨_, hd⟩
  case unassigned =>
    intro w hw r hr h
    rw [opcOf_of_selects hr h] at hw
    -- `w` is gone from `hw`: what is left speaks of the sixteen patterns alone.
    clear h
    revert hw
    revert r
    decide
  case sresetOpcode =>
    intro w hw hne r hr h
    exact hne (eq_one_of_selects_of_opcOf_one hr h hw)
  case examples =>
    simp only [List.forall_mem_cons]
    exact ⟨by decide, by decide, by decide, List.forall_mem_nil _⟩

end Sys2Proof.Machine
end

section
/-! PROOFS. The statement on NOP (spec 40_control.md R64), with the laws it needs: a performed NOP, the execute step of a
latched word that decodes, the bits of STATUS that do not depend on EXEC. -/

namespace Sys2Proof.Machine

/-! ## The execute step of a latched NOP (20_memory.md R48; 40_control.md R64) -/

@[simp] theorem exec_nop (s : State) : exec .nop s = .next s := rfl

@[simp] theorem perform_nop (s : State) : perform .nop s = .next { s with exec := none } := rfl

/-- Without error the execute step performs the command whose word is latched. -/
theorem executeStep_of_decode {s : State} {c : Command} {i : Instr} (hx : s.exec = some c)
    (he : s.error.err = false) (hd : decode c.word = .ok i) : executeStep s = perform i s := by
  simp [executeStep, hx, he, hd]

theorem decode_encode_nop : decode (encode .nop) = .ok .nop := by decide

/-! ## What latching a command does to the block (10_state.md R20, R33) -/

theorem State.exec_eq_none_of_not_busy {s : State} (h : s.busy = false) : s.exec = none := by
  cases hx : s.exec with
  | none => rfl
  | some c => simp [State.busy_of_exec hx] at h

/-- EXEC shows in STATUS through BUSY, bit 0, alone: the bits above it are one and the same vector. -/
theorem State.statusWord_getLsbD_of_exec (s : State) (x : Option Command) {n : Nat} (hn : n ≠ 0) :
    (State.statusWord { s with exec := x }).getLsbD n = s.statusWord.getLsbD n := by
  have hn1 : ¬ n < 1 := by omega
  simp only [State.statusWord, BitVec.getLsbD_append, if_neg hn1]
  rfl

/-- Settles O25: the write latches NOP in EXEC, which was empty, and the execute step empties it again. -/
theorem nopChangesNothing : Obligations.NopChangesNothing := by
  refine ⟨by decide, exec_nop, fun s hb he => ?_⟩
  have hx : s.exec = none := State.exec_eq_none_of_not_busy hb
  refine ⟨{ s with exec := some ⟨encode .nop, s.args, false⟩ }, accept_of_decode (by decide) he hb decode_encode_nop,
    State.busy_of_exec rfl, fun n hn => s.statusWord_getLsbD_of_exec _ hn, ?_⟩
  calc executeStep { s with exec := some ⟨encode .nop, s.args, false⟩ }
      = perform .nop { s with exec := some ⟨encode .nop, s.args, false⟩ } :=
        executeStep_of_decode rfl he decode_encode_nop
    _ = .next { s with exec := none } := perform_nop _
    _ = .next s := by rw [← hx]

end Sys2Proof.Machine
end

section
/-! PROOFS. The statements on the frequency counter (spec 41_frequency.md R66 to R68), with the laws they need: an equation
per case of FC_COUNT and FC_READ, commands issued one after another, and what it means that a table tallies a text. -/

namespace Sys2Proof.Machine

/-! ## FC_READ (R68) -/

theorem exec_fcRead_of_lt {s : State} {i : Fin 256} (h : i.val < s.table.nsym.val) :
    exec (.fcRead i.val) s = .next (s.setRes (s.table.slots[i].sym.setWidth 32) s.table.slots[i].count 0 0) := by
  simp [exec, execFcRead, h]

theorem exec_fcRead_of_ge {s : State} {slot : Nat} (h : s.table.nsym.val ≤ slot) :
    exec (.fcRead slot) s = .next (s.raise .badIndex (word32 slot)) := by
  simp [exec, execFcRead, Nat.not_lt.2 h]

/-- Settles O28: the index is valid or it is not. -/
theorem fcReadReports : Obligations.FcReadReports := fun _ =>
  ⟨fun _ h => exec_fcRead_of_lt h, fun _ h => exec_fcRead_of_ge h⟩

/-! ## The slot of a symbol (10_state.md R24, R25) -/

/-- The symbol of slot `i`, as FC_READ reports it. -/
def SymTable.symbolAt (t : SymTable) (i : Fin 256) : Word := t.slots[i].sym.setWidth 32

/-- A legal symbol fits the 21 bits of a slot (00_scope.md R6, R7). -/
theorem LegalSymbol.setWidth_setWidth {y : Word} (h : LegalSymbol y) : (y.setWidth 21).setWidth 32 = y := by
  have hle : y.toNat ≤ 0x10FFFF := h
  apply BitVec.eq_of_toNat_eq
  rw [BitVec.toNat_setWidth, BitVec.toNat_setWidth]
  omega

@[simp] theorem SymTable.countOne_symbolAt (t : SymTable) (i j : Fin 256) :
    (t.countOne i).symbolAt j = t.symbolAt j := by
  rw [SymTable.symbolAt, SymTable.countOne_slots]
  split
  · next h => rw [h, SymTable.symbolAt]
  · rfl

theorem SymTable.slotFor_of_unique {t : SymTable} {y : Word} {i : Fin 256} (hi : i.val < t.nsym.val)
    (hy : t.symbolAt i = y) (hu : ∀ j : Fin 256, j.val < t.nsym.val → t.symbolAt j = y → j = i) :
    t.slotFor y = some (i, t) := by
  cases hl : t.lookup y with
  | none => exact absurd hy (SymTable.lookup_none.1 hl i hi)
  | some k =>
    obtain ⟨hk, hky⟩ := SymTable.lookup_some hl
    rw [SymTable.slotFor, hl, hu k hk hky]

theorem SymTable.slotFor_of_new {t : SymTable} {y : Word} (hy : ∀ j : Fin 256, j.val < t.nsym.val → t.symbolAt j ≠ y) :
    t.slotFor y = t.alloc y := by
  rw [SymTable.slotFor, SymTable.lookup_none.2 hy]

/-- A fresh slot holds the symbol it is for, and the valid slots keep theirs. -/
theorem SymTable.alloc_symbolAt {t t' : SymTable} {y : Word} {i : Fin 256} (hy : LegalSymbol y)
    (h : t.alloc y = some (i, t')) :
    t'.symbolAt i = y ∧ ∀ j : Fin 256, j.val < t.nsym.val → t'.symbolAt j = t.symbolAt j := by
  obtain ⟨hi, -, -, hslots⟩ := SymTable.alloc_some h
  constructor
  · rw [SymTable.symbolAt, hslots, if_pos rfl, hy.setWidth_setWidth]
  · intro j hj
    rw [SymTable.symbolAt, hslots, if_neg (by omega), SymTable.symbolAt]

/-! ## The cases of FC_COUNT (R67) -/

theorem exec_fcCount_of_illegal {s : State} (hy : ¬ LegalSymbol s.symbolArg) :
    exec .fcCount s = .next (s.raise .badSymbol s.symbolArg) := by
  simp [exec, execFcCount, hy]

theorem exec_fcCount_of_total_max {s : State} (hy : LegalSymbol s.symbolArg) (ht : s.table.total = 0xFFFFFFFF#32) :
    exec .fcCount s = .next (s.raise .countOvf s.symbolArg) := by
  simp [exec, execFcCount, hy, ht]

theorem exec_fcCount_of_full {s : State} (hy : LegalSymbol s.symbolArg) (ht : s.table.total ≠ 0xFFFFFFFF#32)
    (hs : s.table.slotFor s.symbolArg = none) : exec .fcCount s = .next (s.raise .tableFull s.symbolArg) := by
  simp [exec, execFcCount, hy, ht, hs]

theorem exec_fcCount_of_slot {s : State} {i : Fin 256} {tab : SymTable} (hy : LegalSymbol s.symbolArg)
    (ht : s.table.total ≠ 0xFFFFFFFF#32) (hs : s.table.slotFor s.symbolArg = some (i, tab)) :
    exec .fcCount s = .next { s with table := tab.countOne i } := by
  simp [exec, execFcCount, hy, ht, hs]

/-- Settles O26: FC_COUNT counts at the slot the symbol has, or at the one `alloc` gives it. -/
theorem fcCountCounts : Obligations.FcCountCounts := by
  intro s
  refine ⟨fun hy => exec_fcCount_of_illegal (BitVec.not_le.2 hy), exec_fcCount_of_total_max, ?full,
    fun hy ht => ⟨?found, ?new⟩⟩
  case full =>
    intro hy ht hnew hfull
    exact exec_fcCount_of_full hy ht (SymTable.slotFor_none.2 ⟨SymTable.lookup_none.2 hnew, hfull⟩)
  case found =>
    intro i hi hiy hu
    refine ⟨s.table.countOne i, exec_fcCount_of_slot hy ht (SymTable.slotFor_of_unique hi hiy hu), rfl, rfl, ?_, ?_⟩
    · rw [SymTable.countOne_slots, if_pos rfl]
    · intro j hj
      rw [SymTable.countOne_slots, if_neg hj.symm]
  case new =>
    intro i hi hnew
    have hroom : s.table.alloc s.symbolArg ≠ none := fun h => by
      have := SymTable.alloc_none.1 h
      omega
    obtain ⟨⟨k, tab⟩, ha⟩ := Option.ne_none_iff_exists'.1 hroom
    obtain ⟨hk, hn, htot, hslots⟩ := SymTable.alloc_some ha
    obtain rfl : k = i := Fin.ext (hk.trans hi.symm)
    refine ⟨tab.countOne k, exec_fcCount_of_slot hy ht ((SymTable.slotFor_of_new hnew).trans ha), hn, ?_, ?_, ?_⟩
    · rw [SymTable.countOne_total, htot]
    · rw [SymTable.countOne_slots, if_pos rfl, hslots, if_pos rfl]
      rfl
    · intro j hj
      rw [SymTable.countOne_slots, if_neg hj.symm, hslots, if_neg hj.symm]

/-! ## Commands issued one after another -/

theorem perform_cases {i : Instr} {s t : State} (h : perform i s = .next t) :
    ∃ u, exec i s = .next u ∧ t = { u with exec := none } := by
  unfold perform at h
  split at h
  · next u hu => exact ⟨u, hu, (Host.Outcome.next.inj h).symm⟩
  · cases h
  · cases h

theorem issueAll_cons {c : Instr × Args} {cs : List (Instr × Args)} {s t : State} :
    issueAll (c :: cs) s = .next t ↔ ∃ u, issue c s = .next u ∧ issueAll cs u = .next t := by
  rw [issueAll]
  cases issue c s <;> simp

@[simp] theorem issueAll_singleton (c : Instr × Args) (s : State) : issueAll [c] s = issue c s := by
  rw [issueAll]
  cases issue c s <;> rfl

theorem issueAll_append {cs ds : List (Instr × Args)} {s t : State} :
    issueAll (cs ++ ds) s = .next t ↔ ∃ u, issueAll cs s = .next u ∧ issueAll ds u = .next t := by
  induction cs generalizing s with
  | nil => simp [issueAll]
  | cons c cs ih =>
    simp only [List.cons_append, issueAll_cons, ih, ← exists_and_left, ← exists_and_right, and_assoc]
    exact exists_comm

/-- FC_COUNT issued: where no error is recorded afterwards, none was recorded before, and the symbol was counted. -/
theorem issue_fcCount_of_clear {y : Word} {s t : State} (h : issue (withSymbol .fcCount y) s = .next t)
    (he : t.error.err = false) :
    s.error.err = false ∧ LegalSymbol y ∧ s.table.total ≠ 0xFFFFFFFF#32 ∧
      ∃ i tab, s.table.slotFor y = some (i, tab) ∧ t.table = tab.countOne i := by
  obtain ⟨u, hu, rfl⟩ := perform_cases h
  obtain ⟨-, rfl⟩ | ⟨-, -, rfl⟩ | ⟨-, -, -, rfl⟩ | ⟨hy, ht, i, tab, hs, rfl⟩ := execFcCount_cases hu
  · simp at he
  · simp at he
  · simp at he
  · exact ⟨he, hy, ht, i, tab, hs, rfl⟩

/-! ## Tables that tally a text (R66) -/

/-- The valid slots count the occurrences of their symbols in `text`, every symbol of which has a slot; a slot's symbol
occurs first before those of the later slots. The last slot's symbol may be one that does not occur yet. -/
structure SymTable.Tallies (t : SymTable) (text : List Word) : Prop where
  total : t.total.toNat = text.length
  slot : ∀ y ∈ text, ∃ i : Fin 256, i.val < t.nsym.val ∧ t.symbolAt i = y
  count : ∀ i : Fin 256, i.val < t.nsym.val → t.slots[i].count.toNat = text.count (t.symbolAt i)
  order : ∀ i j : Fin 256, i < j → j.val < t.nsym.val → text.idxOf (t.symbolAt i) < text.idxOf (t.symbolAt j)

/-- Every valid slot's symbol occurs in `text`. -/
def SymTable.AllOccur (t : SymTable) (text : List Word) : Prop :=
  ∀ i : Fin 256, i.val < t.nsym.val → t.symbolAt i ∈ text

theorem SymTable.tallies_reset : State.reset.table.Tallies [] where
  total := rfl
  slot := nofun
  count := fun _ h => absurd h (Nat.not_lt_zero _)
  order := fun _ _ _ h => absurd h (Nat.not_lt_zero _)

theorem SymTable.allOccur_reset : State.reset.table.AllOccur [] := fun _ h => absurd h (Nat.not_lt_zero _)

/-- Where one symbol occurs first before another, it still does when the text goes on. -/
theorem idxOf_append_lt_idxOf_append {l m : List Word} {x y : Word} (h : l.idxOf x < l.idxOf y) :
    (l ++ m).idxOf x < (l ++ m).idxOf y := by
  have hx : x ∈ l := List.idxOf_lt_length_iff.1 (h.trans_le List.idxOf_le_length)
  by_cases hy : y ∈ l
  · rwa [List.idxOf_append_of_mem hx, List.idxOf_append_of_mem hy]
  · rw [List.idxOf_append_of_mem hx, List.idxOf_append_of_notMem hy]
    have := List.idxOf_lt_length_iff.2 hx
    omega

/-- A register below its maximum counts one further without wrapping. -/
theorem toNat_add_one_of_lt {w : Word} (h : w.toNat < 0xFFFFFFFF) : (w + 1).toNat = w.toNat + 1 :=
  BitVec.toNat_add_of_lt (Nat.add_lt_of_lt_sub h)

theorem SymTable.total_lt_of_ne {t : SymTable} (h : t.total ≠ 0xFFFFFFFF#32) : t.total.toNat < 0xFFFFFFFF := by
  have hne : t.total.toNat ≠ 0xFFFFFFFF := fun e => h (BitVec.eq_of_toNat_eq e)
  have := t.total.isLt
  omega

namespace SymTable.Tallies

variable {t : SymTable} {text : List Word}

theorem symbolAt_injective (h : t.Tallies text) {i j : Fin 256} (hi : i.val < t.nsym.val) (hj : j.val < t.nsym.val)
    (hij : t.symbolAt i = t.symbolAt j) : i = j := by
  rcases lt_trichotomy i j with hlt | heq | hgt
  · exact absurd (congrArg text.idxOf hij) (h.order i j hlt hj).ne
  · exact heq
  · exact absurd (congrArg text.idxOf hij) (h.order j i hgt hi).ne'

theorem count_le_total (h : t.Tallies text) {i : Fin 256} (hi : i.val < t.nsym.val) :
    t.slots[i].count.toNat ≤ t.total.toNat := by
  rw [h.count i hi, h.total]
  exact List.count_le_length

/-- A fresh slot for a symbol that does not occur: its count is 0, and it comes after all that occur. -/
theorem alloc (h : t.Tallies text) (ho : t.AllOccur text) {y : Word} (hy : LegalSymbol y) (hnew : y ∉ text)
    {i : Fin 256} {t' : SymTable} (ha : t.alloc y = some (i, t')) : t'.Tallies text := by
  obtain ⟨hi, hn, htot, hslots⟩ := SymTable.alloc_some ha
  obtain ⟨hsym, hold⟩ := SymTable.alloc_symbolAt hy ha
  have hcase : ∀ j : Fin 256, j.val < t'.nsym.val → j.val < t.nsym.val ∨ j = i := by omega
  refine ⟨by rw [htot, h.total], ?slot, ?count, ?order⟩
  case slot =>
    intro x hx
    obtain ⟨j, hj, hjx⟩ := h.slot x hx
    exact ⟨j, by omega, by rw [hold j hj, hjx]⟩
  case count =>
    intro j hj
    rcases hcase j hj with hlt | rfl
    · rw [hslots, if_neg (by omega), hold j hlt, h.count j hlt]
    · rw [hslots, if_pos rfl, hsym, List.count_eq_zero.2 hnew]
      rfl
  case order =>
    intro j k hjk hk
    have hj : j.val < t.nsym.val := by omega
    rw [hold j hj]
    rcases hcase k hk with hlt | rfl
    · rw [hold k hlt]
      exact h.order j k hjk hlt
    · rw [hsym, List.idxOf_eq_length_iff.2 hnew]
      exact List.idxOf_lt_length_iff.2 (ho j hj)

/-- Counting at the slot of the symbol that comes next in the text. -/
theorem countOne (h : t.Tallies text) (ht : t.total ≠ 0xFFFFFFFF#32) {i : Fin 256} (hi : i.val < t.nsym.val) :
    (t.countOne i).Tallies (text ++ [t.symbolAt i]) := by
  have htot := SymTable.total_lt_of_ne ht
  refine ⟨?total, ?slot, ?count, ?order⟩
  case total =>
    rw [SymTable.countOne_total, toNat_add_one_of_lt htot, h.total, List.length_append, List.length_singleton]
  case slot =>
    intro y hy
    simp only [SymTable.countOne_nsym, SymTable.countOne_symbolAt]
    rcases List.mem_append.1 hy with hm | hm
    · exact h.slot y hm
    · exact ⟨i, hi, (List.mem_singleton.1 hm).symm⟩
  case count =>
    intro j hj
    rw [SymTable.countOne_symbolAt, SymTable.countOne_slots, List.count_append, ← h.count j hj]
    by_cases hij : i = j
    · subst hij
      rw [if_pos rfl, toNat_add_one_of_lt ((h.count_le_total hi).trans_lt htot), List.count_singleton_self]
    · have hne : t.symbolAt j ≠ t.symbolAt i := fun e => hij (h.symbolAt_injective hj hi e).symm
      rw [if_neg hij, List.count_eq_zero.2 (List.mem_singleton.not.2 hne), Nat.add_zero]
  case order =>
    intro j k hjk hk
    simp only [SymTable.countOne_symbolAt]
    exact idxOf_append_lt_idxOf_append (h.order j k hjk hk)

/-- The slot FC_COUNT counts at, whether it was found or made: the table still tallies the text so far, and no slot but
that one is for a symbol that does not occur. -/
theorem slotFor (h : t.Tallies text) (ho : t.AllOccur text) {y : Word} (hy : LegalSymbol y) {i : Fin 256}
    {tab : SymTable} (hs : t.slotFor y = some (i, tab)) :
    tab.Tallies text ∧ tab.total = t.total ∧ i.val < tab.nsym.val ∧ tab.symbolAt i = y ∧
      ∀ j : Fin 256, j.val < tab.nsym.val → j = i ∨ tab.symbolAt j ∈ text := by
  rcases SymTable.slotFor_some hs with ⟨hl, rfl⟩ | ⟨hl, ha⟩
  · obtain ⟨hi, hiy⟩ := SymTable.lookup_some hl
    exact ⟨h, rfl, hi, hiy, fun j hj => .inr (ho j hj)⟩
  · obtain ⟨hi, hn, htot, -⟩ := SymTable.alloc_some ha
    obtain ⟨hsym, hold⟩ := SymTable.alloc_symbolAt hy ha
    have hnew : y ∉ text := fun hm => by
      obtain ⟨j, hj, hjy⟩ := h.slot y hm
      exact SymTable.lookup_none.1 hl j hj hjy
    refine ⟨h.alloc ho hy hnew ha, htot, by omega, hsym, fun j hj => ?_⟩
    by_cases hji : j = i
    · exact .inl hji
    · have hj' : j.val < t.nsym.val := by omega
      exact .inr (hold j hj' ▸ ho j hj')

/-- FC_COUNT's update of the table: the slot is found or made, and then counted. -/
theorem slotFor_countOne (h : t.Tallies text) (ho : t.AllOccur text) {y : Word} (hy : LegalSymbol y)
    (ht : t.total ≠ 0xFFFFFFFF#32) {i : Fin 256} {tab : SymTable} (hs : t.slotFor y = some (i, tab)) :
    (tab.countOne i).Tallies (text ++ [y]) ∧ (tab.countOne i).AllOccur (text ++ [y]) := by
  obtain ⟨htab, htot, hi, rfl, hoccur⟩ := h.slotFor ho hy hs
  refine ⟨htab.countOne (htot ▸ ht) hi, fun j hj => ?_⟩
  rw [SymTable.countOne_symbolAt, List.mem_append, List.mem_singleton]
  rcases hoccur j hj with rfl | hm
  · exact .inr rfl
  · exact .inl hm

end SymTable.Tallies

/-- FC_COUNT of every symbol of a text, from the idle block, while no error is recorded. -/
theorem issueAll_fcCount_tallies {text : List Word} {t : State}
    (h : issueAll (text.map (withSymbol .fcCount)) State.idle = .next t) (he : t.error.err = false) :
    t.table.Tallies text ∧ t.table.AllOccur text := by
  induction text using List.reverseRecOn generalizing t with
  | nil =>
    cases h
    exact ⟨SymTable.tallies_reset, SymTable.allOccur_reset⟩
  | append_singleton text y ih =>
    rw [List.map_append, List.map_singleton, issueAll_append] at h
    obtain ⟨u, hu, hy⟩ := h
    rw [issueAll_singleton] at hy
    obtain ⟨hue, hlegal, htot, i, tab, hs, htab⟩ := issue_fcCount_of_clear hy he
    obtain ⟨htally, hoccur⟩ := ih hu hue
    rw [htab]
    exact htally.slotFor_countOne hoccur hlegal htot hs

/-- Settles O27, by induction on the text from its end: every FC_COUNT turns a tally of the text so far into one of the text
with its symbol. -/
theorem countsOfText : Obligations.CountsOfText := by
  intro text t h he
  obtain ⟨htally, hoccur⟩ := issueAll_fcCount_tallies h he
  refine ⟨htally.total, ?nodup, ?mem, ?count, htally.order⟩
  case nodup =>
    exact t.table.valid_nodup.map_on fun i hi j hj =>
      htally.symbolAt_injective ((t.table.mem_valid i).1 hi) ((t.table.mem_valid j).1 hj)
  case mem =>
    intro y
    constructor
    · intro hy
      obtain ⟨i, hi, rfl⟩ := List.mem_map.1 hy
      exact hoccur i ((t.table.mem_valid i).1 hi)
    · intro hy
      obtain ⟨i, hi, hiy⟩ := htally.slot y hy
      exact List.mem_map.2 ⟨i, (t.table.mem_valid i).2 hi, hiy⟩
  case count =>
    intro i hi
    have hc := htally.count i hi
    exact ⟨hc ▸ List.count_pos_iff.2 (hoccur i hi), hc⟩

end Sys2Proof.Machine
end

section
/-! PROOFS. The statements on the tree builder's sort and on TR_READ (spec 42_tree_builder.md R70, R72; 10_state.md R27), with
the laws they need: the model's sort is the library's insertion sort, one round of the merge loop, an equation per case of
TR_READ, and the encoding of a Ref as its kind and its index. -/

namespace Sys2Proof.Machine

/-! ## The sort is the library's insertion sort (R70) -/

/-- `x` may stand before `y` in a list whose weights descend. -/
abbrev Weighted.NotLighter : Weighted → Weighted → Prop := Weighted.weight ⁻¹'o (· ≥ ·)

theorem insertDesc_eq_orderedInsert (x : Weighted) (w : List Weighted) :
    insertDesc x w = w.orderedInsert Weighted.NotLighter x := by
  induction w with
  | nil => rfl
  | cons y ys ih =>
    rw [insertDesc, List.orderedInsert_cons, ih]
    by_cases h : x.NotLighter y
    · rw [if_neg (Nat.not_lt.2 h), if_pos h]
    · rw [if_pos (Nat.not_le.1 h), if_neg h]

theorem stableSortDesc_eq_insertionSort (w : List Weighted) :
    stableSortDesc w = w.insertionSort Weighted.NotLighter := by
  induction w with
  | nil => rfl
  | cons x xs ih => rw [stableSortDesc, ih, insertDesc_eq_orderedInsert, List.insertionSort_cons]

theorem stableSortDesc_pairwise (w : List Weighted) : (stableSortDesc w).Pairwise Weighted.NotLighter := by
  rw [stableSortDesc_eq_insertionSort]
  exact List.pairwise_insertionSort _ w

/-- A sublist whose weights descend already survives the sort in its order. -/
theorem sublist_stableSortDesc {c w : List Weighted} (hc : c.Pairwise Weighted.NotLighter) (h : c.Sublist w) :
    c.Sublist (stableSortDesc w) := by
  rw [stableSortDesc_eq_insertionSort]
  exact List.sublist_insertionSort hc h

/-- The elements of weight `v` are a sublist of the sorted list, and sorting changes neither which they are nor how many. -/
theorem stableSortDesc_filter_weight (w : List Weighted) (v : Nat) :
    (stableSortDesc w).filter (fun x => x.weight == v) = w.filter (fun x => x.weight == v) := by
  have hsame : (w.filter fun x => x.weight == v).Pairwise Weighted.NotLighter :=
    List.pairwise_iff_forall_sublist.2 fun {a b} hab => by
      have hmem : ∀ x ∈ [a, b], x.weight = v := fun x hx => by simpa using (List.mem_filter.1 (hab.subset hx)).2
      exact ((hmem b (by simp)).trans (hmem a (by simp)).symm).le
  have hsub := (sublist_stableSortDesc hsame List.filter_sublist).filter fun x => x.weight == v
  rw [List.filter_filter] at hsub
  simp only [Bool.and_self] at hsub
  exact (hsub.eq_of_length ((stableSortDesc_perm w).filter _).length_eq.symm).symm

theorem insertDesc_of_forall_notLighter {x : Weighted} {w : List Weighted} (h : ∀ y ∈ w, x.NotLighter y) :
    insertDesc x w = x :: w := by
  cases w with
  | nil => rfl
  | cons y ys => exact if_neg (Nat.not_lt.2 (h y (by simp)))

/-- By induction on the sorted list: its head `a` stays in front, unless `a` and with it every later element is lighter than
`x`. -/
theorem stableSortDesc_append_of_pairwise {w : List Weighted} (x : Weighted) (hw : w.Pairwise Weighted.NotLighter) :
    stableSortDesc (w ++ [x]) =
      w.filter (fun a => decide (x.weight ≤ a.weight)) ++ x :: w.filter (fun a => decide (a.weight < x.weight)) := by
  induction w with
  | nil => rfl
  | cons a w ih =>
    obtain ⟨ha, hw⟩ := List.pairwise_cons.1 hw
    rw [List.cons_append, stableSortDesc, ih hw]
    by_cases h : x.weight ≤ a.weight
    · rw [insertDesc_of_forall_notLighter]
      · simp [h, Nat.not_lt.2 h]
      · intro y hy
        simp only [List.mem_append, List.mem_cons, List.mem_filter] at hy
        rcases hy with ⟨hy, -⟩ | rfl | ⟨hy, -⟩
        · exact ha y hy
        · exact h
        · exact ha y hy
    · have hlt : ∀ y ∈ w, y.weight < x.weight := fun y hy => (ha y hy).trans_lt (Nat.not_le.1 h)
      have hbefore : w.filter (fun y => decide (x.weight ≤ y.weight)) = [] :=
        List.filter_eq_nil_iff.2 fun y hy => by simpa using hlt y hy
      have hafter : w.filter (fun y => decide (y.weight < x.weight)) = w :=
        List.filter_eq_self.2 fun y hy => by simpa using hlt y hy
      simp [hbefore, hafter, insertDesc, Nat.not_le.1 h, insertDesc_of_forall_notLighter ha]

/-- One round on a list that ends in `r`, `l`: the last element becomes the left child. -/
theorem mergeLoop_append_pair {fuel : Nat} {w : List Weighted} {r l : Weighted} {t t' : Tree} {k : Fin 1024}
    (h : t.alloc ⟨l.ref, r.ref⟩ = some (k, t')) :
    mergeLoop (fuel + 1) (w ++ [r, l]) t =
      mergeLoop fuel (stableSortDesc (w ++ [⟨.node k, l.weight + r.weight⟩])) t' := by
  have hrev : (w ++ [r, l]).reverse = l :: r :: w.reverse := by simp
  simp [mergeLoop, hrev, h]

/-- Settles O29: the sort is the library's insertion sort, which is stable, and the merge loop takes the list from its end. -/
theorem stableSort : Obligations.StableSort :=
  ⟨fun w => ⟨stableSortDesc_pairwise w, stableSortDesc_filter_weight w⟩,
    fun _ x hw => stableSortDesc_append_of_pairwise x hw, fun _ _ _ _ _ _ _ h => mergeLoop_append_pair h⟩

/-! ## The encoding of a Ref (10_state.md R27) -/

/-- A kind over an index of at most 16 bits is the kind's bits or the index. `simp only`, so that no arithmetic on the widths
keeps the laws of `++` from applying. -/
theorem kind_append_index (kind : BitVec 2) {n : Nat} (h : n < 2 ^ 16) :
    kind ++ 0#14 ++ BitVec.ofNat 16 n = (kind ++ 0#30) ||| BitVec.ofNat 32 n := by
  apply BitVec.eq_of_toNat_eq
  have h32 : n < 2 ^ 32 := h.trans (by decide)
  simp only [BitVec.toNat_or, BitVec.toNat_append, BitVec.toNat_ofNat, Nat.mod_eq_of_lt h, Nat.mod_eq_of_lt h32,
    Nat.zero_mod, Nat.or_zero, ← Nat.shiftLeft_add]

theorem Ref.leaf_word (i : Fin 256) : (Ref.leaf i).word = 0x40000000#32 ||| BitVec.ofNat 32 i.val :=
  kind_append_index 0b01#2 (by omega)

theorem Ref.node_word (k : Fin 1024) : (Ref.node k).word = 0x80000000#32 ||| BitVec.ofNat 32 k.val :=
  kind_append_index 0b10#2 (by omega)

/-! ## TR_READ (R72) -/

theorem exec_trRead_of_lt {s : State} {k : Fin 1024} (h : k.val < s.tree.nnode.val) :
    exec (.trRead k.val) s = .next (s.setRes s.tree.nodes[k].c0.word s.tree.nodes[k].c1.word s.tree.root.word
      (word32 s.tree.nnode.val)) := by
  simp [exec, execTrRead, h]

theorem exec_trRead_of_ge {s : State} {node : Nat} (h : s.tree.nnode.val ≤ node) :
    exec (.trRead node) s = .next (s.raise .badIndex (word32 node)) := by
  simp [exec, execTrRead, Nat.not_lt.2 h]

/-- Settles O32: the encoding of each kind of Ref, and the index is of an allocated node or it is not. -/
theorem trReadReports : Obligations.TrReadReports :=
  ⟨⟨rfl, Ref.leaf_word, Ref.node_word⟩, fun _ => ⟨fun _ h => exec_trRead_of_lt h, fun _ h => exec_trRead_of_ge h⟩⟩

end Sys2Proof.Machine
end

section
/-! PROOFS. The statements on the code table's rows and on the codes TB_BUILD and CT_DERIVE give (spec 43_code_table.md R74 to
R76), with the laws they need: an equation per case of CT_READ and CT_LOAD, a path as the number it spells, what the walk of
R73 leaves in every slot, the leaves below a Ref with their paths, and one induction over the merge loop of R69. -/

namespace Sys2Proof.Machine

/-! ## CT_READ (R75) -/

theorem exec_ctRead_of_lt {s : State} {i : Fin 256} (h : i.val < s.table.nsym.val) :
    exec (.ctRead i.val) s = .next (s.setRes (s.table.slots[i].sym.setWidth 32) (s.table.slots[i].code.extractLsb' 0 32)
      (s.table.slots[i].code.extractLsb' 32 32) (word32 s.table.slots[i].len.val)) := by
  simp [exec, execCtRead, h]

theorem exec_ctRead_of_ge {s : State} {slot : Nat} (h : s.table.nsym.val ≤ slot) :
    exec (.ctRead slot) s = .next (s.raise .badIndex (word32 slot)) := by
  simp [exec, execCtRead, Nat.not_lt.2 h]

/-- Settles O36: the index is valid or it is not. -/
theorem ctReadReports : Obligations.CtReadReports := fun _ =>
  ⟨fun _ h => exec_ctRead_of_lt h, fun _ h => exec_ctRead_of_ge h⟩

/-! ## The cases of CT_LOAD (R76) -/

theorem exec_ctLoad_of_illegal {s : State} {len : Nat} (hy : ¬ LegalSymbol s.symbolArg) :
    exec (.ctLoad len) s = .next (s.raise .badSymbol s.symbolArg) := by
  simp [exec, execCtLoad, hy]

theorem exec_ctLoad_of_bad_length {s : State} {len : Nat} (hy : LegalSymbol s.symbolArg) (hl : ¬ LegalLength len) :
    exec (.ctLoad len) s = .next (s.raise .badArg (word32 len)) := by
  simp only [exec, execCtLoad, hy, not_true, if_false, dif_neg hl]

theorem exec_ctLoad_of_full {s : State} {len : Nat} (hy : LegalSymbol s.symbolArg) (hl : LegalLength len)
    (hs : s.table.slotFor s.symbolArg = none) : exec (.ctLoad len) s = .next (s.raise .tableFull s.symbolArg) := by
  simp only [exec, execCtLoad, hy, not_true, if_false, dif_pos hl, hs]

theorem exec_ctLoad_of_slot {s : State} {len : Fin 65} {i : Fin 256} {tab : SymTable} (hy : LegalSymbol s.symbolArg)
    (hl : LegalLength len.val) (hs : s.table.slotFor s.symbolArg = some (i, tab)) :
    exec (.ctLoad len.val) s = .next { s with table := tab.setCode i (lowBits s.patternArg len.val) len } := by
  simp only [exec, execCtLoad, hy, not_true, if_false, dif_pos hl, hs]

/-- Masking to the low `len` bits, as the pseudocode of R76 writes it. -/
theorem lowBits_eq_and (p : BitVec 64) {len : Nat} (h : len ≤ 64) : lowBits p len = p &&& BitVec.ofNat 64 (2 ^ len - 1) := by
  have hpow : 2 ^ len ≤ 2 ^ 64 := Nat.pow_le_pow_right (by decide) h
  apply BitVec.eq_of_toNat_eq
  rw [lowBits, BitVec.toNat_and, BitVec.toNat_ofNat, BitVec.toNat_ofNat,
    Nat.mod_eq_of_lt ((Nat.mod_le _ _).trans_lt p.isLt), Nat.mod_eq_of_lt (a := 2 ^ len - 1) (by omega),
    Nat.and_two_pow_sub_one_eq_mod]

/-- A new symbol in a table with room gets the next slot, with count 0; the other slots stay. -/
theorem SymTable.slotFor_of_new_of_room {t : SymTable} {y : Word} {i : Fin 256} (hi : i.val = t.nsym.val)
    (hy : ∀ j : Fin 256, j.val < t.nsym.val → t.symbolAt j ≠ y) :
    ∃ tab, t.slotFor y = some (i, tab) ∧ tab.nsym.val = t.nsym.val + 1 ∧ tab.total = t.total ∧
      ∀ j : Fin 256, tab.slots[j] = if i = j then ⟨y.setWidth 21, 0, 0, 0⟩ else t.slots[j] := by
  have hroom : t.alloc y ≠ none := fun h => by
    have := SymTable.alloc_none.1 h
    omega
  obtain ⟨⟨k, tab⟩, ha⟩ := Option.ne_none_iff_exists'.1 hroom
  obtain ⟨hk, hn, htot, hslots⟩ := SymTable.alloc_some ha
  obtain rfl : k = i := Fin.ext (hk.trans hi.symm)
  exact ⟨tab, (SymTable.slotFor_of_new hy).trans ha, hn, htot, hslots⟩

/-- Settles O37: CT_LOAD writes to the slot the symbol has, or to the one `alloc` gives it. -/
theorem ctLoadWrites : Obligations.CtLoadWrites := by
  refine ⟨fun s len => ⟨fun hy => exec_ctLoad_of_illegal (BitVec.not_le.2 hy), ?badLength, ?full⟩, ?written⟩
  case badLength =>
    intro hy hl
    exact exec_ctLoad_of_bad_length hy fun ⟨h1, h64⟩ => hl.elim (Nat.not_lt.2 h1) (Nat.not_lt.2 h64)
  case full =>
    intro hy h1 h64 hfull hnew
    exact exec_ctLoad_of_full hy ⟨h1, h64⟩ (SymTable.slotFor_none.2 ⟨SymTable.lookup_none.2 hnew, hfull⟩)
  case written =>
    intro s len y code hy hpos
    have h64 : len.val ≤ 64 := Nat.le_of_lt_succ len.isLt
    have hcode : lowBits s.patternArg len.val = code := lowBits_eq_and _ h64
    constructor
    · intro i hi hiy hu
      refine ⟨s.table.setCode i code len, hcode ▸ exec_ctLoad_of_slot hy ⟨hpos, h64⟩ (SymTable.slotFor_of_unique hi hiy hu),
        rfl, rfl, ?_, ?_⟩
      · rw [SymTable.setCode_slots, if_pos rfl]
      · intro j hj
        rw [SymTable.setCode_slots, if_neg hj.symm]
    · intro i hi hnew
      obtain ⟨tab, hs, hn, htot, hslots⟩ := SymTable.slotFor_of_new_of_room hi hnew
      refine ⟨tab.setCode i code len, hcode ▸ exec_ctLoad_of_slot hy ⟨hpos, h64⟩ hs, hn, htot, ?_, ?_⟩
      · rw [SymTable.setCode_slots, if_pos rfl, hslots, if_pos rfl]
      · intro j hj
        rw [SymTable.setCode_slots, if_neg hj.symm, hslots, if_neg hj.symm]

/-! ## A path and the number it spells (R74) -/

theorem pathValue_concat (p : List Bool) (b : Bool) : pathValue (p ++ [b]) = Nat.bit b (pathValue p) := by
  rw [Nat.bit_val, pathValue, List.foldl_append]
  rfl

/-- The number the walk carries, one step to the left. -/
theorem pathValue_concat_false (p : List Bool) : pathValue (p ++ [false]) = pathValue p <<< 1 := by
  rw [pathValue_concat, Nat.bit_false_apply, Nat.shiftLeft_eq, Nat.mul_comm, Nat.pow_one]

/-- The number the walk carries, one step to the right. -/
theorem pathValue_concat_true (p : List Bool) : pathValue (p ++ [true]) = pathValue p <<< 1 ||| 1 := by
  rw [pathValue_concat, Nat.bit_true_apply, ← Nat.shiftLeft_add_eq_or_of_lt (by decide), Nat.shiftLeft_eq, Nat.mul_comm,
    Nat.pow_one]

theorem pathValue_lt (p : List Bool) : pathValue p < 2 ^ p.length := by
  induction p using List.reverseRecOn with
  | nil => decide
  | append_singleton p b ih =>
    have := b.toNat_lt
    rw [pathValue_concat, Nat.bit_val, List.length_append, List.length_singleton, Nat.pow_succ]
    omega

/-- The bits of the number a path spells, the most significant first, are the path. -/
theorem map_testBit_pathValue (p : List Bool) :
    (List.range p.length).map (fun j => (pathValue p).testBit (p.length - 1 - j)) = p := by
  induction p using List.reverseRecOn with
  | nil => rfl
  | append_singleton p b ih =>
    rw [List.length_append, List.length_singleton, List.range_succ, List.map_append, List.map_singleton, pathValue_concat,
      Nat.add_sub_cancel, Nat.sub_self, Nat.testBit_bit_zero]
    congr 1
    calc (List.range p.length).map (fun j => (Nat.bit b (pathValue p)).testBit (p.length - j))
        = (List.range p.length).map (fun j => (pathValue p).testBit (p.length - 1 - j)) := by
          refine List.map_congr_left fun j hj => ?_
          have hlt := List.mem_range.1 hj
          rw [show p.length - j = (p.length - 1 - j) + 1 by omega, Nat.testBit_bit_succ]
      _ = p := ih

theorem msbFirst_pathValue {p : List Bool} (h : p.length ≤ 64) :
    msbFirst (BitVec.ofNat 64 (pathValue p)) p.length = p := by
  have hlt : pathValue p < 2 ^ 64 := (pathValue_lt p).trans_le (Nat.pow_le_pow_right (by decide) h)
  rw [msbFirst]
  simpa only [BitVec.getLsbD, BitVec.toNat_ofNat, Nat.mod_eq_of_lt hlt] using map_testBit_pathValue p

/-! ## What the walk of R73 leaves in every slot -/

/-- Slot `x` with the leaf at the end of path `p` recorded. -/
def Slot.recorded (x : Slot) (p : List Bool) : Slot :=
  ⟨x.sym, x.count, BitVec.ofNat 64 (pathValue p), Fin.ofNat 65 (max p.length 1)⟩

theorem Slot.recorded_len {p : List Bool} (x : Slot) (h : p.length ≤ 64) :
    (x.recorded p).len.val = max p.length 1 :=
  Nat.mod_eq_of_lt (by omega)

theorem Slot.recorded_code_toNat {p : List Bool} (x : Slot) (h : p.length ≤ 64) :
    (x.recorded p).code.toNat = pathValue p :=
  Nat.mod_eq_of_lt ((pathValue_lt p).trans_le (Nat.pow_le_pow_right (by decide) h))

@[simp] theorem Slot.recorded_recorded (x : Slot) (p q : List Bool) : (x.recorded p).recorded q = x.recorded q := rfl

theorem Slot.recorded_len_of_ne_nil {p : List Bool} (x : Slot) (hp : p ≠ []) (h : p.length ≤ 64) :
    (x.recorded p).len.val = p.length :=
  (x.recorded_len h).trans (Nat.max_eq_left (List.length_pos_iff.2 hp))

/-- The code recorded for a leaf below a node is the leaf's path. -/
theorem Slot.recorded_bits {p : List Bool} (x : Slot) (hp : p ≠ []) (h : p.length ≤ 64) : (x.recorded p).bits = p := by
  rw [Slot.bits, x.recorded_len_of_ne_nil hp h]
  exact msbFirst_pathValue h

/-- The walk of the subtree at `r`, which the path `pre` leads to, turned `tab` into `tab'`: no leaf was too deep, a slot
without a leaf there stays, and every other slot has the path of one of its leaves recorded. -/
structure Tree.Walked (t : Tree) (r : Ref) (pre : List Bool) (tab tab' : SymTable) : Prop where
  nsym : tab'.nsym = tab.nsym
  total : tab'.total = tab.total
  short : ∀ q i, t.follow r q = some (.leaf i) → (pre ++ q).length ≤ 64
  slot : ∀ i : Fin 256,
    ((∀ q, t.follow r q ≠ some (.leaf i)) ∧ tab'.slots[i] = tab.slots[i]) ∨
    ∃ q, t.follow r q = some (.leaf i) ∧ tab'.slots[i] = tab.slots[i].recorded (pre ++ q)

theorem Tree.follow_leaf_eq_some {t : Tree} {i j : Fin 256} {q : List Bool} :
    t.follow (.leaf i) q = some (.leaf j) ↔ q = [] ∧ j = i := by
  cases q <;> simp [eq_comm]

theorem Tree.follow_empty_ne_leaf {t : Tree} {i : Fin 256} {q : List Bool} : t.follow .empty q ≠ some (.leaf i) := by
  cases q <;> simp

/-- A path from a node to a leaf starts with a step. -/
theorem Tree.follow_node_eq_leaf {t : Tree} {k : Fin 1024} {i : Fin 256} {q : List Bool} :
    t.follow (.node k) q = some (.leaf i) ↔ ∃ b p, q = b :: p ∧ t.follow (t.nodes[k].child b) p = some (.leaf i) := by
  cases q <;> simp

theorem Tree.walked_empty (t : Tree) (pre : List Bool) (tab : SymTable) : t.Walked .empty pre tab tab where
  nsym := rfl
  total := rfl
  short _ _ h := absurd h Tree.follow_empty_ne_leaf
  slot _ := .inl ⟨fun _ => Tree.follow_empty_ne_leaf, rfl⟩

theorem Tree.walked_leaf (t : Tree) {pre : List Bool} (tab : SymTable) (i : Fin 256) (h : pre.length ≤ 64) :
    t.Walked (.leaf i) pre tab
      (tab.setCode i (BitVec.ofNat 64 (pathValue pre)) (Fin.ofNat 65 (max pre.length 1))) where
  nsym := rfl
  total := rfl
  short q j hq := by
    obtain ⟨rfl, -⟩ := Tree.follow_leaf_eq_some.1 hq
    rwa [List.append_nil]
  slot j := by
    rw [SymTable.setCode_slots]
    by_cases hij : i = j
    · subst hij
      exact .inr ⟨[], rfl, by rw [if_pos rfl, List.append_nil, Slot.recorded]⟩
    · exact .inl ⟨fun q hq => hij (Tree.follow_leaf_eq_some.1 hq).2.symm, if_neg hij⟩

/-- The left subtree walked, then the right one: the right one's leaves overwrite the left one's. -/
theorem Tree.walked_node {t : Tree} {k : Fin 1024} {pre : List Bool} {tab tab₀ tab₁ : SymTable}
    (h₀ : t.Walked t.nodes[k].c0 (pre ++ [false]) tab tab₀) (h₁ : t.Walked t.nodes[k].c1 (pre ++ [true]) tab₀ tab₁) :
    t.Walked (.node k) pre tab tab₁ where
  nsym := h₁.nsym.trans h₀.nsym
  total := h₁.total.trans h₀.total
  short q i hq := by
    obtain ⟨b, p, rfl, hp⟩ := Tree.follow_node_eq_leaf.1 hq
    rw [List.append_cons pre b p]
    cases b with
    | false => exact h₀.short p i hp
    | true => exact h₁.short p i hp
  slot i := by
    rcases h₁.slot i with ⟨hno₁, heq₁⟩ | ⟨p, hp, heq₁⟩
    · rcases h₀.slot i with ⟨hno₀, heq₀⟩ | ⟨p, hp, heq₀⟩
      · refine .inl ⟨fun q hq => ?_, heq₁.trans heq₀⟩
        obtain ⟨b, p, -, hp⟩ := Tree.follow_node_eq_leaf.1 hq
        cases b with
        | false => exact hno₀ p hp
        | true => exact hno₁ p hp
      · exact .inr ⟨false :: p, hp, by rw [heq₁, heq₀, List.append_cons pre false p]⟩
    · refine .inr ⟨true :: p, hp, ?_⟩
      rw [heq₁, List.append_cons pre true p]
      rcases h₀.slot i with ⟨-, heq₀⟩ | ⟨q, -, heq₀⟩
      · rw [heq₀]
      · rw [heq₀, Slot.recorded_recorded]

/-- What a walk that comes to its end did. -/
theorem Tree.walk_done_cases {t : Tree} {fuel : Nat} {r : Ref} {p l : Nat} {tab tab' : SymTable}
    (h : t.walk fuel r p l tab = .done tab') :
    (r = .empty ∧ tab' = tab) ∨
    (∃ i, r = .leaf i ∧ l ≤ 64 ∧ tab' = tab.setCode i (BitVec.ofNat 64 p) (Fin.ofNat 65 (max l 1))) ∨
    ∃ n k tab₀, fuel = n + 1 ∧ r = .node k ∧ t.walk n t.nodes[k].c0 (p <<< 1) (l + 1) tab = .done tab₀ ∧
      t.walk n t.nodes[k].c1 (p <<< 1 ||| 1) (l + 1) tab₀ = .done tab' := by
  cases r with
  | empty =>
    rw [Tree.walk] at h
    exact .inl ⟨rfl, (WalkEnd.done.inj h).symm⟩
  | leaf i =>
    rw [Tree.walk] at h
    split at h
    · next hl =>
      have hfin : Fin.ofNat 65 (max l 1) = ⟨max l 1, by omega⟩ := Fin.ext (Nat.mod_eq_of_lt (by omega))
      exact .inr (.inl ⟨i, rfl, hl, hfin ▸ (WalkEnd.done.inj h).symm⟩)
    · cases h
  | node k =>
    cases fuel with
    | zero => cases h
    | succ n =>
      rw [Tree.walk] at h
      split at h
      · next tab₀ h₀ => exact .inr (.inr ⟨n, k, tab₀, rfl, rfl, h₀, h⟩)
      · next hne => exact absurd h (hne tab')

/-- By induction on the nodes a path may still have: a walk that comes to its end has walked the subtree. -/
theorem Tree.walked_of_walk_done {t : Tree} {fuel : Nat} {r : Ref} {pre : List Bool} {tab tab' : SymTable}
    (h : t.walk fuel r (pathValue pre) pre.length tab = .done tab') : t.Walked r pre tab tab' := by
  induction fuel using Nat.strong_induction_on generalizing r pre tab tab' with
  | _ fuel ih =>
    obtain ⟨rfl, rfl⟩ | ⟨i, rfl, hl, rfl⟩ | ⟨n, k, tab₀, rfl, rfl, h₀, h₁⟩ := Tree.walk_done_cases h
    · exact t.walked_empty pre tab'
    · exact t.walked_leaf tab i hl
    · have hlen : ∀ b, (pre ++ [b]).length = pre.length + 1 := fun _ => List.length_append
      rw [← pathValue_concat_false, ← hlen false] at h₀
      rw [← pathValue_concat_true, ← hlen true] at h₁
      exact Tree.walked_node (ih n n.lt_succ_self h₀) (ih n n.lt_succ_self h₁)

@[simp] theorem SymTable.clearCodes_nsym (t : SymTable) : t.clearCodes.nsym = t.nsym :=
  List.foldlRecOn (motive := fun tab : SymTable => tab.nsym = t.nsym) t.valid _ rfl fun _ h _ _ => h

/-- CT_DERIVE answered without recording an error: the tree was walked from its root. -/
theorem exec_ctDerive_walked {s t : State} (h : exec .ctDerive s = .next t) (he : t.error.err = false) :
    ∃ tab, t = { s with table := tab } ∧ s.tree.Walked s.tree.root [] s.table.clearCodes tab := by
  obtain ⟨tab, hw, rfl⟩ | ⟨i, tab, -, rfl⟩ := execCtDerive_cases h
  · exact ⟨tab, rfl, Tree.walked_of_walk_done (pre := []) hw⟩
  · simp at he

/-! ## The leaves below a Ref, with their paths -/

/-- A leaf and the path to it. -/
abbrev LeafRow := List Bool × Fin 256

/-- The rows of a subtree, seen from its parent node, to which it is child `b`. -/
def underBit (b : Bool) (rows : List LeafRow) : List LeafRow := rows.map fun x => (b :: x.1, x.2)

/-- The subtree at a Ref is finite, within the allocated nodes and without an EMPTY child; `rows` are its leaves with their
paths, left before right. -/
inductive Tree.Leaves (t : Tree) : Ref → List LeafRow → Prop
  | leaf (i : Fin 256) : t.Leaves (.leaf i) [([], i)]
  | node (k : Fin 1024) (rows₀ rows₁ : List LeafRow) (hk : k.val < t.nnode.val) (h₀ : t.Leaves t.nodes[k].c0 rows₀)
      (h₁ : t.Leaves t.nodes[k].c1 rows₁) : t.Leaves (.node k) (underBit false rows₀ ++ underBit true rows₁)

@[simp] theorem underBit_map_snd (b : Bool) (rows : List LeafRow) :
    (underBit b rows).map Prod.snd = rows.map Prod.snd := by
  simp [underBit]

theorem mem_underBit {b c : Bool} {p : List Bool} {i : Fin 256} {rows : List LeafRow} :
    (c :: p, i) ∈ underBit b rows ↔ c = b ∧ (p, i) ∈ rows := by
  simp [underBit, eq_comm, and_left_comm]

theorem underBit_length_le {b : Bool} {rows : List LeafRow} {depth : Nat} :
    (∀ x ∈ underBit b rows, x.1.length ≤ depth + 1) ↔ ∀ x ∈ rows, x.1.length ≤ depth := by
  rw [underBit, List.forall_mem_map]
  simp only [List.length_cons, Nat.add_le_add_iff_right]

/-- One step deeper, a row has half the share. -/
theorem underBit_shares (b : Bool) (rows : List LeafRow) (depth : Nat) :
    (underBit b rows).map (fun x => 2 ^ (depth + 1 - x.1.length)) = rows.map fun x => 2 ^ (depth - x.1.length) := by
  simp [underBit]

theorem nil_not_mem_underBit {b : Bool} {i : Fin 256} {rows : List LeafRow} : ([], i) ∉ underBit b rows := by
  simp [underBit]

namespace Tree.Leaves

variable {t t' : Tree} {r : Ref} {rows : List LeafRow}

/-- The rows are the leaves with their paths. -/
theorem mem_iff (h : t.Leaves r rows) {p : List Bool} {i : Fin 256} :
    (p, i) ∈ rows ↔ t.follow r p = some (.leaf i) := by
  induction h generalizing p with
  | leaf j => simp [Tree.follow_leaf_eq_some]
  | node k rows₀ rows₁ hk h₀ h₁ ih₀ ih₁ =>
    rw [List.mem_append]
    cases p with
    | nil => simp [nil_not_mem_underBit]
    | cons b p => cases b <;> simp [mem_underBit, ih₀, ih₁, Node.child]

/-- Where no slot has two leaves, each leaf has one path. -/
theorem follow_eq_leaf_iff (h : t.Leaves r rows) (hnodup : (rows.map Prod.snd).Nodup) {p : List Bool} {i : Fin 256}
    (hp : (p, i) ∈ rows) (q : List Bool) : t.follow r q = some (.leaf i) ↔ q = p := by
  constructor
  · intro hq
    exact congrArg Prod.fst (List.inj_on_of_nodup_map hnodup (h.mem_iff.2 hq) hp rfl)
  · rintro rfl
    exact h.mem_iff.1 hp

/-- Only a bare leaf has the empty path, so that two rows or more have none. -/
theorem path_ne_nil (h : t.Leaves r rows) (htwo : 2 ≤ rows.length) {x : LeafRow} (hx : x ∈ rows) : x.1 ≠ [] := by
  cases h with
  | leaf i => simp at htwo
  | node k rows₀ rows₁ =>
    obtain ⟨p, i⟩ := x
    rintro rfl
    exact (List.mem_append.1 hx).elim nil_not_mem_underBit nil_not_mem_underBit

/-- A tree memory that keeps the allocated nodes keeps the subtrees. -/
theorem mono (h : t.Leaves r rows) (hn : t.nnode.val ≤ t'.nnode.val)
    (hnodes : ∀ k : Fin 1024, k.val < t.nnode.val → t'.nodes[k] = t.nodes[k]) : t'.Leaves r rows := by
  induction h with
  | leaf i => exact .leaf i
  | node k rows₀ rows₁ hk h₀ h₁ ih₀ ih₁ =>
    rw [← hnodes k hk] at ih₀ ih₁
    exact .node k rows₀ rows₁ (hk.trans_le hn) ih₀ ih₁

theorem setRoot (h : t.Leaves r rows) (root : Ref) : Tree.Leaves { t with root := root } r rows :=
  h.mono le_rfl fun _ _ => rfl

theorem ne_nil (h : t.Leaves r rows) : rows ≠ [] := by
  induction h with
  | leaf i => simp
  | node k rows₀ rows₁ hk h₀ h₁ ih₀ ih₁ => simp [underBit, ih₀]

/-- A full binary tree's codes are complete, in units of `2 ^ (-depth)`: each child of a node has half of what the node has. -/
theorem kraft_sum (h : t.Leaves r rows) {depth : Nat} (hd : ∀ x ∈ rows, x.1.length ≤ depth) :
    (rows.map fun x => 2 ^ (depth - x.1.length)).sum = 2 ^ depth := by
  induction h generalizing depth with
  | leaf i => simp
  | node k rows₀ rows₁ hk h₀ h₁ ih₀ ih₁ =>
    obtain ⟨x, hx⟩ := List.exists_mem_of_ne_nil _ h₀.ne_nil
    have hx := hd _ (List.mem_append_left _ (List.mem_map_of_mem hx))
    obtain ⟨depth, rfl⟩ := Nat.exists_eq_succ_of_ne_zero (Nat.ne_zero_of_lt hx)
    obtain ⟨hd₀, hd₁⟩ := List.forall_mem_append.1 hd
    rw [List.map_append, List.sum_append, underBit_shares, underBit_shares, ih₀ (underBit_length_le.1 hd₀),
      ih₁ (underBit_length_le.1 hd₁), Nat.pow_succ, Nat.mul_two]

end Tree.Leaves

/-! ## The merge loop (R69) -/

/-- What every round of the merge loop keeps holds of the list with one element that is left; there is room for every node,
and a round for each. -/
theorem mergeLoop_induction {P : List Weighted → Tree → Prop}
    (hround : ∀ w r l t k t', P (w ++ [r, l]) t → t.alloc ⟨l.ref, r.ref⟩ = some (k, t') →
      P (stableSortDesc (w ++ [⟨.node k, l.weight + r.weight⟩])) t')
    {fuel : Nat} {w : List Weighted} {t : Tree} (hne : w ≠ []) (hfuel : w.length ≤ fuel)
    (hroom : t.nnode.val + w.length ≤ 1025) (h : P w t) :
    ∃ x t', P [x] t' ∧ mergeLoop fuel w t = { t' with root := x.ref } := by
  induction fuel generalizing w t with
  | zero => exact absurd (List.length_eq_zero_iff.1 (Nat.le_zero.1 hfuel)) hne
  | succ fuel ih =>
    obtain ⟨w, l, rfl⟩ := (List.eq_nil_or_concat' w).resolve_left hne
    rcases List.eq_nil_or_concat' w with rfl | ⟨w, r, rfl⟩
    · exact ⟨l, t, h, rfl⟩
    · simp only [List.length_append, List.length_singleton] at hfuel hroom
      have halloc : t.alloc ⟨l.ref, r.ref⟩ ≠ none := fun hnone => by
        have := Tree.alloc_none.1 hnone
        omega
      obtain ⟨⟨k, t'⟩, halloc⟩ := Option.ne_none_iff_exists'.1 halloc
      obtain ⟨-, hn, -, -⟩ := Tree.alloc_some halloc
      rw [List.append_assoc] at h ⊢
      rw [List.singleton_append] at h ⊢
      rw [mergeLoop_append_pair halloc]
      refine ih (fun hnil => ?_) ?_ ?_ (hround w r l t k t' h halloc)
      · simpa using congrArg List.length hnil
      · simp only [stableSortDesc_length, List.length_append, List.length_singleton]
        omega
      · simp only [stableSortDesc_length, List.length_append, List.length_singleton]
        omega

/-- The elements of the working list are full trees that together have exactly `slots` as leaves. -/
def Tree.Forest (t : Tree) (slots : List (Fin 256)) (w : List Weighted) : Prop :=
  ∃ rows : List (List LeafRow), List.Forall₂ (fun x => t.Leaves x.ref) w rows ∧ (rows.flatten.map Prod.snd).Perm slots

namespace Tree.Forest

variable {t : Tree} {slots : List (Fin 256)} {w v : List Weighted}

theorem perm (h : t.Forest slots w) (hv : v.Perm w) : t.Forest slots v := by
  obtain ⟨rows, hw, hslots⟩ := h
  obtain ⟨rows', hv', hrows⟩ := List.perm_comp_forall₂ hv hw
  exact ⟨rows', hv', (hrows.flatten.map _).trans hslots⟩

/-- Two trees become the children of a new node. -/
theorem merge {l r : Weighted} {k : Fin 1024} {t' : Tree} {weight : Nat} (h : t.Forest slots (l :: r :: w))
    (ha : t.alloc ⟨l.ref, r.ref⟩ = some (k, t')) : t'.Forest slots (⟨.node k, weight⟩ :: w) := by
  obtain ⟨hk, hn, -, hnodes⟩ := Tree.alloc_some ha
  have hkeep : ∀ {ref rows}, t.Leaves ref rows → t'.Leaves ref rows := fun hl =>
    hl.mono (by omega) fun m hm => by rw [hnodes, if_neg (by omega)]
  obtain ⟨_, hall, hslots⟩ := h
  obtain ⟨rows₀, rest, hl, hrest, rfl⟩ := List.forall₂_cons_left_iff.1 hall
  obtain ⟨rows₁, rows, hr, hw, rfl⟩ := List.forall₂_cons_left_iff.1 hrest
  refine ⟨(underBit false rows₀ ++ underBit true rows₁) :: rows, .cons (.node k _ _ (by omega) ?_ ?_)
    (hw.imp fun _ _ => hkeep), ?_⟩
  · rw [hnodes, if_pos rfl]
    exact hkeep hl
  · rw [hnodes, if_pos rfl]
    exact hkeep hr
  · simpa using hslots

/-- One round of the merge loop. -/
theorem round {r l : Weighted} {k : Fin 1024} {t' : Tree} {weight : Nat} (h : t.Forest slots (w ++ [r, l]))
    (ha : t.alloc ⟨l.ref, r.ref⟩ = some (k, t')) : t'.Forest slots (stableSortDesc (w ++ [⟨.node k, weight⟩])) :=
  have hpair : (l :: r :: w).Perm (w ++ [r, l]) := (List.Perm.swap r l w).trans (List.perm_append_comm (l₁ := [r, l]))
  ((h.perm hpair).merge ha).perm ((stableSortDesc_perm _).trans (List.perm_append_singleton _ _))

end Tree.Forest

theorem SymTable.leaves_forest (tab : SymTable) (t : Tree) : t.Forest tab.valid tab.leaves := by
  refine ⟨tab.valid.map fun i => [([], i)], ?_, ?_⟩
  · rw [SymTable.leaves, List.forall₂_map_left_iff, List.forall₂_map_right_iff]
    exact List.forall₂_same.2 fun i _ => .leaf i
  · rw [← List.flatMap_def, List.map_flatMap]
    simp

theorem Tree.build_of_two_le {t : Tree} {tab : SymTable} (h : 2 ≤ tab.nsym.val) :
    t.build tab = mergeLoop tab.nsym.val (stableSortDesc tab.leaves) { t with nnode := 0 } := by
  unfold Tree.build
  split
  · omega
  · omega
  · rfl

/-- TB_BUILD over two slots or more makes one full tree, which has exactly the valid slots as leaves. -/
theorem Tree.build_leaves (t : Tree) {tab : SymTable} (h : 2 ≤ tab.nsym.val) :
    ∃ rows, (t.build tab).Leaves (t.build tab).root rows ∧ (rows.map Prod.snd).Perm tab.valid := by
  have hlen : (stableSortDesc tab.leaves).length = tab.nsym.val := by simp [SymTable.leaves]
  have hroom : 0 + (stableSortDesc tab.leaves).length ≤ 1025 := by omega
  obtain ⟨x, t', ⟨_, hall, hslots⟩, hmerge⟩ := mergeLoop_induction (P := fun w t => t.Forest tab.valid w)
    (fun _ _ _ _ _ _ => Tree.Forest.round) (t := { t with nnode := 0 }) (List.ne_nil_of_length_pos (by omega)) hlen.le
    hroom ((tab.leaves_forest _).perm (stableSortDesc_perm _))
  obtain ⟨rows, rest, hrows, hrest, rfl⟩ := List.forall₂_cons_left_iff.1 hall
  obtain rfl := List.forall₂_nil_left_iff.1 hrest
  rw [Tree.build_of_two_le h, hmerge]
  exact ⟨rows, hrows.setRoot x.ref, by simpa using hslots⟩

/-! ## The codes of a built tree (R74) -/

/-- Codes that are the paths of one tree's leaves do not start each other: a path that goes on from a leaf leaves the tree. -/
theorem SymTable.prefixFree_of_leafPath {tab : SymTable} {t : Tree}
    (h : ∀ i, tab.Coded i → t.LeafPath tab.slots[i].bits i) : tab.PrefixFree := by
  intro i j hi hj hij
  obtain ⟨q, hq⟩ := hij
  have hj := h j hj
  rw [← hq, Tree.LeafPath, Tree.follow_append, h i hi, Option.bind_some] at hj
  exact (Tree.follow_leaf_eq_some.1 hj).2.symm

/-- The valid slots of `tab` are the leaves `rows` of the full tree `t`, each with its path of 1 to 64 steps recorded. -/
structure SymTable.RecordsTree (tab : SymTable) (t : Tree) (rows : List LeafRow) : Prop where
  leaves : t.Leaves t.root rows
  slots : (rows.map Prod.snd).Perm tab.valid
  steps : ∀ x ∈ rows, x.1 ≠ [] ∧ x.1.length ≤ 64
  recorded : ∀ x ∈ rows, ∃ old : Slot, tab.slots[x.2] = old.recorded x.1

namespace SymTable.RecordsTree

variable {tab : SymTable} {t : Tree} {rows : List LeafRow}

theorem len (h : tab.RecordsTree t rows) {x : LeafRow} (hx : x ∈ rows) : tab.slots[x.2].len.val = x.1.length := by
  obtain ⟨old, hold⟩ := h.recorded x hx
  obtain ⟨hne, h64⟩ := h.steps x hx
  rw [hold, old.recorded_len_of_ne_nil hne h64]

/-- A valid slot's code has at least one bit, fits its length and is the path to the slot's only leaf. -/
theorem code (h : tab.RecordsTree t rows) {i : Fin 256} (hi : i.val < tab.nsym.val) :
    1 ≤ tab.slots[i].len.val ∧ tab.slots[i].code.toNat < 2 ^ tab.slots[i].len.val ∧
    ∀ p, t.LeafPath p i ↔ p = tab.slots[i].bits := by
  obtain ⟨⟨p, _⟩, hp, rfl⟩ := List.mem_map.1 (h.slots.mem_iff.2 ((tab.mem_valid i).2 hi))
  obtain ⟨hne, h64⟩ := h.steps _ hp
  obtain ⟨old, hold⟩ := h.recorded _ hp
  rw [h.len hp, hold, old.recorded_code_toNat h64, old.recorded_bits hne h64]
  exact ⟨List.length_pos_iff.2 hne, pathValue_lt p,
    h.leaves.follow_eq_leaf_iff (h.slots.nodup_iff.2 tab.valid_nodup) hp⟩

theorem prefixFree (h : tab.RecordsTree t rows) : tab.PrefixFree :=
  SymTable.prefixFree_of_leafPath fun i ⟨hi, _⟩ => by
    obtain ⟨-, -, hpath⟩ := h.code hi
    exact (hpath _).2 rfl

/-- The slots' shares are those of the tree's leaves. -/
theorem kraft_sum (h : tab.RecordsTree t rows) :
    (tab.valid.map fun i => 2 ^ (64 - tab.slots[i].len.val)).sum = 2 ^ 64 := by
  calc (tab.valid.map fun i => 2 ^ (64 - tab.slots[i].len.val)).sum
      = ((rows.map Prod.snd).map fun i => 2 ^ (64 - tab.slots[i].len.val)).sum := ((h.slots.map _).sum_eq).symm
    _ = (rows.map fun x => 2 ^ (64 - x.1.length)).sum := by
        rw [List.map_map]
        exact congrArg List.sum (List.map_congr_left fun x hx => by rw [Function.comp_apply, h.len hx])
    _ = 2 ^ 64 := h.leaves.kraft_sum fun x hx => (h.steps x hx).2

end SymTable.RecordsTree

/-- A walk from the root of a full tree with each valid slot at one of its two or more leaves. -/
theorem Tree.Walked.recordsTree {t : Tree} {tab tab' : SymTable} {rows : List LeafRow}
    (hw : t.Walked t.root [] tab tab') (hl : t.Leaves t.root rows) (hslots : (rows.map Prod.snd).Perm tab'.valid)
    (htwo : 2 ≤ rows.length) : tab'.RecordsTree t rows where
  leaves := hl
  slots := hslots
  steps x hx := ⟨hl.path_ne_nil htwo hx, hw.short x.1 x.2 (hl.mem_iff.1 hx)⟩
  recorded := fun (p, i) hp => by
    have hpath := hl.follow_eq_leaf_iff (hslots.nodup_iff.2 tab'.valid_nodup) hp
    rcases hw.slot i with ⟨hno, -⟩ | ⟨q, hq, hslot⟩
    · exact absurd ((hpath p).2 rfl) (hno p)
    · exact ⟨tab.slots[i], by rw [hslot, (hpath q).1 hq, List.nil_append]⟩

/-- TB_BUILD and CT_DERIVE on two slots or more, where no error is recorded. -/
theorem exec_tbBuild_ctDerive_recordsTree {s t u : State} (htwo : 2 ≤ s.table.nsym.val) (ht : exec .tbBuild s = .next t)
    (hu : exec .ctDerive t = .next u) (he : u.error.err = false) : ∃ rows, u.table.RecordsTree u.tree rows := by
  cases ht
  obtain ⟨tab, rfl, hw⟩ := exec_ctDerive_walked hu he
  obtain ⟨rows, hl, hslots⟩ := s.tree.build_leaves htwo
  have hvalid : tab.valid = s.table.valid := by
    rw [SymTable.valid, hw.nsym, SymTable.clearCodes_nsym, SymTable.valid]
  have hlen : rows.length = s.table.nsym.val := by
    rw [← s.table.valid_length, ← hslots.length_eq, List.length_map]
  exact ⟨rows, hw.recordsTree hl (hvalid ▸ hslots) (hlen ▸ htwo)⟩

theorem SymTable.prefixFree_of_nsym_eq_one {tab : SymTable} (h : tab.nsym.val = 1) : tab.PrefixFree :=
  fun i j ⟨hi, _⟩ ⟨hj, _⟩ _ => Fin.ext (by omega)

/-- A bare leaf is recorded with one bit (R73, the single-symbol convention). -/
theorem exec_ctDerive_of_leaf {s : State} {i : Fin 256} (h : s.tree.root = .leaf i) :
    exec .ctDerive s = .next { s with table := s.table.clearCodes.setCode i 0 1 } := by
  simp only [exec, execCtDerive, h, Tree.walk]
  rfl

/-- Settles O35: with one slot the tree is the bare leaf; with more the walk records the paths of a full binary tree. -/
theorem builtCodesArePrefixFreeAndComplete : Obligations.BuiltCodesArePrefixFreeAndComplete := by
  constructor
  · intro s t u hone ht hu
    cases ht
    have hroot : (s.tree.build s.table).root = .leaf 0 := by simp [Tree.build, hone]
    rw [exec_ctDerive_of_leaf hroot] at hu
    cases hu
    have hslot := (s.table.clearCodes.setCode_slots 0 0 0 1).trans (if_pos rfl)
    exact ⟨congrArg Slot.code hslot, congrArg Slot.len hslot, SymTable.prefixFree_of_nsym_eq_one (by simpa using hone)⟩
  · intro s t u htwo ht hu he
    obtain ⟨rows, h⟩ := exec_tbBuild_ctDerive_recordsTree htwo ht hu he
    exact ⟨fun _ => h.code, h.prefixFree, h.kraft_sum⟩

end Sys2Proof.Machine
end

section
/-! PROOFS. The statements on the encoder (spec 44_encoder.md R79 to R82), with the laws they need: how the bits of a value
fall into two parts, what it means that the encoder sends bits as words, an equation per case of EN_SYM and EN_FLUSH, and one
induction over the symbols of a session. -/

namespace Sys2Proof.Machine

/-! ## The bits of a value and of the units that carry them (20_memory.md R45) -/

@[simp] theorem msbFirst_length {w : Nat} (v : BitVec w) (n : Nat) : (msbFirst v n).length = n := by
  simp [msbFirst]

@[simp] theorem msbFirst_zero_right {w : Nat} (v : BitVec w) : msbFirst v 0 = [] := rfl

@[simp] theorem msbFirst_zero_left (w n : Nat) : msbFirst (0 : BitVec w) n = List.replicate n false := by
  simp [msbFirst]

/-- Where the upper `m` of the low `m + n` bits of `z` are those of `x`, and the lower `n` those of `y`. -/
theorem msbFirst_add {u v w : Nat} {x : BitVec u} {y : BitVec v} {z : BitVec w} {m n : Nat}
    (hx : ∀ k < m, z.getLsbD (n + k) = x.getLsbD k) (hy : ∀ k < n, z.getLsbD k = y.getLsbD k) :
    msbFirst z (m + n) = msbFirst x m ++ msbFirst y n := by
  simp only [msbFirst, List.range_add, List.map_append, List.map_map]
  congr 1
  · refine List.map_congr_left fun j hj => ?_
    have hjm := List.mem_range.1 hj
    rw [← hx _ (by omega), show m + n - 1 - j = n + (m - 1 - j) by omega]
  · refine List.map_congr_left fun j hj => ?_
    have hjn := List.mem_range.1 hj
    rw [← hy _ (by omega), Function.comp_apply, show m + n - 1 - (m + j) = n - 1 - j by omega]

@[simp] theorem Slot.bits_length (x : Slot) : x.bits.length = x.len.val := msbFirst_length _ _

@[simp] theorem Encoder.heldBits_length (e : Encoder) : e.heldBits.length = e.held.toNat := msbFirst_length _ _

@[simp] theorem unitOf_unitWord (u : StorageUnit) : unitOf (unitWord u) = u :=
  BitVec.extractLsb'_append_eq_right

@[simp] theorem unitsBits_nil : unitsBits [] = [] := rfl

@[simp] theorem unitsBits_append (ws vs : List Word) : unitsBits (ws ++ vs) = unitsBits ws ++ unitsBits vs :=
  List.flatMap_append

@[simp] theorem unitsBits_unitWord (u : StorageUnit) : unitsBits [unitWord u] = msbFirst u 16 := by
  simp [unitsBits]

@[simp] theorem unitsBits_length (ws : List Word) : (unitsBits ws).length = 16 * ws.length := by
  simp [unitsBits, List.length_flatMap, Nat.mul_comm]

/-! ## What it means that the encoder sends bits (R80) -/

/-- From `e` to `e'` the encoder took `bits` and emitted the words `ws`: no bit is lost and none invented, `ws` are UNIT words
and are counted, and ACC has no bit above the held ones. -/
structure Encoder.Sends (e : Encoder) (bits : List Bool) (ws : List Word) (e' : Encoder) : Prop where
  bits : unitsBits ws ++ e'.heldBits = e.heldBits ++ bits
  units : e'.units = e.units + BitVec.ofNat 32 ws.length
  format : ∀ w ∈ ws, w = unitWord (unitOf w)
  acc : e'.acc.toNat < 2 ^ e'.held.toNat

namespace Encoder.Sends

variable {e e' e'' : Encoder} {bits bits' : List Bool} {ws ws' : List Word}

theorem refl (h : e.acc.toNat < 2 ^ e.held.toNat) : e.Sends [] [] e where
  bits := by simp
  units := by simp
  format := nofun
  acc := h

theorem trans (h : e.Sends bits ws e') (h' : e'.Sends bits' ws' e'') : e.Sends (bits ++ bits') (ws ++ ws') e'' where
  bits := by
    rw [unitsBits_append, List.append_assoc, h'.bits, ← List.append_assoc, h.bits, List.append_assoc]
  units := by
    rw [h'.units, h.units, List.length_append, BitVec.ofNat_add, BitVec.add_assoc]
  format w hw := (List.mem_append.1 hw).elim (h.format w) (h'.format w)
  acc := h'.acc

/-- The bits that went in are those that came out or are held. -/
theorem length (h : e.Sends bits ws e') : 16 * ws.length + e'.held.toNat = e.held.toNat + bits.length := by
  simpa using congrArg List.length h.bits

/-- With less than a unit held afterwards, the words sent are the whole units of all the bits. -/
theorem length_eq_div (h : e.Sends bits ws e') (hheld : e'.held.toNat ≤ 15) :
    ws.length = (e.held.toNat + bits.length) / 16 ∧ e'.held.toNat = (e.held.toNat + bits.length) % 16 := by
  have := h.length
  omega

end Encoder.Sends

/-- HELD and a code's length together do not wrap. -/
theorem Encoder.append_held {e : Encoder} (he : EncoderInv e) (x : Slot) :
    (e.append x.code x.len.val).held.toNat = e.held.toNat + x.len.val := by
  have hheld := he.held
  have hlen := x.len.isLt
  simp only [Encoder.append, BitVec.toNat_add, BitVec.toNat_ofNat]
  omega

/-- Appending a code that fits its length sends nothing yet: ACC has room for the longest code beside the held bits. -/
theorem Encoder.append_sends {e : Encoder} {x : Slot} (he : EncoderInv e) (hx : x.code.toNat < 2 ^ x.len.val) :
    e.Sends x.bits [] (e.append x.code x.len.val) := by
  obtain ⟨hheld, hacc⟩ := he
  have hlen := x.len.isLt
  have hn := Encoder.append_held ⟨hheld, hacc⟩ x
  refine ⟨?bits, by simp [Encoder.append], nofun, ?acc⟩
  case bits =>
    rw [unitsBits_nil, List.nil_append, Encoder.heldBits, hn]
    refine msbFirst_add (fun k hk => ?_) (fun k hk => ?_)
    · have hcode : x.code.getLsbD (x.len.val + k) = false :=
        Nat.testBit_lt_two_pow (hx.trans_le (Nat.pow_le_pow_right (by decide) (by omega)))
      have hroom : x.len.val + k < 80 := by omega
      rw [Encoder.append, BitVec.getLsbD_or, BitVec.getLsbD_shiftLeft, BitVec.getLsbD_setWidth, hcode]
      simp [hroom]
    · have hroom : k < 80 := by omega
      simp [Encoder.append, hk, hroom]
  case acc =>
    rw [hn, Encoder.append, BitVec.toNat_or, BitVec.toNat_shiftLeft, BitVec.toNat_setWidth]
    refine Nat.or_lt_two_pow ((Nat.mod_le _ _).trans_lt (Nat.shiftLeft_lt hacc)) ((Nat.mod_le _ _).trans_lt ?_)
    exact hx.trans_le (Nat.pow_le_pow_right (by decide) (Nat.le_add_left _ _))

theorem Encoder.dropUnit_held {e : Encoder} (h : 16 ≤ e.held.toNat) : e.dropUnit.held.toNat = e.held.toNat - 16 :=
  BitVec.toNat_sub_of_le h

/-- One round of R80's loop sends the top 16 of the held bits. -/
theorem Encoder.dropUnit_sends {e : Encoder} (h : 16 ≤ e.held.toNat) :
    e.Sends [] [unitWord e.topUnit] e.dropUnit := by
  refine ⟨?bits, rfl, by simp, ?acc⟩
  case bits =>
    have hsplit : msbFirst e.acc (16 + (e.held.toNat - 16)) =
        msbFirst e.topUnit 16 ++ msbFirst e.dropUnit.acc (e.held.toNat - 16) := by
      refine msbFirst_add (fun k hk => ?_) (fun k hk => ?_)
      · simp [Encoder.topUnit, hk]
      · rw [Encoder.dropUnit, BitVec.getLsbD_and, BitVec.getLsbD_ofNat, Nat.testBit_two_pow_sub_one]
        by_cases h80 : k < 80
        · simp [hk, h80]
        · simp [h80, BitVec.getLsbD_of_ge _ _ (Nat.not_lt.1 h80)]
    rw [unitsBits_unitWord, List.append_nil, Encoder.heldBits, Encoder.heldBits, Encoder.dropUnit_held h, ← hsplit,
      Nat.add_sub_cancel' h]
  case acc =>
    rw [Encoder.dropUnit_held h, Encoder.dropUnit, BitVec.toNat_and, BitVec.toNat_ofNat]
    have hpos := Nat.two_pow_pos (e.held.toNat - 16)
    exact Nat.and_lt_two_pow _ ((Nat.mod_le _ _).trans_lt (by omega))

/-- R80's loop loses and invents no bit, however many rounds it has. -/
theorem Encoder.drain_sends (fuel : Nat) {e : Encoder} (h : e.acc.toNat < 2 ^ e.held.toNat) :
    e.Sends [] (Encoder.drain fuel e).2 (Encoder.drain fuel e).1 := by
  induction fuel generalizing e with
  | zero => exact .refl h
  | succ n ih =>
    unfold Encoder.drain
    split
    · next h16 => exact (Encoder.dropUnit_sends h16).trans (ih (Encoder.dropUnit_sends h16).acc)
    · exact .refl h

/-- Enough rounds leave less than a unit held. -/
theorem Encoder.drain_held_lt {fuel : Nat} {e : Encoder} (h : e.held.toNat < 16 * fuel + 16) :
    (Encoder.drain fuel e).1.held.toNat < 16 := by
  induction fuel generalizing e with
  | zero => exact h
  | succ n ih =>
    unfold Encoder.drain
    split
    · next h16 =>
      have hdrop := Encoder.dropUnit_held h16
      exact ih (by omega)
    · next h16 => exact Nat.not_le.1 h16

/-- What EN_SYM does to the encoder: a code that fits its length is sent, and less than a unit stays held. -/
theorem Encoder.drain_append_sends {e e' : Encoder} {x : Slot} {ws : List Word} (he : EncoderInv e)
    (hx : x.code.toNat < 2 ^ x.len.val) (h : Encoder.drain 8 (e.append x.code x.len.val) = (e', ws)) :
    e.Sends x.bits ws e' ∧ EncoderInv e' := by
  have happend := Encoder.append_sends he hx
  have hdrain := Encoder.drain_sends 8 happend.acc
  have hlt : (e.append x.code x.len.val).held.toNat < 2 ^ 7 := (e.append x.code x.len.val).held.isLt
  have hheld := Encoder.drain_held_lt (fuel := 8) (hlt.trans (by decide))
  rw [h] at hdrain hheld
  exact ⟨List.append_nil x.bits ▸ happend.trans hdrain, Nat.le_of_lt_succ hheld, hdrain.acc⟩

/-! ## The code of a symbol (R80) -/

/-- What `codeOf` answers is a valid slot that holds the symbol and has a code. -/
theorem SymTable.codeOf_some {t : SymTable} {y : Word} {x : Slot} (h : t.codeOf y = some x) :
    ∃ i : Fin 256, i.val < t.nsym.val ∧ t.symbolAt i = y ∧ t.slots[i] = x ∧ x.len ≠ 0 := by
  unfold SymTable.codeOf at h
  split at h
  · cases h
  · next i hl =>
    obtain ⟨hi, hiy⟩ := SymTable.lookup_some hl
    split at h
    · cases h
    · next hlen =>
      cases h
      exact ⟨i, hi, hiy, rfl, hlen⟩

theorem SymTable.codeOf_eq_none {t : SymTable} {y : Word}
    (h : ∀ i : Fin 256, i.val < t.nsym.val → t.symbolAt i = y → t.slots[i].len = 0) : t.codeOf y = none := by
  cases hc : t.codeOf y with
  | none => rfl
  | some x =>
    obtain ⟨i, hi, hiy, rfl, hlen⟩ := SymTable.codeOf_some hc
    exact absurd (h i hi hiy) hlen

/-- The symbols of valid slots are distinct as 32-bit words too (10_state.md R37). -/
theorem TableInv.symbolAt_injective {t : SymTable} (ht : TableInv t) {i j : Fin 256} (hi : i.val < t.nsym.val)
    (hj : j.val < t.nsym.val) (h : t.symbolAt i = t.symbolAt j) : i = j :=
  ht.distinct i j hi hj (by simpa [SymTable.symbolAt] using congrArg (BitVec.setWidth 21) h)

theorem SymTable.lookup_symbolAt {t : SymTable} (ht : TableInv t) {i : Fin 256} (hi : i.val < t.nsym.val) :
    t.lookup (t.symbolAt i) = some i := by
  cases hl : t.lookup (t.symbolAt i) with
  | none => exact absurd rfl (SymTable.lookup_none.1 hl i hi)
  | some k =>
    obtain ⟨hk, hki⟩ := SymTable.lookup_some hl
    rw [ht.symbolAt_injective hk hi hki]

theorem SymTable.codeOf_symbolAt {t : SymTable} (ht : TableInv t) {i : Fin 256} (hi : i.val < t.nsym.val)
    (hlen : t.slots[i].len ≠ 0) : t.codeOf (t.symbolAt i) = some t.slots[i] := by
  simp only [SymTable.codeOf, SymTable.lookup_symbolAt ht hi, if_neg hlen]

theorem TableInv.codeOf_fits {t : SymTable} (ht : TableInv t) {y : Word} {x : Slot} (h : t.codeOf y = some x) :
    x.code.toNat < 2 ^ x.len.val := by
  obtain ⟨i, hi, -, rfl, -⟩ := SymTable.codeOf_some h
  exact ht.codeFits i hi

/-! ## EN_START (R79) -/

theorem exec_enStart (s : State) : exec .enStart s = .next { s with enc := ⟨true, 0, 0, 0⟩ } := rfl

/-- Settles O43: it is what EN_START does. -/
theorem enStartOpens : Obligations.EnStartOpens := exec_enStart

/-! ## The cases of EN_SYM (R80) -/

theorem exec_enSym_of_no_session {s : State} (ha : s.enc.act = false) :
    exec .enSym s = .next (s.raise .sequence 0) := by
  simp [exec, execEnSym, ha]

theorem exec_enSym_of_illegal {s : State} (ha : s.enc.act = true) (hy : ¬ LegalSymbol s.symbolArg) :
    exec .enSym s = .next (s.raise .badSymbol s.symbolArg) := by
  simp [exec, execEnSym, ha, hy]

theorem exec_enSym_of_no_code {s : State} (ha : s.enc.act = true) (hy : LegalSymbol s.symbolArg)
    (hc : s.table.codeOf s.symbolArg = none) : exec .enSym s = .next (s.raise .missingCode s.symbolArg) := by
  simp [exec, execEnSym, ha, hy, hc]

theorem exec_enSym_of_code {s : State} {x : Slot} (ha : s.enc.act = true) (hy : LegalSymbol s.symbolArg)
    (hc : s.table.codeOf s.symbolArg = some x) :
    exec .enSym s = .next (State.emit { s with enc := (Encoder.drain 8 (s.enc.append x.code x.len.val)).1 }
      (Encoder.drain 8 (s.enc.append x.code x.len.val)).2) := by
  simp [exec, execEnSym, ha, hy, hc]

/-- Settles O44: the code is sent, and the lengths follow from the bits, with less than 16 of them left. -/
theorem enSymSendsCode : Obligations.EnSymSendsCode := by
  constructor
  · intro s
    refine ⟨exec_enSym_of_no_session, fun ha hy => exec_enSym_of_illegal ha (BitVec.not_le.2 hy), fun ha hy hno => ?_⟩
    exact exec_enSym_of_no_code ha hy (SymTable.codeOf_eq_none hno)
  · intro s i y n ht he ha hy hi hiy hlen
    obtain ⟨hsends, hinv⟩ := Encoder.drain_append_sends he (ht.codeFits i hi) rfl
    have hcode : s.table.codeOf y = some s.table.slots[i] := hiy ▸ SymTable.codeOf_symbolAt ht hi hlen
    obtain ⟨hlength, hheld⟩ := hsends.length_eq_div hinv.held
    rw [Slot.bits_length] at hlength hheld
    exact ⟨_, _, exec_enSym_of_code ha hy hcode, (Encoder.drain_act _ _).trans ha, hheld, hlength, hsends.units,
      hsends.format, hsends.bits, hsends.acc⟩

/-! ## The cases of EN_FLUSH (R81) -/

theorem exec_enFlush_of_no_session {s : State} (ha : s.enc.act = false) :
    exec .enFlush s = .next (s.raise .sequence 0) := by
  simp [exec, execEnFlush, ha]

theorem exec_enFlush_of_none_held {s : State} (ha : s.enc.act = true) (hh : s.enc.held = 0) :
    exec .enFlush s = .next (State.setRes { s with enc := ⟨false, 0, 0, s.enc.units⟩ } 0 s.enc.units 0 0) := by
  simp [exec, execEnFlush, ha, hh]

theorem exec_enFlush_of_held {s : State} (ha : s.enc.act = true) (hh : 0 < s.enc.held.toNat) :
    exec .enFlush s = .next
      (State.setRes (State.emit { s with enc := ⟨false, 0, 0, s.enc.units + 1⟩ } [unitWord s.enc.paddedUnit])
        (word32 (16 - s.enc.held.toNat)) (s.enc.units + 1) 0 0) := by
  simp [exec, execEnFlush, ha, hh]

/-- The padded unit is the held bits followed by zeros. -/
theorem Encoder.msbFirst_paddedUnit {e : Encoder} (h : e.held.toNat ≤ 16) :
    msbFirst e.paddedUnit 16 = e.heldBits ++ List.replicate (16 - e.held.toNat) false := by
  have hsplit : msbFirst e.paddedUnit (e.held.toNat + (16 - e.held.toNat)) =
      msbFirst e.acc e.held.toNat ++ msbFirst (0 : BitVec 0) (16 - e.held.toNat) := by
    refine msbFirst_add (fun k hk => ?_) (fun k hk => ?_)
    · have hlow : 16 - e.held.toNat + k < 16 := by omega
      simp [Encoder.paddedUnit, hlow]
    · simp [Encoder.paddedUnit, hk]
  rwa [Nat.add_sub_cancel' h, msbFirst_zero_left] at hsplit

/-- Settles O45: one case each for no session, nothing held and 1 to 15 bits held. -/
theorem enFlushPads : Obligations.EnFlushPads := fun s =>
  ⟨exec_enFlush_of_no_session, exec_enFlush_of_none_held, fun ha hpos h15 =>
    ⟨s.enc.paddedUnit, Encoder.msbFirst_paddedUnit (h15.trans (by decide)), exec_enFlush_of_held ha hpos⟩⟩

/-! ## A session (R82) -/

/-- The zero bits that fill up the last unit of `n` bits (R81): none where it is full. -/
def skipCount (n : Nat) : Nat := (16 - n % 16) % 16

namespace Encoder.Sends

variable {e' : Encoder} {bits : List Bool} {ws last : List Word}

/-- The encoder as EN_START leaves it holds nothing, so what it sends or holds later is all that went in. -/
theorem of_start (h : Encoder.Sends ⟨true, 0, 0, 0⟩ bits ws e') :
    unitsBits ws ++ e'.heldBits = bits ∧ e'.units = BitVec.ofNat 32 ws.length :=
  ⟨h.bits, by simpa using h.units⟩

theorem skipCount_held (h : Encoder.Sends ⟨true, 0, 0, 0⟩ bits ws e') :
    skipCount e'.held.toNat = skipCount bits.length := by
  obtain ⟨rfl, -⟩ := h.of_start
  rw [List.length_append, unitsBits_length, Encoder.heldBits_length, skipCount, skipCount, Nat.mul_add_mod]

/-- Whole units that carry the held bits and fill up with zeros make a payload of all that went in. -/
theorem payload (h : Encoder.Sends ⟨true, 0, 0, 0⟩ bits ws e')
    (hlast : unitsBits last = e'.heldBits ++ List.replicate (skipCount e'.held.toNat) false) :
    unitsBits (ws ++ last) = bits ++ List.replicate (skipCount bits.length) false := by
  rw [unitsBits_append, hlast, ← List.append_assoc, h.skipCount_held, h.of_start.1]

theorem payload_length (h : Encoder.Sends ⟨true, 0, 0, 0⟩ bits ws e')
    (hlast : unitsBits last = e'.heldBits ++ List.replicate (skipCount e'.held.toNat) false) :
    16 * (ws ++ last).length = bits.length + skipCount bits.length := by
  rw [← unitsBits_length, h.payload hlast, List.length_append, List.length_replicate]

end Encoder.Sends

/-- The EN_SYMs of `text`, from `s` to `t`, sent the codes of the slots `rows` as the words `ws`. -/
structure SendsText (s : State) (text : List Word) (rows : List Slot) (ws : List Word) (t : State) : Prop where
  table : t.table = s.table
  codes : text.map s.table.codeOf = rows.map some
  pend : t.pend = s.pend ++ ws
  sends : s.enc.Sends (rows.flatMap Slot.bits) ws t.enc
  enc : EncoderInv t.enc

theorem issue_enStart {s t : State} (h : issue (plain .enStart) s = .next t) :
    t.table = s.table ∧ t.pend = s.pend ∧ t.enc = ⟨true, 0, 0, 0⟩ := by
  cases h
  exact ⟨rfl, rfl, rfl⟩

/-- EN_SYM issued: where no error is recorded afterwards, none was recorded before, and the symbol's code went in. -/
theorem issue_enSym_of_clear {y : Word} {s t : State} (h : issue (withSymbol .enSym y) s = .next t)
    (he : t.error.err = false) :
    s.error.err = false ∧ t.table = s.table ∧ ∃ x ws, s.table.codeOf y = some x ∧ t.pend = s.pend ++ ws ∧
      Encoder.drain 8 (s.enc.append x.code x.len.val) = (t.enc, ws) := by
  obtain ⟨u, hu, rfl⟩ := perform_cases h
  obtain ⟨-, rfl⟩ | ⟨-, -, rfl⟩ | ⟨-, -, -, rfl⟩ | ⟨-, -, x, hx, rfl⟩ := execEnSym_cases hu
  · simp at he
  · simp at he
  · simp at he
  · exact ⟨he, rfl, x, _, hx, rfl, rfl⟩

/-- EN_SYM of every symbol of a text in an open session, while no error is recorded. -/
theorem issueAll_enSym_sendsText {text : List Word} {s t : State} (ht : TableInv s.table) (hs : EncoderInv s.enc)
    (h : issueAll (text.map (withSymbol .enSym)) s = .next t) (he : t.error.err = false) :
    ∃ rows ws, SendsText s text rows ws t := by
  induction text using List.reverseRecOn generalizing t with
  | nil =>
    cases h
    exact ⟨[], [], rfl, rfl, (List.append_nil _).symm, .refl hs.acc, hs⟩
  | append_singleton text y ih =>
    rw [List.map_append, List.map_singleton, issueAll_append] at h
    obtain ⟨u, hu, hy⟩ := h
    rw [issueAll_singleton] at hy
    obtain ⟨hue, htable, x, vs, hx, hpend, hdrain⟩ := issue_enSym_of_clear hy he
    obtain ⟨rows, ws, hsent⟩ := ih hu hue
    rw [hsent.table] at hx htable
    obtain ⟨hsends, hinv⟩ := Encoder.drain_append_sends hsent.enc (ht.codeOf_fits hx) hdrain
    refine ⟨rows ++ [x], ws ++ vs, htable, ?codes, ?pend, ?sends, hinv⟩
    case codes => rw [List.map_append, hsent.codes, List.map_append, List.map_singleton, List.map_singleton, hx]
    case pend => rw [hpend, hsent.pend, List.append_assoc]
    case sends =>
      rw [List.flatMap_append, List.flatMap_singleton]
      exact hsent.sends.trans hsends

/-- EN_FLUSH issued: where no error is recorded afterwards, none was recorded before, and from 0 to 15 held bits it makes
whole units with zeros after them, and reports how many zeros and how many units. -/
theorem issue_enFlush_of_clear {s t : State} (h : issue (plain .enFlush) s = .next t) (he : t.error.err = false) :
    s.error.err = false ∧ (s.enc.held.toNat ≤ 15 → ∃ ws, t.pend = s.pend ++ ws ∧
      unitsBits ws = s.enc.heldBits ++ List.replicate (skipCount s.enc.held.toNat) false ∧
      t.res = ⟨BitVec.ofNat 32 (skipCount s.enc.held.toNat), s.enc.units + BitVec.ofNat 32 ws.length, 0, 0⟩) := by
  obtain ⟨u, hu, rfl⟩ := perform_cases h
  obtain ⟨-, rfl⟩ | ⟨-, hpos, rfl⟩ | ⟨-, hzero, rfl⟩ := execEnFlush_cases hu
  · simp at he
  · refine ⟨he, fun h15 => ⟨[unitWord s.enc.paddedUnit], rfl, ?_⟩⟩
    have hpos : 0 < s.enc.held.toNat := hpos
    have hskip : skipCount s.enc.held.toNat = 16 - s.enc.held.toNat := by
      rw [skipCount]
      omega
    rw [hskip, unitsBits_unitWord]
    exact ⟨Encoder.msbFirst_paddedUnit (h15.trans (by decide)), rfl⟩
  · have hzero : s.enc.held.toNat = 0 := hzero
    refine ⟨he, fun _ => ⟨[], (List.append_nil _).symm, ?_⟩⟩
    simp [Encoder.heldBits, skipCount, hzero]

/-- Settles O46: the words of the EN_SYMs and the last unit of EN_FLUSH together spell the codes and the zeros that fill up
that unit; the numbers follow from the lengths. -/
theorem sessionPayload : Obligations.SessionPayload := by
  intro s t text ht h he
  rw [encodeSession, List.cons_append, issueAll_cons] at h
  obtain ⟨u, hu, h⟩ := h
  obtain ⟨v, hv, hflush⟩ := issueAll_append.1 h
  rw [issueAll_singleton] at hflush
  obtain ⟨htable, hpend, henc⟩ := issue_enStart hu
  obtain ⟨hve, hlast⟩ := issue_enFlush_of_clear hflush he
  obtain ⟨rows, ws, hsent⟩ := issueAll_enSym_sendsText (htable ▸ ht) (henc ▸ ⟨by decide, by decide⟩) hv hve
  obtain ⟨last, htpend, hlastBits, hres⟩ := hlast hsent.enc.held
  have hsends := hsent.sends
  rw [henc] at hsends
  have hB : (rows.flatMap Slot.bits).length = (rows.map fun x => x.len.val).sum := by simp [List.length_flatMap]
  have hskip := hsends.skipCount_held
  have hbits := hsends.payload hlastBits
  have hlength := hsends.payload_length hlastBits
  rw [hB] at hskip hbits hlength
  rw [skipCount] at hlength
  refine ⟨rows, ws ++ last, htable ▸ hsent.codes, ?pend, by omega, ?res, by omega, hbits⟩
  case pend => rw [htpend, hsent.pend, hpend, List.append_assoc]
  case res =>
    rw [hres, hskip, hsends.of_start.2, List.length_append, BitVec.ofNat_add]
    rfl

end Sys2Proof.Machine
end

section
/-! PROOFS. The statements on the decoder (spec 45_decoder.md R83 to R86), with the laws they need: what a walk spells bit
by bit, one induction that ties the model's walk over a unit's bits to it, and an equation per case of the commands. -/

namespace Sys2Proof.Machine

/-! ## DE_START (R83) -/

theorem exec_deStart_of_node {s : State} {r : Fin 1024} (h : s.tree.root = .node r) :
    exec .deStart s = .next { s with dec := ⟨true, r, 0⟩ } := by
  simp [exec, execDeStart, h]

theorem exec_deStart_of_no_node {s : State} (h : ∀ r, s.tree.root ≠ .node r) :
    exec .deStart s = .next (s.raise .noTree s.tree.root.kind) := by
  simp [exec, execDeStart]

/-- Settles O47: the session opens at a root node; another root is reported by its kind. -/
theorem deStartOpens : Obligations.DeStartOpens := by
  refine fun s => ⟨fun r => exec_deStart_of_node, fun h => ?_, fun i h => ?_⟩
  · rw [exec_deStart_of_no_node (by simp [h]), h, Ref.kind]
  · rw [exec_deStart_of_no_node (by simp [h]), h, Ref.kind]

/-! ## What a walk spells, bit by bit (R84) -/

theorem Spells.eq_of_nil {t : Tree} {r c c' : Fin 1024} {bits : List Bool} {out : List (Fin 256)}
    (h : Spells t r c bits out c') (hbits : bits = []) : out = [] ∧ c' = c := by
  cases h with
  | rest _ _ p h =>
    subst hbits
    exact ⟨rfl, (Ref.node.inj (Option.some.inj h)).symm⟩
  | leaf _ _ p bits i out h tail =>
    obtain ⟨rfl, -⟩ := List.append_eq_nil_iff.1 hbits
    cases h

/-- The first bit leads to a node, where the walk goes on, or to a leaf, which comes first, and the walk goes on at the root. -/
theorem Spells.cons_cases {t : Tree} {r c c' : Fin 1024} {b : Bool} {bs bits : List Bool} {out : List (Fin 256)}
    (h : Spells t r c bits out c') (hbits : bits = b :: bs) :
    (∃ k, t.nodes[c].child b = .node k ∧ Spells t r k bs out c') ∨
    ∃ i out', t.nodes[c].child b = .leaf i ∧ out = i :: out' ∧ Spells t r r bs out' c' := by
  cases h with
  | rest _ _ p h =>
    subst hbits
    rw [Tree.follow_node] at h
    cases hchild : t.nodes[c].child b with
    | node k => exact .inl ⟨k, rfl, .rest k c' bs (hchild ▸ h)⟩
    | empty => rw [hchild] at h; cases bs <;> cases h
    | leaf i => rw [hchild] at h; cases bs <;> cases h
  | leaf _ _ p bits i out h tail =>
    obtain ⟨b', p, rfl, hp⟩ := Tree.follow_node_eq_leaf.1 h
    obtain ⟨rfl, rfl⟩ := List.cons.inj hbits
    cases hchild : t.nodes[c].child b' with
    | node k => exact .inl ⟨k, rfl, .leaf k c' p bits i out (hchild ▸ hp) tail⟩
    | empty => exact absurd (hchild ▸ hp) Tree.follow_empty_ne_leaf
    | leaf j =>
      obtain ⟨rfl, rfl⟩ := Tree.follow_leaf_eq_some.1 (hchild ▸ hp)
      exact .inr ⟨i, out, rfl, rfl, tail⟩

/-! ## The walk over a unit's bits (R84) -/

/-- The end of a walk from `d` that has spelt the leaves `out` and stands at node `c`. -/
def DecEnd.spelt (tab : SymTable) (d : Decoder) (out : List (Fin 256)) (c : Fin 1024) (bad : Option Nat) : DecEnd :=
  ⟨⟨d.act, c, d.syms + BitVec.ofNat 32 out.length⟩, out.map fun i => symbolWord tab.slots[i].sym, bad⟩

theorem DecEnd.spelt_nil (tab : SymTable) (d : Decoder) (bad : Option Nat) :
    DecEnd.spelt tab d [] d.cur bad = ⟨d, [], bad⟩ := by
  simp [DecEnd.spelt]

theorem DecEnd.spelt_cons (tab : SymTable) (d : Decoder) (i : Fin 256) (out : List (Fin 256)) (r c : Fin 1024)
    (bad : Option Nat) : DecEnd.spelt tab d (i :: out) c bad =
      { DecEnd.spelt tab { d with syms := d.syms + 1, cur := r } out c bad with
        out := symbolWord tab.slots[i].sym :: (DecEnd.spelt tab { d with syms := d.syms + 1, cur := r } out c bad).out } := by
  have hsyms : d.syms + BitVec.ofNat 32 (out.length + 1) = d.syms + 1 + BitVec.ofNat 32 out.length := by
    rw [Nat.add_comm, BitVec.ofNat_add, ← BitVec.add_assoc]
    rfl
  simp [DecEnd.spelt, hsyms]

/-- The model's walk follows what the bits spell: over bits `js` that spell `out` it gets to `c`, and there it ends as the
walk over the bits `ks` that are left does, which is to stop at once. -/
theorem decBits_append_of_spells {tab : SymTable} {t : Tree} {r c : Fin 1024} {u : StorageUnit} {ks : List Nat}
    {bad : Option Nat} (hstop : ∀ d : Decoder, d.cur = c → decBits tab t r u ks d = ⟨d, [], bad⟩) (js : List Nat)
    (d : Decoder) {out : List (Fin 256)} (h : Spells t r d.cur (js.map u.getLsbD) out c) :
    decBits tab t r u (js ++ ks) d = DecEnd.spelt tab d out c bad := by
  induction js generalizing d out with
  | nil =>
    obtain ⟨rfl, rfl⟩ := h.eq_of_nil rfl
    exact (hstop d rfl).trans (DecEnd.spelt_nil tab d bad).symm
  | cons j js ih =>
    obtain ⟨k, hchild, htail⟩ | ⟨i, out', hchild, rfl, htail⟩ := h.cons_cases (List.map_cons ..)
    · simp only [List.cons_append, decBits, hchild, ih { d with cur := k } htail]
      rfl
    · simp only [List.cons_append, decBits, hchild, ih { d with syms := d.syms + 1, cur := r } htail]
      exact (DecEnd.spelt_cons tab d i out' r c bad).symm

/-- The positions the walk visits hold the upper bits of the unit, in time order (20_memory.md R45). -/
theorem map_getLsbD_unitBits (u : StorageUnit) {nb : Nat} (h : nb ≤ 16) :
    (unitBits nb).map u.getLsbD = (msbFirst u 16).take nb := by
  simp [unitBits, msbFirst, ← List.map_take, List.take_range, Nat.min_eq_left h]

@[simp] theorem take_msbFirst_self {w : Nat} (v : BitVec w) (n : Nat) : (msbFirst v n).take n = msbFirst v n :=
  List.take_of_length_le (msbFirst_length v n).le

/-- All bits spell leaves: the walk ends where they end. -/
theorem decBits_of_spells {tab : SymTable} {t : Tree} {r c : Fin 1024} {u : StorageUnit} {nb : Nat} {d : Decoder}
    {out : List (Fin 256)} (hnb : nb ≤ 16) (h : Spells t r d.cur ((msbFirst u 16).take nb) out c) :
    decBits tab t r u (unitBits nb) d = DecEnd.spelt tab d out c none := by
  rw [← map_getLsbD_unitBits u hnb] at h
  simpa using decBits_append_of_spells (ks := []) (fun _ _ => rfl) _ d h

/-- After the bits `p` the next one leads to an EMPTY child: the walk ends there, at that bit. -/
theorem decBits_of_spells_of_empty {tab : SymTable} {t : Tree} {r c : Fin 1024} {u : StorageUnit} {nb : Nat} {d : Decoder}
    {out : List (Fin 256)} {p q : List Bool} {b : Bool} (hnb : nb ≤ 16) (hbits : (msbFirst u 16).take nb = p ++ b :: q)
    (h : Spells t r d.cur p out c) (hchild : t.nodes[c].child b = .empty) :
    decBits tab t r u (unitBits nb) d = DecEnd.spelt tab d out c (some (15 - p.length)) := by
  rw [← map_getLsbD_unitBits u hnb] at hbits
  obtain ⟨js, rest, hsplit, rfl, hrest⟩ := List.map_eq_append_iff.1 hbits
  obtain ⟨j, ks, rfl, rfl, -⟩ := List.map_eq_cons_iff.1 hrest
  have hj : 15 - js.length = j := by
    have hat : (unitBits nb)[js.length]? = some j := by simp [hsplit]
    simpa [unitBits] using (List.getElem?_eq_some_iff.1 hat).2
  rw [hsplit, List.length_map, hj]
  refine decBits_append_of_spells (fun d' hd' => ?_) js d h
  simp only [decBits, hd', hchild]

/-! ## The cases of DE_UNIT (R85) -/

theorem exec_deUnit_of_no_session {s : State} (u : StorageUnit) (ha : s.dec.act = false) :
    exec (.deUnit u) s = .next (s.raise .sequence 0) := by
  simp [exec, execDeUnit, ha]

section
variable {s : State} {r : Fin 1024} {u : StorageUnit} {e : DecEnd} (ha : s.dec.act = true) (hr : s.tree.root = .node r)
  (he : decBits s.table s.tree r u (unitBits 16) s.dec = e)
include ha hr he

theorem exec_deUnit_of_good (hb : e.bad = none) : exec (.deUnit u) s = .next (s.afterBits e) := by
  simp [exec, execDeUnit, ha, hr, he, hb]

theorem exec_deUnit_of_bad {j : Nat} (hb : e.bad = some j) :
    exec (.deUnit u) s = .next ((s.afterBits e).raise .decodeError (word32 j)) := by
  simp [exec, execDeUnit, ha, hr, he, hb]

end

/-- Where the walk leaves the state, its session still open. -/
theorem State.afterBits_spelt {s : State} (ha : s.dec.act = true) (out : List (Fin 256)) (c : Fin 1024) (bad : Option Nat) :
    s.afterBits (DecEnd.spelt s.table s.dec out c bad) =
      { s with dec := ⟨true, c, s.dec.syms + BitVec.ofNat 32 out.length⟩
               pend := s.pend ++ out.map fun i => symbolWord s.table.slots[i].sym } := by
  rw [← ha]
  rfl

/-- Settles O48: the walk over the unit's 16 bits follows what they spell, to their end or to an EMPTY child. -/
theorem deUnitDecodes : Obligations.DeUnitDecodes := by
  refine fun s u => ⟨exec_deUnit_of_no_session u, fun r c out ha hr => ⟨fun h => ?_, fun p q b hbits h hchild => ?_⟩⟩
  · rw [← State.afterBits_spelt ha out c none]
    exact exec_deUnit_of_good ha hr (decBits_of_spells le_rfl (by simpa using h)) rfl
  · rw [← State.afterBits_spelt ha out c (some (15 - p.length))]
    exact exec_deUnit_of_bad ha hr (decBits_of_spells_of_empty le_rfl (by simpa using hbits) h hchild) rfl

/-! ## The cases of DE_LAST (R86) -/

theorem exec_deLast_of_no_session {s : State} (u : StorageUnit) (skip : Nat) (ha : s.dec.act = false) :
    exec (.deLast u skip) s = .next (s.raise .sequence 0) := by
  simp [exec, execDeLast, ha]

section
variable {s : State} {r : Fin 1024} {u : StorageUnit} {skip : Nat} {e : DecEnd} (ha : s.dec.act = true)
  (hr : s.tree.root = .node r) (he : decBits s.table s.tree r u (unitBits (16 - skip)) s.dec = e)
include ha hr he

theorem exec_deLast_of_bad {j : Nat} (hb : e.bad = some j) :
    exec (.deLast u skip) s = .next ((s.afterBits e).raise .decodeError (word32 j)) := by
  simp [exec, execDeLast, ha, hr, he, hb]

theorem exec_deLast_of_root (hb : e.bad = none) (hc : e.dec.cur = r) : exec (.deLast u skip) s =
    .next (State.setRes (s.afterBits { e with dec := { e.dec with act := false } }) e.dec.syms 0 0 0) := by
  simp [exec, execDeLast, ha, hr, he, hb, hc]

theorem exec_deLast_of_other_node (hb : e.bad = none) (hc : e.dec.cur ≠ r) :
    exec (.deLast u skip) s = .next ((s.afterBits e).raise .decPartial (word32 e.dec.cur.val)) := by
  simp [exec, execDeLast, ha, hr, he, hb, hc]

end

/-- Settles O49: the walk over the bits that are not skipped follows what they spell; the four ends are an EMPTY child, the
root, another node and no session. -/
theorem deLastDecodes : Obligations.DeLastDecodes := by
  intro s u skip _
  have hnb : 16 - skip ≤ 16 := Nat.sub_le _ _
  refine ⟨exec_deLast_of_no_session u skip, fun r c out ha hr =>
    ⟨fun h => ⟨fun hc => ?root, fun hc => ?elsewhere⟩, fun p q b hbits h hchild => ?bad⟩⟩
  case root =>
    subst hc
    exact exec_deLast_of_root ha hr (decBits_of_spells hnb h) rfl rfl
  case elsewhere =>
    rw [← State.afterBits_spelt ha out c none]
    exact exec_deLast_of_other_node ha hr (decBits_of_spells hnb h) rfl hc
  case bad =>
    rw [← State.afterBits_spelt ha out c (some (15 - p.length))]
    exact exec_deLast_of_bad ha hr (decBits_of_spells_of_empty hnb hbits h hchild) rfl

end Sys2Proof.Machine
end

section
/-! PROOFS. The statement on raising an error (spec 60_exceptions.md R89, R90), with the laws of the two ways to raise one
that are not stated before: `State.raiseWith_of_clear` is the law of the first error. -/

namespace Sys2Proof.Machine

/-- A later error changes nothing (60_exceptions.md R90). -/
theorem State.raiseWith_of_set {s : State} (h : s.error.err = true) (w : Word) (n : ErrorName) (info : Word) :
    s.raiseWith w n info = s := by
  rw [State.raiseWith, ErrorState.record_of_set _ w n info h]

/-- Within a command the word recorded is the latched one (60_exceptions.md R90). -/
theorem State.raise_of_exec {s : State} {c : Command} (h : s.exec = some c) (n : ErrorName) (info : Word) :
    s.raise n info = s.raiseWith c.word n info := by
  rw [State.raise, State.latched_of_exec s c h]

/-- Settles O23: raising within a command is raising with the latched word, and the codes are those of R89. -/
theorem raiseRecordsFirstError : Obligations.RaiseRecordsFirstError := by
  refine ⟨fun s w n info => ⟨fun h => State.raiseWith_of_clear h w n info, fun h => State.raiseWith_of_set h w n info⟩,
    fun s n info c hc => ?command, ?codes⟩
  case command =>
    rw [State.raise_of_exec hc]
    exact ⟨fun h => State.raiseWith_of_clear h c.word n info, fun h => State.raiseWith_of_set h c.word n info⟩
  case codes =>
    simp only [ErrorName.code, and_self]

end Sys2Proof.Machine
end

section
/-! PROOFS. The statement on the operands of an accepted command (spec 70_reset_and_hazards.md R110), with the laws it needs: an
equation per case of CT_DERIVE and TR_REBUILD, and what a command does with other operand registers. -/

namespace Sys2Proof.Machine

/-! ## The word of SRESET alone decodes to SRESET (20_memory.md R49) -/

theorem decode_one : decode 0x00000001#32 = .ok .sreset := rfl

theorem ne_one_of_decode {w : Word} {i : Instr} (hi : i ≠ .sreset) (hd : decode w = .ok i) : w ≠ 0x00000001#32 := by
  rintro rfl
  exact hi (Except.ok.inj (hd.symm.trans decode_one))

/-! ## The cases of CT_DERIVE and TR_REBUILD (43_code_table.md R73, R77) -/

theorem exec_ctDerive_of_done {s : State} {tab : SymTable}
    (hw : s.tree.walk 1024 s.tree.root 0 0 s.table.clearCodes = .done tab) :
    exec .ctDerive s = .next { s with table := tab } := by
  simp only [exec, execCtDerive, hw]

theorem exec_ctDerive_of_tooLong {s : State} {i : Fin 256} {tab : SymTable}
    (hw : s.tree.walk 1024 s.tree.root 0 0 s.table.clearCodes = .tooLong i tab) :
    exec .ctDerive s = .next (State.raise { s with table := tab } .codeTooLong (word32 i.val)) := by
  simp only [exec, execCtDerive, hw]

section
variable {s : State} {r : RebuildEnd} (hr : Tree.placeAll s.table s.table.valid s.tree.placeholder = r)
include hr

theorem exec_trRebuild_of_good (he : r.error = none) :
    exec .trRebuild s = .next { s with tree := r.tree, dec := { s.dec with act := false } } := by
  simp only [exec, execTrRebuild, hr, he]

theorem exec_trRebuild_of_error {n : ErrorName} {i : Fin 256} (he : r.error = some (n, i)) :
    exec .trRebuild s = .next
      (State.raise { s with tree := r.tree, dec := { s.dec with act := false } } n (word32 i.val)) := by
  simp only [exec, execTrRebuild, hr, he]

end

/-! ## Other operand registers (R110) -/

/-- A write of an operand register is taken in every state (20_memory.md R42). -/
theorem hostWrite_operand (s : State) {r : Reg} (hr : r = .arg0 ∨ r = .arg1 ∨ r = .arg2) (v : Word) :
    ∃ a, hostWrite r.offset .word v s = .next { s with args := a } := by
  rw [hostWrite_offset]
  obtain rfl | rfl | rfl := hr
  · exact ⟨_, writeReg_arg0 v s⟩
  · exact ⟨_, writeReg_arg1 v s⟩
  · exact ⟨_, writeReg_arg2 v s⟩

/-- A latched command runs as before with other operand registers. Once EXEC is seen to hold a command, the operands and the
word a command reads are by definition those latched there, so each case of the command is the same case of the other
state. -/
theorem exec_of_other_args {i : Instr} {s t : State} {c : Command} (a : Args) (hi : i ≠ .sreset) (hc : s.exec = some c)
    (h : exec i s = .next t) : exec i { s with args := a } = .next { t with args := a } := by
  obtain ⟨s, rfl⟩ : ∃ s₀ : State, s = { s₀ with exec := some c } := ⟨s, by rw [← hc]⟩
  cases i with
  | sreset => exact absurd rfl hi
  | nop | tbBuild | enStart =>
    cases h
    rfl
  | fcCount =>
    obtain ⟨hy, rfl⟩ | ⟨hy, ht, rfl⟩ | ⟨hy, ht, hs, rfl⟩ | ⟨hy, ht, j, tab, hs, rfl⟩ := execFcCount_cases h
    · exact exec_fcCount_of_illegal hy
    · exact exec_fcCount_of_total_max hy ht
    · exact exec_fcCount_of_full hy ht hs
    · exact exec_fcCount_of_slot hy ht hs
  | fcRead slot =>
    obtain ⟨j, rfl, hj, rfl⟩ | ⟨hj, rfl⟩ := execFcRead_cases h
    · exact exec_fcRead_of_lt hj
    · exact exec_fcRead_of_ge hj
  | trRead node =>
    obtain ⟨k, rfl, hk, rfl⟩ | ⟨hk, rfl⟩ := execTrRead_cases h
    · exact exec_trRead_of_lt hk
    · exact exec_trRead_of_ge hk
  | ctDerive =>
    obtain ⟨tab, hw, rfl⟩ | ⟨j, tab, hw, rfl⟩ := execCtDerive_cases h
    · exact exec_ctDerive_of_done hw
    · exact exec_ctDerive_of_tooLong hw
  | ctRead slot =>
    obtain ⟨j, rfl, hj, rfl⟩ | ⟨hj, rfl⟩ := execCtRead_cases h
    · exact exec_ctRead_of_lt hj
    · exact exec_ctRead_of_ge hj
  | ctLoad len =>
    obtain ⟨hy, rfl⟩ | ⟨hy, hl, rfl⟩ | ⟨hy, hl, hs, rfl⟩ | ⟨hy, hl, j, tab, hs, rfl⟩ := execCtLoad_cases h
    · exact exec_ctLoad_of_illegal hy
    · exact exec_ctLoad_of_bad_length hy hl
    · exact exec_ctLoad_of_full hy hl hs
    · exact exec_ctLoad_of_slot (len := ⟨len, Nat.lt_succ_of_le hl.2⟩) hy hl hs
  | trRebuild =>
    obtain ⟨he, rfl⟩ | ⟨n, j, he, rfl⟩ := execTrRebuild_cases h
    · exact exec_trRebuild_of_good rfl he
    · exact exec_trRebuild_of_error rfl he
  | enSym =>
    obtain ⟨ha, rfl⟩ | ⟨ha, hy, rfl⟩ | ⟨ha, hy, hx, rfl⟩ | ⟨ha, hy, x, hx, rfl⟩ := execEnSym_cases h
    · exact exec_enSym_of_no_session ha
    · exact exec_enSym_of_illegal ha hy
    · exact exec_enSym_of_no_code ha hy hx
    · exact exec_enSym_of_code ha hy hx
  | enFlush =>
    obtain ⟨ha, rfl⟩ | ⟨ha, hh, rfl⟩ | ⟨ha, hh, rfl⟩ := execEnFlush_cases h
    · exact exec_enFlush_of_no_session ha
    · exact exec_enFlush_of_held ha hh
    · exact exec_enFlush_of_none_held ha (BitVec.eq_of_toNat_eq hh)
  | deStart =>
    obtain ⟨r, hr, rfl⟩ | ⟨hr, rfl⟩ := execDeStart_cases h
    · exact exec_deStart_of_node hr
    · exact exec_deStart_of_no_node hr
  | deUnit u =>
    obtain ⟨ha, rfl⟩ | ⟨ha, r, hr, ⟨hb, rfl⟩ | ⟨j, hb, rfl⟩⟩ := execDeUnit_cases h
    · exact exec_deUnit_of_no_session u ha
    · exact exec_deUnit_of_good ha hr rfl hb
    · exact exec_deUnit_of_bad (s := { s with exec := some c, args := a }) ha hr rfl hb
  | deLast u skip =>
    obtain ⟨ha, rfl⟩ | ⟨ha, r, e, hr, he, ⟨j, hb, rfl⟩ | ⟨hb, hroot, rfl⟩ | ⟨hb, hroot, rfl⟩⟩ := execDeLast_cases h
    · exact exec_deLast_of_no_session u skip ha
    · exact exec_deLast_of_bad (s := { s with exec := some c, args := a }) ha hr he.symm hb
    · exact exec_deLast_of_root ha hr he.symm hb hroot
    · exact exec_deLast_of_other_node ha hr he.symm hb hroot

/-- Settles O8: acceptance latches the operands, and neither their write nor a run with others touches the latched ones. -/
theorem argumentsAreLatched : Obligations.ArgumentsAreLatched :=
  ⟨fun _ _ _ hi he hb hd => accept_of_decode (ne_one_of_decode hi hd) he hb hd,
    fun s _ v hr => hostWrite_operand s hr v,
    fun _ _ _ _ a hi hc h => exec_of_other_args a hi hc h⟩

end Sys2Proof.Machine
end

section
/-! PROOFS. The statements on command words (spec 30_encoding.md R54 to R63), with the laws they need: a word determines its
row, the fields of the formats, and what a row fixes of the words that select it. -/

namespace Sys2Proof.Machine

/-! ## One row for each word (R61) -/

/-- Two rows that fix the same bits alike where both fix them are one row. -/
theorem row_eq_of_patterns_agree : ∀ r ∈ opcodeMap, ∀ q ∈ opcodeMap, r.pattern &&& q.mask = q.pattern &&& r.mask → r = q := by
  decide

theorem row_eq_of_selects {w : Word} {r q : Row} (hr : r ∈ opcodeMap) (hq : q ∈ opcodeMap) (hrw : r.selects w)
    (hqw : q.selects w) : r = q := by
  refine row_eq_of_patterns_agree r hr q hq ?_
  calc r.pattern &&& q.mask = w &&& r.mask &&& q.mask := by rw [← hrw]
    _ = w &&& q.mask &&& r.mask := by rw [BitVec.and_assoc, BitVec.and_comm r.mask, ← BitVec.and_assoc]
    _ = q.pattern &&& r.mask := by rw [← hqw]

/-- Settles O3: the two patterns are the same word under both masks. -/
theorem eachWordSelectsOneRow : Obligations.EachWordSelectsOneRow := fun _ _ _ => row_eq_of_selects

/-- A word's command is that of any row it selects. -/
theorem decode_of_selects {w : Word} {r : Row} (hr : r ∈ opcodeMap) (h : r.selects w) :
    decode w = .ok (assemble r.mnemonic w) := by
  obtain ⟨q, hq, hqw, hd⟩ := decode_of_matched ⟨r, hr, h⟩
  rw [row_eq_of_selects hr hq h hqw, hd]

theorem selects_of_decode {w : Word} {i : Instr} (h : decode w = .ok i) :
    ∃ r ∈ opcodeMap, r.selects w ∧ i = assemble r.mnemonic w := by
  by_cases hm : ∃ r ∈ opcodeMap, r.selects w
  · obtain ⟨r, hr, hw, hd⟩ := decode_of_matched hm
    exact ⟨r, hr, hw, Except.ok.inj (h.symm.trans hd)⟩
  · push Not at hm
    rw [decode_of_unmatched hm] at h
    cases h

/-! ## The fields of the formats (R55 to R58) -/

@[simp] theorem imm16Of_formatI (imm : BitVec 16) (opc : Byte) : imm16Of (formatI imm opc) = imm := by
  simp (disch := decide) only [imm16Of, formatI, BitVec.extractLsb'_append_eq_of_le, Nat.reduceSub]
  exact BitVec.extractLsb'_eq_self

@[simp] theorem imm16Of_formatL (imm : BitVec 16) (skip : BitVec 4) : imm16Of (formatL imm skip) = imm := by
  simp (disch := decide) only [imm16Of, formatL, BitVec.extractLsb'_append_eq_of_le, Nat.reduceSub]
  exact BitVec.extractLsb'_eq_self

@[simp] theorem skipOf_formatL (imm : BitVec 16) (skip : BitVec 4) : skipOf (formatL imm skip) = skip := by
  simp (disch := decide) only [skipOf, formatL, BitVec.extractLsb'_append_eq_of_le, BitVec.extractLsb'_append_eq_right,
    Nat.reduceSub]

theorem formatI_toNat (imm : BitVec 16) (opc : Byte) : (formatI imm opc).toNat = 65536 * imm.toNat + opc.toNat := by
  have h := opc.isLt
  rw [formatI, BitVec.toNat_append, BitVec.toNat_append, ← Nat.shiftLeft_add_eq_or_of_lt (by omega),
    ← Nat.shiftLeft_add_eq_or_of_lt (by simp)]
  simp only [Nat.shiftLeft_eq, BitVec.toNat_ofNat]
  omega

theorem imm16Of_toNat (w : Word) : (imm16Of w).toNat = w.toNat / 65536 := by
  have h := w.isLt
  simp only [imm16Of, BitVec.extractLsb'_toNat, Nat.shiftRight_eq_div_pow]
  omega

/-! ## Decoding a command's word (R61) -/

open Sys2Proof.Laws in
theorem rowMatch (i : Instr) : RowMatch.Statement i := by
  cases i with
  | nop => exact RowMatch.nop
  | sreset => exact RowMatch.sreset
  | fcCount => exact RowMatch.fcCount
  | fcRead slot => exact RowMatch.fcRead slot
  | tbBuild => exact RowMatch.tbBuild
  | trRead node => exact RowMatch.trRead node
  | ctDerive => exact RowMatch.ctDerive
  | ctRead slot => exact RowMatch.ctRead slot
  | ctLoad len => exact RowMatch.ctLoad len
  | trRebuild => exact RowMatch.trRebuild
  | enStart => exact RowMatch.enStart
  | enSym => exact RowMatch.enSym
  | enFlush => exact RowMatch.enFlush
  | deStart => exact RowMatch.deStart
  | deUnit unit => exact RowMatch.deUnit unit
  | deLast unit skip => exact RowMatch.deLast unit skip

open Sys2Proof.Laws.RowMatch.Statement in
/-- The operands taken from a well-formed command's word are the command's. -/
theorem assemble_encode {i : Instr} (h : WellFormed i) : assemble (LawsName i) (encode i) = i := by
  cases i with
  | fcRead n | trRead n | ctRead n | ctLoad n =>
    have hn : n < 2 ^ 16 := of_decide_eq_true h
    simpa [LawsName, assemble, encode] using hn
  | deUnit unit => simp [LawsName, assemble, encode]
  | deLast unit skip =>
    have hn : skip < 2 ^ 4 := of_decide_eq_true h
    simpa [LawsName, assemble, encode] using hn
  | _ => rfl

/-- Settles O1: the word selects the command's row, and its fields hold the operands. -/
theorem decodeOfEncode : Obligations.DecodeOfEncode := by
  intro i hi
  obtain ⟨r, hr, hw, hname⟩ := rowMatch i
  rw [decode_of_selects hr hw, ← hname, assemble_encode hi]

/-! ## The command of a word (R61, R63) -/

theorem eq_of_selects_all {w p : Word} (h : w &&& 0xFFFFFFFF#32 = p) : w = p :=
  (BitVec.and_allOnes (x := w)).symm.trans h

/-- A word whose low half is fixed is the format-I word of its immediate. -/
theorem formatI_imm16Of {w : Word} {opc : Byte} (h : w &&& 0x0000FFFF#32 = opc.setWidth 32) :
    formatI (imm16Of w) opc = w := by
  have hopc := opc.isLt
  have hlow : w.toNat % 2 ^ 16 = opc.toNat := by
    have := congrArg BitVec.toNat h
    rwa [BitVec.toNat_and, show (0x0000FFFF#32).toNat = 2 ^ 16 - 1 from rfl, Nat.and_two_pow_sub_one_eq_mod,
      BitVec.toNat_setWidth_of_le (by decide)] at this
  apply BitVec.eq_of_toNat_eq
  rw [formatI_toNat, imm16Of_toNat]
  omega

/-- A word with DE_LAST's fixed bits is the format-L word of its unit and skip count. -/
theorem formatL_fields {w : Word} (h : w &&& 0x0000E1FF#32 = 0x00000151#32) : formatL (imm16Of w) (skipOf w) = w := by
  have field (start len : Nat) : (w.extractLsb' start len &&& (0x0000E1FF#32).extractLsb' start len).toNat =
      ((0x00000151#32).extractLsb' start len).toNat := by
    rw [← BitVec.extractLsb'_and, h]
  have hlow : w.toNat % 512 = 0x151 := by
    have := field 0 9
    rwa [show (0x0000E1FF#32).extractLsb' 0 9 = BitVec.allOnes 9 from rfl, BitVec.and_allOnes, BitVec.extractLsb'_toNat,
      Nat.shiftRight_zero] at this
  have hreserved : w.toNat / 8192 % 8 = 0 := by
    have := field 13 3
    rwa [show (0x0000E1FF#32).extractLsb' 13 3 = BitVec.allOnes 3 from rfl, BitVec.and_allOnes, BitVec.extractLsb'_toNat,
      Nat.shiftRight_eq_div_pow] at this
  have hskip : (skipOf w).toNat = w.toNat / 512 % 16 := by
    rw [skipOf, BitVec.extractLsb'_toNat, Nat.shiftRight_eq_div_pow]
  apply BitVec.eq_of_toNat_eq
  rw [Laws.formatL_toNat, imm16Of_toNat, hskip]
  omega

/-- The same with the immediate as the number a command holds (R58). -/
theorem formatI_ofNat_imm16Of {w : Word} {opc : Byte} (h : w &&& 0x0000FFFF#32 = opc.setWidth 32) :
    formatI (BitVec.ofNat 16 (imm16Of w).toNat) opc = w := by
  rw [BitVec.ofNat_toNat, BitVec.setWidth_eq, formatI_imm16Of h]

/-- A word that selects a row is the word of the command the row makes of it, whose operands fit their fields. -/
theorem encode_assemble {w : Word} {r : Row} (hr : r ∈ opcodeMap) (h : r.selects w) :
    WellFormed (assemble r.mnemonic w) ∧ encode (assemble r.mnemonic w) = w := by
  have himm : decide ((imm16Of w).toNat < 2 ^ 16) = true := decide_eq_true (imm16Of w).isLt
  have hskip : decide ((skipOf w).toNat < 2 ^ 4) = true := decide_eq_true (skipOf w).isLt
  simp only [opcodeMap, List.cons_append, List.nil_append, List.mem_cons, List.not_mem_nil, or_false] at hr
  obtain rfl | rfl | rfl | rfl | rfl | rfl | rfl | rfl | rfl | rfl | rfl | rfl | rfl | rfl | rfl | rfl := hr
  · exact ⟨rfl, (eq_of_selects_all h).symm⟩
  · exact ⟨rfl, (eq_of_selects_all h).symm⟩
  · exact ⟨rfl, (eq_of_selects_all h).symm⟩
  · exact ⟨himm, formatI_ofNat_imm16Of h⟩
  · exact ⟨rfl, (eq_of_selects_all h).symm⟩
  · exact ⟨himm, formatI_ofNat_imm16Of h⟩
  · exact ⟨rfl, (eq_of_selects_all h).symm⟩
  · exact ⟨himm, formatI_ofNat_imm16Of h⟩
  · exact ⟨himm, formatI_ofNat_imm16Of h⟩
  · exact ⟨rfl, (eq_of_selects_all h).symm⟩
  · exact ⟨rfl, (eq_of_selects_all h).symm⟩
  · exact ⟨rfl, (eq_of_selects_all h).symm⟩
  · exact ⟨rfl, (eq_of_selects_all h).symm⟩
  · exact ⟨rfl, (eq_of_selects_all h).symm⟩
  · exact ⟨rfl, formatI_imm16Of h⟩
  · refine ⟨hskip, ?_⟩
    rw [assemble, encode, BitVec.ofNat_toNat, BitVec.setWidth_eq, formatL_fields h]

/-- Settles O2: the command is the one a row makes of the word. -/
theorem encodeOfDecode : Obligations.EncodeOfDecode := by
  intro w i h
  obtain ⟨r, hr, hw, rfl⟩ := selects_of_decode h
  exact encode_assemble hr hw

/-- Settles O5: the words are few and given, so the decoder's answers are computed. -/
theorem specWordsDecode : Obligations.SpecWordsDecode := by
  unfold Obligations.SpecWordsDecode
  decide

end Sys2Proof.Machine
end

section
/-! PROOFS. The statements on what each command leaves alone (spec 10_state.md R2, R14, R25; 20_memory.md R47; 60_exceptions.md
R94), with the laws they need: what `slotFor`, the walk and the drain change. -/

namespace Sys2Proof.Machine

/-! ## What the table's operations change -/

/-- Finding a symbol's slot, or making it, keeps TOTAL and the valid slots. -/
structure SymTable.Extends (t t' : SymTable) : Prop where
  total : t'.total = t.total
  nsym_le : t.nsym.val ≤ t'.nsym.val
  le_nsym : t'.nsym.val ≤ t.nsym.val + 1
  slot : ∀ j : Fin 256, j.val < t.nsym.val → t'.slots[j] = t.slots[j]

theorem SymTable.slotFor_extends {t t' : SymTable} {y : Word} {i : Fin 256} (h : t.slotFor y = some (i, t')) :
    t.Extends t' ∧ i.val < t'.nsym.val := by
  rcases SymTable.slotFor_some h with ⟨hl, rfl⟩ | ⟨-, ha⟩
  · exact ⟨⟨rfl, le_rfl, Nat.le_succ _, fun _ _ => rfl⟩, (SymTable.lookup_some hl).1⟩
  · obtain ⟨hi, hn, htot, hslots⟩ := SymTable.alloc_some ha
    exact ⟨⟨htot, by omega, by omega, fun j hj => by rw [hslots, if_neg (by omega)]⟩, by omega⟩

/-- `t'` differs from `t` in codes and lengths alone. -/
structure SymTable.Recodes (t t' : SymTable) : Prop where
  nsym : t'.nsym = t.nsym
  total : t'.total = t.total
  sym : ∀ j : Fin 256, t'.slots[j].sym = t.slots[j].sym
  count : ∀ j : Fin 256, t'.slots[j].count = t.slots[j].count

theorem SymTable.Recodes.refl (t : SymTable) : t.Recodes t := ⟨rfl, rfl, fun _ => rfl, fun _ => rfl⟩

theorem SymTable.Recodes.setCode {t t' : SymTable} (h : t.Recodes t') (i : Fin 256) (c : BitVec 64) (n : Fin 65) :
    t.Recodes (t'.setCode i c n) where
  nsym := h.nsym
  total := h.total
  sym j := by
    rw [SymTable.setCode_slots, ← h.sym]
    split
    · next hij => rw [hij]
    · rfl
  count j := by
    rw [SymTable.setCode_slots, ← h.count]
    split
    · next hij => rw [hij]
    · rfl

theorem SymTable.recodes_clearCodes (t : SymTable) : t.Recodes t.clearCodes :=
  List.foldlRecOn (motive := fun tab => t.Recodes tab) t.valid _ (.refl t) fun _ h i _ => h.setCode i 0 0

/-! ## What a walk keeps, wherever it ends (43_code_table.md R73) -/

/-- The table a walk leaves has `P`. -/
def WalkEnd.HasTable (P : SymTable → Prop) : WalkEnd → Prop
  | .done tab => P tab
  | .tooLong _ tab => P tab
  | .endless => True

/-- A property that recording a code within its length keeps is kept by the walk. -/
theorem Tree.walk_hasTable (t : Tree) {P : SymTable → Prop}
    (hP : ∀ tab i (c : BitVec 64) (n : Fin 65), c.toNat < 2 ^ n.val → P tab → P (tab.setCode i c n))
    (fuel : Nat) (r : Ref) {p l : Nat} (hp : p < 2 ^ l) {tab : SymTable} (h : P tab) :
    (t.walk fuel r p l tab).HasTable P := by
  induction fuel using Nat.strong_induction_on generalizing r p l tab with
  | _ fuel ih =>
    cases r with
    | empty =>
      rw [Tree.walk]
      exact h
    | leaf i =>
      rw [Tree.walk]
      split
      · have hmax : 2 ^ l ≤ 2 ^ max l 1 := Nat.pow_le_pow_right (by decide) (le_max_left ..)
        refine hP tab i _ _ ?_ h
        exact (BitVec.toNat_ofNat _ _).trans_lt ((Nat.mod_le _ _).trans_lt (hp.trans_le hmax))
      · exact h
    | node k =>
      cases fuel with
      | zero => exact trivial
      | succ n =>
        have hleft : p <<< 1 < 2 ^ (l + 1) := Nat.shiftLeft_lt (by omega)
        have hright : p <<< 1 ||| 1 < 2 ^ (l + 1) := Nat.or_lt_two_pow hleft (Nat.one_lt_two_pow l.succ_ne_zero)
        have h₀ := ih n n.lt_succ_self t.nodes[k].c0 hleft h
        rw [Tree.walk]
        split
        · next tab₀ hw =>
          rw [hw] at h₀
          exact ih n n.lt_succ_self t.nodes[k].c1 hright h₀
        · exact h₀

/-- CT_DERIVE changes codes and lengths alone, an error or not. -/
theorem exec_ctDerive_recodes {s t : State} (h : exec .ctDerive s = .next t) : s.table.Recodes t.table := by
  have hw := s.tree.walk_hasTable (P := s.table.Recodes) (fun _ i c n _ h => h.setCode i c n) 1024 s.tree.root
    (p := 0) (l := 0) (by decide) s.table.recodes_clearCodes
  obtain ⟨tab, hd, rfl⟩ | ⟨i, tab, hd, rfl⟩ := execCtDerive_cases h
  · rwa [hd] at hw
  · rwa [hd] at hw

/-! ## Frames -/

/-- Settles O51: an index that is valid sets the results, another one raises. -/
theorem readCommandsFrame : Obligations.ReadCommandsFrame := by
  rintro i s t ⟨n, rfl | rfl | rfl⟩ h
  · obtain ⟨_, -, -, rfl⟩ | ⟨-, rfl⟩ := execFcRead_cases h
    · exact ⟨rfl, .inr rfl⟩
    · exact ⟨rfl, .inl rfl⟩
  · obtain ⟨_, -, -, rfl⟩ | ⟨-, rfl⟩ := execCtRead_cases h
    · exact ⟨rfl, .inr rfl⟩
    · exact ⟨rfl, .inl rfl⟩
  · obtain ⟨_, -, -, rfl⟩ | ⟨-, rfl⟩ := execTrRead_cases h
    · exact ⟨rfl, .inr rfl⟩
    · exact ⟨rfl, .inl rfl⟩

/-- FC_COUNT's change of the table: none, or a slot found or made, and counted. -/
theorem exec_fcCount_frame {s t : State} (h : exec .fcCount s = .next t) :
    t = { s with table := t.table, error := t.error } ∧ (t.table = s.table ∨
      s.table.total ≠ 0xFFFFFFFF#32 ∧ LegalSymbol s.symbolArg ∧
      ∃ i tab, s.table.slotFor s.symbolArg = some (i, tab) ∧ t.table = tab.countOne i) := by
  obtain ⟨-, rfl⟩ | ⟨-, -, rfl⟩ | ⟨-, -, -, rfl⟩ | ⟨hy, ht, i, tab, hs, rfl⟩ := execFcCount_cases h
  · exact ⟨rfl, .inl rfl⟩
  · exact ⟨rfl, .inl rfl⟩
  · exact ⟨rfl, .inl rfl⟩
  · exact ⟨rfl, .inr ⟨ht, hy, i, tab, hs, rfl⟩⟩

/-- CT_LOAD's change of the table: none, or a slot found or made, and given a code within its length. -/
theorem exec_ctLoad_frame {s t : State} {len : Nat} (h : exec (.ctLoad len) s = .next t) :
    t = { s with table := t.table, error := t.error } ∧ (t.table = s.table ∨
      LegalSymbol s.symbolArg ∧ ∃ (i : Fin 256) (tab : SymTable) (c : BitVec 64) (n : Fin 65), c.toNat < 2 ^ n.val ∧
        s.table.slotFor s.symbolArg = some (i, tab) ∧ t.table = tab.setCode i c n) := by
  obtain ⟨-, rfl⟩ | ⟨-, -, rfl⟩ | ⟨-, -, -, rfl⟩ | ⟨hy, hl, i, tab, hs, rfl⟩ := execCtLoad_cases h
  · exact ⟨rfl, .inl rfl⟩
  · exact ⟨rfl, .inl rfl⟩
  · exact ⟨rfl, .inl rfl⟩
  · refine ⟨rfl, .inr ⟨hy, i, tab, _, _, ?_, hs, rfl⟩⟩
    exact (BitVec.toNat_ofNat _ _).trans_lt ((Nat.mod_le _ _).trans_lt (Nat.mod_lt _ (Nat.two_pow_pos _)))

theorem exec_ctDerive_frame {s t : State} (h : exec .ctDerive s = .next t) :
    t = { s with table := t.table, error := t.error } := by
  obtain ⟨tab, -, rfl⟩ | ⟨i, tab, -, rfl⟩ := execCtDerive_cases h
  · rfl
  · rfl

/-- Settles O52: FC_COUNT and CT_LOAD keep the valid slots but for a count or a code, CT_DERIVE changes codes alone. -/
theorem tableCommandsFrame : Obligations.TableCommandsFrame := by
  rintro i s t (rfl | ⟨n, rfl⟩ | rfl) h
  · obtain ⟨hframe, hsame | ⟨-, -, k, tab, hs, htab⟩⟩ := exec_fcCount_frame h
    · exact ⟨hframe, fun hi => absurd rfl hi, fun _ j _ => by rw [hsame]; exact ⟨rfl, rfl⟩⟩
    · refine ⟨hframe, fun hi => absurd rfl hi, fun _ j hj => ?_⟩
      rw [htab, SymTable.countOne_slots, ← (SymTable.slotFor_extends hs).1.slot j hj]
      split
      · next hkj => rw [hkj]; exact ⟨rfl, rfl⟩
      · exact ⟨rfl, rfl⟩
  · obtain ⟨hframe, hsame | ⟨-, k, tab, c, m, -, hs, htab⟩⟩ := exec_ctLoad_frame h
    · exact ⟨hframe, fun _ => ⟨by rw [hsame], fun j _ => by rw [hsame]⟩, nofun⟩
    · obtain ⟨hext, -⟩ := SymTable.slotFor_extends hs
      have hrec := (SymTable.Recodes.refl tab).setCode k c m
      rw [← htab] at hrec
      exact ⟨hframe, fun _ => ⟨hrec.total.trans hext.total, fun j hj => by rw [hrec.count, hext.slot j hj]⟩, nofun⟩
  · have hrec := exec_ctDerive_recodes h
    exact ⟨exec_ctDerive_frame h, fun _ => ⟨hrec.total, fun j _ => hrec.count j⟩, nofun⟩

/-- Settles O53: TB_BUILD is one case, TR_REBUILD ends with or without an error. -/
theorem treeCommandsFrame : Obligations.TreeCommandsFrame := by
  rintro i s t (rfl | rfl) h
  · cases h
    exact ⟨rfl, fun _ => rfl⟩
  · obtain ⟨-, rfl⟩ | ⟨n, j, -, rfl⟩ := execTrRebuild_cases h
    · exact ⟨rfl, nofun⟩
    · exact ⟨rfl, nofun⟩

/-- Settles O54, case by case of the three commands. -/
theorem encoderCommandsFrame : Obligations.EncoderCommandsFrame := by
  rintro i s t (rfl | rfl | rfl) h
  · cases h
    exact ⟨rfl, fun _ => rfl, fun _ => ⟨rfl, rfl⟩⟩
  · obtain ⟨-, rfl⟩ | ⟨-, -, rfl⟩ | ⟨-, -, -, rfl⟩ | ⟨-, -, x, -, rfl⟩ := execEnSym_cases h
    · exact ⟨rfl, fun _ => rfl, nofun⟩
    · exact ⟨rfl, fun _ => rfl, nofun⟩
    · exact ⟨rfl, fun _ => rfl, nofun⟩
    · exact ⟨rfl, fun _ => rfl, nofun⟩
  · obtain ⟨-, rfl⟩ | ⟨-, -, rfl⟩ | ⟨-, -, rfl⟩ := execEnFlush_cases h
    · exact ⟨rfl, fun hi => absurd rfl hi, nofun⟩
    · exact ⟨rfl, fun hi => absurd rfl hi, nofun⟩
    · exact ⟨rfl, fun hi => absurd rfl hi, nofun⟩

/-- Settles O55, case by case of the three commands; the walk over bits keeps DEC_ACT. -/
theorem decoderCommandsFrame : Obligations.DecoderCommandsFrame := by
  rintro i s t (rfl | ⟨u, rfl⟩ | ⟨u, k, rfl⟩) h
  · obtain ⟨r, -, rfl⟩ | ⟨-, rfl⟩ := execDeStart_cases h
    · exact ⟨rfl, fun _ => rfl, fun _ => rfl, nofun⟩
    · exact ⟨rfl, fun _ => rfl, fun _ => rfl, nofun⟩
  · obtain ⟨-, rfl⟩ | ⟨-, r, -, ⟨-, rfl⟩ | ⟨j, -, rfl⟩⟩ := execDeUnit_cases h
    · exact ⟨rfl, fun _ => rfl, nofun, fun _ => rfl⟩
    · exact ⟨rfl, fun _ => rfl, nofun, fun _ => decBits_act ..⟩
    · exact ⟨rfl, fun _ => rfl, nofun, fun _ => decBits_act ..⟩
  · obtain ⟨-, rfl⟩ | ⟨-, r, e, -, -, ⟨j, -, rfl⟩ | ⟨-, -, rfl⟩ | ⟨-, -, rfl⟩⟩ := execDeLast_cases h
    · exact ⟨rfl, fun hi => absurd rfl (hi u k), nofun, nofun⟩
    · exact ⟨rfl, fun hi => absurd rfl (hi u k), nofun, nofun⟩
    · exact ⟨rfl, fun hi => absurd rfl (hi u k), nofun, nofun⟩
    · exact ⟨rfl, fun hi => absurd rfl (hi u k), nofun, nofun⟩

/-! ## What every command but SRESET leaves alone -/

/-- The commands that write the symbol table. -/
abbrev WritesTable (i : Instr) : Prop := i = .fcCount ∨ (∃ n, i = .ctLoad n) ∨ i = .ctDerive

/-- The commands that write the tree memory. -/
abbrev WritesTree (i : Instr) : Prop := i = .tbBuild ∨ i = .trRebuild

/-- The commands that write the encoder. -/
abbrev WritesEncoder (i : Instr) : Prop := i = .enStart ∨ i = .enSym ∨ i = .enFlush

/-- The commands that write the decoder and not the tree memory. -/
abbrev WritesDecoder (i : Instr) : Prop := i = .deStart ∨ (∃ u, i = .deUnit u) ∨ ∃ u k, i = .deLast u k

/-- The operand registers, the FIFO, EXEC and the surroundings stay under every command, and each unit of the block stays
under a command that is not its own. -/
structure KeptByCommand (i : Instr) (s t : State) : Prop where
  args : t.args = s.args
  fifo : t.fifo = s.fifo
  exec : t.exec = s.exec
  env : t.env = s.env
  table : t.table = s.table ∨ WritesTable i
  tree : t.tree = s.tree ∨ WritesTree i
  enc : t.enc = s.enc ∨ WritesEncoder i
  dec : t.dec = s.dec ∨ WritesTree i ∨ WritesDecoder i

theorem exec_kept_of_read {i : Instr} {s t : State} (hi : ∃ n, i = .fcRead n ∨ i = .ctRead n ∨ i = .trRead n)
    (h : exec i s = .next t) : KeptByCommand i s t := by
  rw [(readCommandsFrame i s t hi h).1]
  exact ⟨rfl, rfl, rfl, rfl, .inl rfl, .inl rfl, .inl rfl, .inl rfl⟩

theorem exec_kept_of_writesTable {i : Instr} {s t : State} (hi : WritesTable i) (h : exec i s = .next t) :
    KeptByCommand i s t := by
  rw [(tableCommandsFrame i s t hi h).1]
  exact ⟨rfl, rfl, rfl, rfl, .inr hi, .inl rfl, .inl rfl, .inl rfl⟩

theorem exec_kept_of_writesTree {i : Instr} {s t : State} (hi : WritesTree i) (h : exec i s = .next t) :
    KeptByCommand i s t := by
  rw [(treeCommandsFrame i s t hi h).1]
  exact ⟨rfl, rfl, rfl, rfl, .inl rfl, .inr hi, .inl rfl, .inr (.inl hi)⟩

theorem exec_kept_of_writesEncoder {i : Instr} {s t : State} (hi : WritesEncoder i) (h : exec i s = .next t) :
    KeptByCommand i s t := by
  rw [(encoderCommandsFrame i s t hi h).1]
  exact ⟨rfl, rfl, rfl, rfl, .inl rfl, .inl rfl, .inr hi, .inl rfl⟩

theorem exec_kept_of_writesDecoder {i : Instr} {s t : State} (hi : WritesDecoder i) (h : exec i s = .next t) :
    KeptByCommand i s t := by
  rw [(decoderCommandsFrame i s t hi h).1]
  exact ⟨rfl, rfl, rfl, rfl, .inl rfl, .inl rfl, .inl rfl, .inr (.inr hi)⟩

/-- Every command but SRESET belongs to a unit, reads one, or is NOP. -/
theorem exec_kept {i : Instr} {s t : State} (hi : i ≠ .sreset) (h : exec i s = .next t) : KeptByCommand i s t := by
  cases i with
  | sreset => exact absurd rfl hi
  | nop =>
    cases h
    exact ⟨rfl, rfl, rfl, rfl, .inl rfl, .inl rfl, .inl rfl, .inl rfl⟩
  | fcRead n => exact exec_kept_of_read ⟨n, .inl rfl⟩ h
  | ctRead n => exact exec_kept_of_read ⟨n, .inr (.inl rfl)⟩ h
  | trRead n => exact exec_kept_of_read ⟨n, .inr (.inr rfl)⟩ h
  | fcCount => exact exec_kept_of_writesTable (.inl rfl) h
  | ctLoad n => exact exec_kept_of_writesTable (.inr (.inl ⟨n, rfl⟩)) h
  | ctDerive => exact exec_kept_of_writesTable (.inr (.inr rfl)) h
  | tbBuild => exact exec_kept_of_writesTree (.inl rfl) h
  | trRebuild => exact exec_kept_of_writesTree (.inr rfl) h
  | enStart => exact exec_kept_of_writesEncoder (.inl rfl) h
  | enSym => exact exec_kept_of_writesEncoder (.inr (.inl rfl)) h
  | enFlush => exact exec_kept_of_writesEncoder (.inr (.inr rfl)) h
  | deStart => exact exec_kept_of_writesDecoder (.inl rfl) h
  | deUnit u => exact exec_kept_of_writesDecoder (.inr (.inl ⟨u, rfl⟩)) h
  | deLast u k => exact exec_kept_of_writesDecoder (.inr (.inr ⟨u, k, rfl⟩)) h

/-- Settles O56: the commands that write the table extend it or recode it. -/
theorem slotsAreNeverFreed : Obligations.SlotsAreNeverFreed := by
  intro i s t hi h
  rcases (exec_kept hi h).table with hsame | hw
  · rw [hsame]
    exact ⟨le_rfl, Nat.le_succ _, fun _ _ => rfl⟩
  · obtain rfl | ⟨n, rfl⟩ | rfl := hw
    · obtain ⟨-, hsame | ⟨-, -, k, tab, hs, htab⟩⟩ := exec_fcCount_frame h
      · rw [hsame]; exact ⟨le_rfl, Nat.le_succ _, fun _ _ => rfl⟩
      · obtain ⟨hext, -⟩ := SymTable.slotFor_extends hs
        rw [htab]
        refine ⟨hext.nsym_le, hext.le_nsym, fun j hj => ?_⟩
        rw [SymTable.countOne_slots, ← hext.slot j hj]
        split
        · next hkj => rw [hkj]
        · rfl
    · obtain ⟨-, hsame | ⟨-, k, tab, c, m, -, hs, htab⟩⟩ := exec_ctLoad_frame h
      · rw [hsame]; exact ⟨le_rfl, Nat.le_succ _, fun _ _ => rfl⟩
      · obtain ⟨hext, -⟩ := SymTable.slotFor_extends hs
        rw [htab]
        exact ⟨hext.nsym_le, hext.le_nsym, fun j hj => by
          rw [((SymTable.Recodes.refl tab).setCode k c m).sym, hext.slot j hj]⟩
    · have hrec := exec_ctDerive_recodes h
      rw [hrec.nsym]
      exact ⟨le_rfl, Nat.le_succ _, fun j _ => hrec.sym j⟩

end Sys2Proof.Machine
end

section
/-! PROOFS. The statements on the words a command emits (spec 70_reset_and_hazards.md R113; 60_exceptions.md R94), with the
laws they need: how many words the drain and the walk over bits emit, and their format. -/

namespace Sys2Proof.Machine

theorem outputWord_unitWord (u : StorageUnit) : OutputWord (unitWord u) := .inl ⟨u, rfl⟩

theorem outputWord_symbolWord (y : Symbol) : OutputWord (symbolWord y) := .inr ⟨y, rfl⟩

/-- The drain emits one UNIT word for each 16 bits it drops. -/
theorem Encoder.drain_words (fuel : Nat) (e : Encoder) :
    16 * (Encoder.drain fuel e).2.length ≤ e.held.toNat ∧ ∀ w ∈ (Encoder.drain fuel e).2, OutputWord w := by
  induction fuel generalizing e with
  | zero => exact ⟨Nat.zero_le _, nofun⟩
  | succ n ih =>
    unfold Encoder.drain
    split
    · next h16 =>
      obtain ⟨hlen, hword⟩ := ih e.dropUnit
      rw [Encoder.dropUnit_held h16] at hlen
      refine ⟨?_, List.forall_mem_cons.2 ⟨outputWord_unitWord _, hword⟩⟩
      rw [List.length_cons]
      omega
    · exact ⟨Nat.zero_le _, nofun⟩

theorem decBits_words (tab : SymTable) (t : Tree) (r : Fin 1024) (u : StorageUnit) (js : List Nat) (d : Decoder) :
    ∀ w ∈ (decBits tab t r u js d).out, OutputWord w := by
  induction js generalizing d with
  | nil => exact nofun
  | cons j js ih =>
    rw [decBits]
    split
    · exact nofun
    · exact List.forall_mem_cons.2 ⟨outputWord_symbolWord _, ih _⟩
    · exact ih _

/-- The most words a command emits (R113), EN_SYM's from an encoder within its invariant. -/
def emitBound : Instr → Nat
  | .enSym => 4
  | .enFlush => 1
  | .deUnit _ => 16
  | .deLast _ _ => 16
  | _ => 0

/-- `t` is `s` with words of the right format added to PEND, no more than the command may emit. -/
structure Emits (i : Instr) (s t : State) (ws : List Word) : Prop where
  pend : t.pend = s.pend ++ ws
  format : ∀ w ∈ ws, OutputWord w
  bound : (i = .enSym → EncoderInv s.enc) → ws.length ≤ emitBound i

theorem Emits.none {i : Instr} {s t : State} (h : t.pend = s.pend) : Emits i s t [] :=
  ⟨by rw [h, List.append_nil], nofun, fun _ => Nat.zero_le _⟩

theorem exec_enSym_emits {s t : State} (h : exec .enSym s = .next t) : ∃ ws, Emits .enSym s t ws := by
  obtain ⟨-, rfl⟩ | ⟨-, -, rfl⟩ | ⟨-, -, -, rfl⟩ | ⟨-, -, x, -, rfl⟩ := execEnSym_cases h
  · exact ⟨[], .none rfl⟩
  · exact ⟨[], .none rfl⟩
  · exact ⟨[], .none rfl⟩
  · obtain ⟨hlen, hword⟩ := Encoder.drain_words 8 (s.enc.append x.code x.len.val)
    refine ⟨_, rfl, hword, fun he => ?_⟩
    have hinv := he rfl
    rw [Encoder.append_held hinv] at hlen
    have hheld := hinv.held
    have hx := x.len.isLt
    rw [emitBound]
    omega

theorem exec_enFlush_emits {s t : State} (h : exec .enFlush s = .next t) : ∃ ws, Emits .enFlush s t ws := by
  obtain ⟨-, rfl⟩ | ⟨-, -, rfl⟩ | ⟨-, -, rfl⟩ := execEnFlush_cases h
  · exact ⟨[], .none rfl⟩
  · exact ⟨[_], rfl, List.forall_mem_singleton.2 (outputWord_unitWord _), fun _ => le_rfl⟩
  · exact ⟨[], .none rfl⟩

/-- The walk over a unit's bits, as DE_UNIT and DE_LAST use it. -/
theorem decBits_emits (s : State) (r : Fin 1024) (u : StorageUnit) {nb : Nat} (hnb : nb ≤ 16) :
    (∀ w ∈ (decBits s.table s.tree r u (unitBits nb) s.dec).out, OutputWord w) ∧
      (decBits s.table s.tree r u (unitBits nb) s.dec).out.length ≤ 16 :=
  ⟨decBits_words _ _ _ _ _ _, (decBits_out_length ..).trans ((unitBits_length nb).trans_le hnb)⟩

theorem exec_deUnit_emits {s t : State} {u : StorageUnit} (h : exec (.deUnit u) s = .next t) :
    ∃ ws, Emits (.deUnit u) s t ws := by
  obtain ⟨-, rfl⟩ | ⟨-, r, -, ht⟩ := execDeUnit_cases h
  · exact ⟨[], .none rfl⟩
  · obtain ⟨hword, hlen⟩ := decBits_emits s r u le_rfl
    obtain ⟨-, rfl⟩ | ⟨j, -, rfl⟩ := ht
    · exact ⟨_, rfl, hword, fun _ => hlen⟩
    · exact ⟨_, rfl, hword, fun _ => hlen⟩

theorem exec_deLast_emits {s t : State} {u : StorageUnit} {skip : Nat} (h : exec (.deLast u skip) s = .next t) :
    ∃ ws, Emits (.deLast u skip) s t ws := by
  obtain ⟨-, rfl⟩ | ⟨-, r, e, -, rfl, ht⟩ := execDeLast_cases h
  · exact ⟨[], .none rfl⟩
  · obtain ⟨hword, hlen⟩ := decBits_emits s r u (Nat.sub_le 16 skip)
    obtain ⟨j, -, rfl⟩ | ⟨-, -, rfl⟩ | ⟨-, -, rfl⟩ := ht
    · exact ⟨_, rfl, hword, fun _ => hlen⟩
    · exact ⟨_, rfl, hword, fun _ => hlen⟩
    · exact ⟨_, rfl, hword, fun _ => hlen⟩

/-- A command other than SRESET only appends words to PEND. -/
theorem exec_emits {i : Instr} {s t : State} (hi : i ≠ .sreset) (h : exec i s = .next t) : ∃ ws, Emits i s t ws := by
  cases i with
  | sreset => exact absurd rfl hi
  | enSym => exact exec_enSym_emits h
  | enFlush => exact exec_enFlush_emits h
  | deUnit u => exact exec_deUnit_emits h
  | deLast u skip => exact exec_deLast_emits h
  | nop => cases h; exact ⟨[], .none rfl⟩
  | fcCount => exact ⟨[], .none (by rw [(exec_fcCount_frame h).1])⟩
  | ctLoad n => exact ⟨[], .none (by rw [(exec_ctLoad_frame h).1])⟩
  | ctDerive => exact ⟨[], .none (by rw [exec_ctDerive_frame h])⟩
  | fcRead n => exact ⟨[], .none (by rw [(readCommandsFrame _ s t ⟨n, .inl rfl⟩ h).1])⟩
  | ctRead n => exact ⟨[], .none (by rw [(readCommandsFrame _ s t ⟨n, .inr (.inl rfl)⟩ h).1])⟩
  | trRead n => exact ⟨[], .none (by rw [(readCommandsFrame _ s t ⟨n, .inr (.inr rfl)⟩ h).1])⟩
  | tbBuild => exact ⟨[], .none (by rw [(treeCommandsFrame _ s t (.inl rfl) h).1])⟩
  | trRebuild => exact ⟨[], .none (by rw [(treeCommandsFrame _ s t (.inr rfl) h).1])⟩
  | enStart => exact ⟨[], .none (by rw [(encoderCommandsFrame _ s t (.inl rfl) h).1]; cases h; rfl)⟩
  | deStart => exact ⟨[], .none ((decoderCommandsFrame _ s t (.inl rfl) h).2.2.1 rfl)⟩

/-- Settles O13: the words' number is at most `emitBound`. -/
theorem commandsOnlyAppendWords : Obligations.CommandsOnlyAppendWords := by
  intro i s t hi h
  obtain ⟨ws, hpend, -, hbound⟩ := exec_emits hi h
  refine ⟨ws, hpend, (exec_kept hi h).fifo, ?_⟩
  cases i with
  | enSym => exact fun he => hbound fun _ => he
  | enFlush | deUnit _ | deLast _ _ => exact hbound nofun
  | _ => exact List.length_eq_zero_iff.1 (Nat.le_zero.1 (hbound nofun))

/-! ## The words owed at E_CMD_BUSY (60_exceptions.md R94) -/

theorem outputsOwed_of_exec_none {s : State} (h : s.exec = none) : outputsOwed s = [] := by
  simp [outputsOwed, h]

theorem outputsOwed_of_next {s u : State} {c : Command} {i : Instr} (hc : s.exec = some c) (hd : decode c.word = .ok i)
    (hu : exec i s = .next u) : outputsOwed s = u.pend.drop s.pend.length := by
  simp [outputsOwed, hc, hd, hu]

/-- PEND and the words owed are what PEND would be if the latched command were performed now. -/
theorem pend_append_outputsOwed {s : State} {full : List Word}
    (h : s.exec = none ∧ full = s.pend ∨
      ∃ c i u, s.exec = some c ∧ decode c.word = .ok i ∧ i ≠ .sreset ∧ exec i s = .next u ∧ full = u.pend) :
    s.pend ++ outputsOwed s = full := by
  obtain ⟨hx, rfl⟩ | ⟨c, i, u, hc, hd, hi, hu, rfl⟩ := h
  · rw [outputsOwed_of_exec_none hx, List.append_nil]
  · obtain ⟨ws, hpend, -, -⟩ := exec_emits hi hu
    rw [outputsOwed_of_next hc hd hu, hpend, List.drop_left]

/-- Settles O9: as many words stay as the draw says. -/
theorem busyCommandKeepsPrefix : Obligations.BusyCommandKeepsPrefix := by
  intro w s full hw he hb hfull
  refine ⟨s.survivors full.length, Nat.le_of_lt_succ (Nat.mod_lt _ (Nat.succ_pos _)), ?_⟩
  rw [accept_of_busy hw he hb, State.abortBusy, pend_append_outputsOwed hfull]
  exact congrArg Host.Outcome.next (State.raiseWith_of_clear (s := { s.drew with pend := _, exec := none }) he w .cmdBusy 0)

end Sys2Proof.Machine
end

section
/-! PROOFS. The statements on the CORE's steps, on the register window and on the error state (spec 10_state.md R17, R20;
20_memory.md R39, R41, R46 to R48; 60_exceptions.md R92, R93), with the laws they need: the cases of the two steps, a read of
each kind of register, STATUS under the mask of the drawn bits. -/

namespace Sys2Proof.Machine

/-! ## The CORE's steps (20_memory.md R47, R48) -/

theorem step_of_nextTurn {s s' : State} {t : Turn} (h : s.nextTurn = (t, s')) : step s = takeTurn t s' := by
  rw [step, h]

theorem executeStep_of_exec_none {s : State} (h : s.exec = none) : executeStep s = .next s := by
  simp [executeStep, h]

theorem executeStep_of_error {s : State} {c : Command} (hc : s.exec = some c) (he : s.error.err = true) :
    executeStep s = .next { s with exec := none } := by
  simp [executeStep, hc, he]

theorem perform_of_next {i : Instr} {s t : State} (h : exec i s = .next t) : perform i s = .next { t with exec := none } := by
  rw [perform, h]

/-- Settles O6: the execute step has a law for each case. -/
theorem stepPerformsLatchedCommand : Obligations.StepPerformsLatchedCommand := by
  intro s s' h
  have hstep : step s = executeStep s' := step_of_nextTurn h
  rw [hstep]
  refine ⟨executeStep_of_exec_none, fun c => executeStep_of_error, fun c i hc he hd => ?_⟩
  rw [executeStep_of_decode hc he hd]
  exact ⟨s'.latched_of_exec c hc, fun t => perform_of_next, fun f hf => by rw [perform, hf], fun r hr => by rw [perform, hr]⟩

theorem tableWord_toNat (w : Word) : tableWord 32 w.toNat = w := by
  rw [tableWord, Nat.mod_eq_of_lt w.isLt, BitVec.ofNat_toNat, BitVec.setWidth_eq]

/-- Settles O10: SRESET's word is the host's next access; any other is latched, and the execute step comes next. -/
theorem fetchedWordRuns : Obligations.FetchedWordRuns := by
  intro s w i hd
  constructor
  · intro hi
    have hw : ¬ w = 0x00000001#32 := ne_one_of_decode hi hd
    rw [State.withFetchWord, tableWord_toNat, if_neg hw, step_of_nextTurn (State.nextTurn_cons rfl)]
    exact executeStep_of_decode (s := { s with exec := some ⟨w, s.args, false⟩, error := ⟨false, 0, 0, 0⟩ }) rfl rfl hd
  · rintro rfl
    obtain rfl : w = 0x00000001#32 := (encodeOfDecode w _ hd).2.symm
    rw [State.withFetchWord, tableWord_toNat, if_pos rfl, step_of_nextTurn (State.nextTurn_cons rfl)]
    rfl

theorem moveStep_of_room {s : State} {w : Word} {rest : List Word} (hp : s.pend = w :: rest) (hroom : s.fifo.length < 16) :
    moveStep s = { s with fifo := s.fifo ++ [w], pend := rest } := by
  rw [moveStep, hp]
  exact if_pos hroom

theorem moveStep_of_pend_nil {s : State} (hp : s.pend = []) : moveStep s = s := by
  rw [moveStep, hp]

theorem moveStep_of_full {s : State} (hfull : 16 ≤ s.fifo.length) : moveStep s = s := by
  rcases moveStep_cases s with h | ⟨_, _, _, hroom, _⟩
  · exact h
  · exact absurd hroom (Nat.not_lt.2 hfull)

/-- Settles O12: the move step has a law for each case. -/
theorem moveStepMovesHead : Obligations.MoveStepMovesHead := fun _ =>
  ⟨fun _ _ hp hroom => congrArg Host.Outcome.next (moveStep_of_room hp hroom),
    fun h => congrArg Host.Outcome.next (h.elim moveStep_of_pend_nil moveStep_of_full)⟩

/-! ## The register window (10_state.md R17; 20_memory.md R39, R41, R46) -/

/-- Settles O14: while nothing is drawn every register reads exactly. -/
theorem registerReads : Obligations.RegisterReads := by
  intro s hb he
  have reads (r : Reg) (ho : r ≠ .outData) : s.hostRead r.offset .word = (s.regValue r, s) :=
    State.hostRead_of_readsDrawn_eq_false (by simp [State.readsDrawn, hb, he]) ho
  exact ⟨reads .id nofun, reads .params nofun, reads .status nofun, reads .errInfo nofun, reads .cmd nofun,
    reads .arg0 nofun, reads .arg1 nofun, reads .arg2 nofun, reads .res0 nofun, reads .res1 nofun, reads .res2 nofun,
    reads .res3 nofun, reads .nsym nofun, reads .nnode nofun, reads .total nofun, reads .params2 nofun, reads .errCmd nofun,
    reads .root nofun⟩

/-- A word whose upper field is a constant over zeros joins with a lower field bit by bit. -/
theorem append_eq_or_setWidth {m n : Nat} (hi : BitVec m) (lo : BitVec n) :
    hi ++ lo = (hi ++ (0 : BitVec n)) ||| lo.setWidth (m + n) := by
  apply BitVec.eq_of_toNat_eq
  rw [BitVec.toNat_or, BitVec.toNat_append, BitVec.toNat_append, BitVec.toNat_setWidth_of_le (Nat.le_add_left ..)]
  simp

/-- A read of OUT_DATA with a word in the FIFO pops it (20_memory.md R46). -/
theorem State.hostRead_outData_of_cons {s : State} {w : Word} {rest : List Word} (h : s.fifo = w :: rest) :
    s.hostRead Reg.outData.offset .word = (w, { s with fifo := rest }) := by
  simp [State.readReg, State.regValue, h]

theorem State.outCount_toNat {s : State} (h : s.fifo.length ≤ 16) : s.outCount.toNat = s.fifo.length :=
  Nat.mod_eq_of_lt (by omega)

/-- Settles O15: the formats are fields joined, and the FIFO's cases are those of the move step and of the pop. -/
theorem outDataPops : Obligations.OutDataPops :=
  ⟨fun u => append_eq_or_setWidth 0xA000#16 u, fun y => append_eq_or_setWidth 0b11000000000#11 y, fun s =>
    ⟨fun h => by rw [s.statusWord_outCount, State.outCount_toNat h], moveStep_of_full, fun _ _ => moveStep_of_room,
      State.hostRead_outData_of_empty, fun _ _ => State.hostRead_outData_of_cons⟩⟩

theorem windowOffset_of_mem {a : Nat} (h : Config.huffBase ≤ a ∧ a < Config.huffBase + 128) :
    windowOffset a = some ⟨a - Config.huffBase, by omega⟩ := dif_pos h

/-- Settles O20: the window starts at HUFF_BASE and has 128 bytes. -/
theorem windowAddresses : Obligations.WindowAddresses := by
  refine ⟨Nat.mul_mod_right 128 _, fun off => ?_, fun a ha => dif_neg (by omega)⟩
  rw [windowOffset_of_mem ⟨Nat.le_add_right .., Nat.add_lt_add_left off.isLt _⟩]
  exact congrArg some (Fin.ext (Nat.add_sub_cancel_left ..))

/-! ## Reads in every state (60_exceptions.md R93; 70_reset_and_hazards.md R108) -/

/-- Outside the drawn bits STATUS reads exactly. -/
theorem mixStatus_and (exact draw : Word) : mixStatus exact draw &&& 0xFFFFFF03#32 = exact &&& 0xFFFFFF03#32 := by
  have hmask : 0xFFFFFF03#32 = ~~~drawnStatusBits := by decide
  apply BitVec.eq_of_getLsbD_eq
  intro i hi
  rw [hmask, mixStatus]
  simp only [BitVec.getLsbD_and, BitVec.getLsbD_or, BitVec.getLsbD_not, hi, decide_true, Bool.true_and]
  cases drawnStatusBits.getLsbD i <;> simp

theorem State.hostRead_status (s : State) : ∃ v d,
    s.hostRead Reg.status.offset .word = (v, { s with env := { s.env with draws := d } }) ∧
      v &&& 0xFFFFFF03#32 = s.statusWord &&& 0xFFFFFF03#32 := by
  rw [State.hostRead_offset, State.readReg]
  split
  · exact ⟨_, _, rfl, mixStatus_and _ _⟩
  · exact ⟨_, s.env.draws, rfl, rfl⟩

/-- A register that is neither volatile nor STATUS nor OUT_DATA reads exactly in every state. -/
theorem State.hostRead_of_not_volatile (s : State) {r : Reg} (hv : r.volatile = false) (hs : r ≠ .status)
    (ho : r ≠ .outData) : s.hostRead r.offset .word = (s.regValue r, s) := by
  simp [State.readReg, hv]

theorem State.hostRead_of_volatile (s : State) {r : Reg} (hv : r.volatile = true) :
    ∃ v d, s.hostRead r.offset .word = (v, { s with env := { s.env with draws := d } }) := by
  have hs : r ≠ .status := by rintro rfl; cases hv
  have ho : r ≠ .outData := by rintro rfl; cases hv
  cases hd : s.readsDrawn with
  | true => exact ⟨s.draw, s.env.draws + 1, by simp [State.readReg, hv, hd, State.drew]⟩
  | false => exact ⟨s.regValue r, s.env.draws, by rw [State.hostRead_of_readsDrawn_eq_false hd ho]⟩

/-- Settles O22: each register is STATUS, exact in every state, or volatile. -/
theorem readsWhileBusyOrInError : Obligations.ReadsWhileBusyOrInError := by
  intro s
  have reads (r : Reg) (hv : r.volatile = false) (hs : r ≠ .status) (ho : r ≠ .outData) :=
    s.hostRead_of_not_volatile hv hs ho
  refine ⟨s.hostRead_status, reads .id rfl nofun nofun, reads .params rfl nofun nofun, reads .errInfo rfl nofun nofun,
    reads .arg0 rfl nofun nofun, reads .arg1 rfl nofun nofun, reads .arg2 rfl nofun nofun, reads .params2 rfl nofun nofun,
    reads .errCmd rfl nofun nofun, fun off hoff => ?_⟩
  obtain ⟨r, hr, rfl⟩ : ∃ r ∈ [Reg.res0, .res1, .res2, .res3, .nsym, .nnode, .total, .root], r.offset = off :=
    List.mem_map.1 hoff
  refine s.hostRead_of_volatile ?_
  revert r
  decide

/-! ## The error state (60_exceptions.md R92) -/

/-- `t` has the error and everything a command may change as `s` has it. -/
structure KeptInError (s t : State) : Prop where
  error : t.error = s.error
  res : t.res = s.res
  table : t.table = s.table
  tree : t.tree = s.tree
  enc : t.enc = s.enc
  dec : t.dec = s.dec

theorem State.hostRead_keptInError (s : State) (off : Fin 128) (width : Width) :
    KeptInError s (s.hostRead off width).2 := by
  obtain ⟨fifo, draws, h⟩ := s.hostRead_frame off width
  rw [h]
  exact ⟨rfl, rfl, rfl, rfl, rfl, rfl⟩

/-- In the error state a write resets, or reaches at most an operand register. -/
theorem hostWrite_of_error {off : Fin 128} {width : Width} {v : Word} {s t : State} (he : s.error.err = true)
    (h : hostWrite off width v s = .next t) : t = s.resetCore ∨ KeptInError s t := by
  obtain rfl | ⟨a, rfl⟩ | ⟨-, ha⟩ := hostWrite_cases h
  · exact .inr ⟨rfl, rfl, rfl, rfl, rfl, rfl⟩
  · exact .inr ⟨rfl, rfl, rfl, rfl, rfl, rfl⟩
  · obtain ⟨-, rfl⟩ | ⟨-, -, rfl⟩ | ⟨-, hc, -⟩ | ⟨-, hc, -⟩ | ⟨-, hc, -⟩ := accept_cases ha
    · exact .inl rfl
    · exact .inr ⟨rfl, rfl, rfl, rfl, rfl, rfl⟩
    all_goals simp [he] at hc

theorem hostStep_of_error {op : HostOp} {s t : State} (he : s.error.err = true) (h : hostStep op s = .next t) :
    t = s.resetCore ∨ KeptInError s t := by
  cases op with
  | read off width =>
    cases h
    obtain ⟨h1, h2, h3, h4, h5, h6⟩ := s.hostRead_keptInError off width
    exact .inr ⟨h1, h2, h3, h4, h5, h6⟩
  | write off width v => exact hostWrite_of_error he h
  | poll =>
    cases h
    obtain ⟨h1, h2, h3, h4, h5, h6⟩ := s.hostRead_keptInError Reg.status.offset .word
    exact .inr ⟨h1, h2, h3, h4, h5, h6⟩
  | readRows =>
    cases h
    obtain ⟨h1, h2, h3, h4, h5, h6⟩ := s.hostRead_keptInError Reg.nsym.offset .word
    exact .inr ⟨h1, h2, h3, h4, h5, h6⟩

/-- The host's turn in the error state: its access is performed on `s` with the access taken off its program. -/
theorem hostTurn_of_error {s t : State} (he : s.error.err = true) (h : hostTurn s = .next t) :
    (∃ e, t = { State.reset with env := e }) ∨ KeptInError s t := by
  rw [hostTurn] at h
  split at h
  · cases h
    exact .inr ⟨rfl, rfl, rfl, rfl, rfl, rfl⟩
  · next op rest _ =>
    obtain rfl | ⟨h1, h2, h3, h4, h5, h6⟩ :=
      hostStep_of_error (s := { s with env := { s.env with host := rest } }) he h
    · exact .inl ⟨_, rfl⟩
    · exact .inr ⟨h1, h2, h3, h4, h5, h6⟩

/-- The CORE's steps and the host's accesses in the error state, whoever's turn it is. -/
theorem takeTurn_of_error {turn : Turn} {s t : State} (he : s.error.err = true) (h : takeTurn turn s = .next t) :
    (∃ e, t = { State.reset with env := e }) ∨ KeptInError s t := by
  cases turn with
  | host => exact hostTurn_of_error he h
  | execute =>
    obtain ⟨-, rfl⟩ | ⟨-, -, rfl⟩ | ⟨_, _, _, -, hc, -⟩ := executeStep_cases h
    · exact .inr ⟨rfl, rfl, rfl, rfl, rfl, rfl⟩
    · exact .inr ⟨rfl, rfl, rfl, rfl, rfl, rfl⟩
    · simp [he] at hc
  | move =>
    cases h
    obtain hm | ⟨w, rest, -, -, hm⟩ := moveStep_cases s
    · rw [hm]; exact .inr ⟨rfl, rfl, rfl, rfl, rfl, rfl⟩
    · rw [hm]; exact .inr ⟨rfl, rfl, rfl, rfl, rfl, rfl⟩
  | hardReset =>
    cases h
    exact .inl ⟨_, rfl⟩

/-- Settles O24: choosing whose turn it is changes only the list of turns. -/
theorem firstErrorIsKept : Obligations.FirstErrorIsKept := by
  intro s t he h
  obtain ⟨ts, hts⟩ := s.nextTurn_state
  rw [step, hts] at h
  obtain hreset | ⟨h1, h2, h3, h4, h5, h6⟩ := 
    takeTurn_of_error (s := { s with env := { s.env with turns := ts } }) he h
  · exact .inl hreset
  · exact .inr ⟨h1, h2, h3, h4, h5, h6⟩

end Sys2Proof.Machine
end

section
/-! PROOFS. The statements on TB_BUILD (spec 42_tree_builder.md R69, R71), with the laws they need: the child fields of the
allocated nodes, the weight of a full subtree, and what every round of the merge loop keeps. -/

namespace Sys2Proof.Machine

/-- Settles O30: an equation of the builder for each of the two sizes. -/
theorem tbBuildOfAtMostOneSlot : Obligations.TbBuildOfAtMostOneSlot := by
  intro s
  constructor
  · intro h
    have hb : s.tree.build s.table = ⟨s.tree.nodes, 0, .empty⟩ := by simp [Tree.build, h]
    simp [exec, execTbBuild, hb]
  · intro h
    have hb : s.tree.build s.table = ⟨s.tree.nodes, 0, .leaf 0⟩ := by simp [Tree.build, h]
    simp [exec, execTbBuild, hb]

/-! ## The child fields of the allocated nodes -/

/-- The allocated nodes in order. -/
def Tree.allocated (t : Tree) : List (Fin 1024) := (List.finRange 1024).take t.nnode.val

/-- The child fields of the allocated nodes. -/
def Tree.fields (t : Tree) : List (Fin 1024 × Bool) := t.allocated.flatMap fun k => [(k, false), (k, true)]

/-- What a child field holds. -/
def Tree.childAt (t : Tree) (kb : Fin 1024 × Bool) : Ref := t.nodes[kb.1].child kb.2

theorem Tree.mem_allocated (t : Tree) (k : Fin 1024) : k ∈ t.allocated ↔ k.val < t.nnode.val := by
  rw [Tree.allocated, List.mem_take_iff_getElem]
  constructor
  · rintro ⟨n, hn, rfl⟩
    simp only [List.getElem_finRange, Fin.val_cast]
    omega
  · intro h
    exact ⟨k.val, by simp only [List.length_finRange]; omega, by simp⟩

@[simp] theorem Tree.allocated_length (t : Tree) : t.allocated.length = t.nnode.val := by
  simp only [Tree.allocated, List.length_take, List.length_finRange]
  omega

theorem Tree.allocated_nodup (t : Tree) : t.allocated.Nodup :=
  (List.nodup_finRange 1024).sublist (List.take_sublist _ _)

theorem Tree.allocated_of_alloc {t t' : Tree} {n : Node} {k : Fin 1024} (h : t.alloc n = some (k, t')) :
    t'.allocated = t.allocated ++ [k] := by
  obtain ⟨hk, hn, -, -⟩ := Tree.alloc_some h
  have hlt : t.nnode.val < (List.finRange 1024).length := by
    rw [List.length_finRange, ← hk]
    exact k.isLt
  have hlast : (List.finRange 1024)[t.nnode.val] = k := Fin.ext (by simp [hk])
  rw [Tree.allocated, hn, List.take_succ_eq_append_getElem hlt, hlast, Tree.allocated]

theorem Tree.mem_fields {t : Tree} {kb : Fin 1024 × Bool} : kb ∈ t.fields ↔ kb.1.val < t.nnode.val := by
  obtain ⟨k, b⟩ := kb
  rw [Tree.fields, List.mem_flatMap, ← t.mem_allocated]
  constructor
  · rintro ⟨m, hm, hkb⟩
    simp only [List.mem_cons, Prod.mk.injEq, List.not_mem_nil, or_false] at hkb
    obtain ⟨rfl, -⟩ | ⟨rfl, -⟩ := hkb
    · exact hm
    · exact hm
  · intro hk
    exact ⟨k, hk, by cases b <;> simp⟩

theorem Tree.fields_length (t : Tree) : t.fields.length = 2 * t.nnode.val := by
  simp [Tree.fields, List.length_flatMap, Nat.mul_comm]

/-- A node allocated for two children adds their two fields. -/
theorem Tree.map_childAt_of_alloc {t t' : Tree} {n : Node} {k : Fin 1024} (h : t.alloc n = some (k, t')) :
    t'.fields.map t'.childAt = t.fields.map t.childAt ++ [n.c0, n.c1] := by
  obtain ⟨hk, -, -, hnodes⟩ := Tree.alloc_some h
  rw [Tree.fields, Tree.allocated_of_alloc h, List.flatMap_append, List.map_append, List.flatMap_singleton]
  congr 1
  · refine List.map_congr_left fun kb hkb => ?_
    have hlt := Tree.mem_fields.1 hkb
    rw [Tree.childAt, hnodes, if_neg (by omega), Tree.childAt]
  · simp [Tree.childAt, hnodes, Node.child]

/-! ## The weight below a Ref (R69) -/

/-- The counts of these leaves together. -/
def rowsWeight (tab : SymTable) (rows : List LeafRow) : Nat := (rows.map fun x => tab.slots[x.2].count.toNat).sum

/-- The subtree at `r` is full and its leaves' counts add up to `n`. -/
def Tree.Weighs (t : Tree) (tab : SymTable) (r : Ref) (n : Nat) : Prop :=
  ∃ rows, t.Leaves r rows ∧ rowsWeight tab rows = n

theorem Tree.Weighs.mono {t t' : Tree} {tab : SymTable} {r : Ref} {n : Nat} (h : t.Weighs tab r n)
    (hn : t.nnode.val ≤ t'.nnode.val) (hnodes : ∀ k : Fin 1024, k.val < t.nnode.val → t'.nodes[k] = t.nodes[k]) :
    t'.Weighs tab r n := by
  obtain ⟨rows, hl, hw⟩ := h
  exact ⟨rows, hl.mono hn hnodes, hw⟩

theorem Tree.Weighs.node {t : Tree} {tab : SymTable} {k : Fin 1024} {a b : Nat} (hk : k.val < t.nnode.val)
    (h₀ : t.Weighs tab t.nodes[k].c0 a) (h₁ : t.Weighs tab t.nodes[k].c1 b) : t.Weighs tab (.node k) (a + b) := by
  obtain ⟨rows₀, hl₀, rfl⟩ := h₀
  obtain ⟨rows₁, hl₁, rfl⟩ := h₁
  exact ⟨_, .node k rows₀ rows₁ hk hl₀ hl₁, by simp [rowsWeight, underBit, Function.comp_def]⟩

/-- A bound on the nodes of a path where children come before their parents. -/
def Ref.height : Ref → Nat
  | .node k => k.val + 1
  | _ => 0

theorem Ref.height_le (r : Ref) : r.height ≤ 1024 := by
  cases r with
  | node k => exact k.isLt
  | _ => exact Nat.zero_le _

theorem Tree.ChildrenBelow.height_child_le {t : Tree} (hb : t.ChildrenBelow) {k : Fin 1024} (hk : k.val < t.nnode.val)
    (b : Bool) : (t.nodes[k].child b).height ≤ k.val := by
  cases hc : t.nodes[k].child b with
  | node m => exact hb k m b hk hc
  | _ => exact Nat.zero_le _

/-- Enough fuel for the height gives the whole weight. -/
theorem Tree.Leaves.weight_eq {t : Tree} {tab : SymTable} {r : Ref} {rows : List LeafRow} (h : t.Leaves r rows)
    (hb : t.ChildrenBelow) {fuel : Nat} (hfuel : r.height ≤ fuel) : t.weight tab fuel r = rowsWeight tab rows := by
  induction h generalizing fuel with
  | leaf i => simp [Tree.weight, rowsWeight]
  | node k rows₀ rows₁ hk h₀ h₁ ih₀ ih₁ =>
    obtain ⟨fuel, rfl⟩ := Nat.exists_eq_succ_of_ne_zero (Nat.ne_zero_of_lt hfuel)
    have hkf : k.val ≤ fuel := Nat.le_of_succ_le_succ hfuel
    rw [Tree.weight, ih₀ ((hb.height_child_le hk false).trans hkf), ih₁ ((hb.height_child_le hk true).trans hkf)]
    simp [rowsWeight, underBit, Function.comp_def]

theorem Tree.Weighs.weight_eq {t : Tree} {tab : SymTable} {r : Ref} {n : Nat} (h : t.Weighs tab r n)
    (hb : t.ChildrenBelow) : t.weight tab 1024 r = n := by
  obtain ⟨rows, hl, rfl⟩ := h
  exact hl.weight_eq hb r.height_le

/-! ## What every round of the merge loop keeps (R69, R71) -/

/-- The working list `w` and the tree memory `t`, begun on `base`, in the middle of merging the slots of `tab`. -/
structure Merging (tab : SymTable) (base : Tree) (w : List Weighted) (t : Tree) : Prop where
  /-- The weights descend. -/
  sorted : w.Pairwise Weighted.NotLighter
  /-- The slots and the nodes are just the children and the elements of the list, each once. -/
  refs : (t.fields.map t.childAt ++ w.map Weighted.ref).Perm (tab.valid.map Ref.leaf ++ t.allocated.map Ref.node)
  below : t.ChildrenBelow
  /-- The elements are full trees and weigh what the list says. -/
  weighs : ∀ x ∈ w, t.Weighs tab x.ref x.weight
  /-- No left child is heavier than the right one. -/
  ordered : ∀ k : Fin 1024, k.val < t.nnode.val →
    ∃ a b, a ≤ b ∧ t.Weighs tab t.nodes[k].c0 a ∧ t.Weighs tab t.nodes[k].c1 b
  total : (w.map Weighted.weight).sum = (tab.valid.map fun i => tab.slots[i].count.toNat).sum
  kept : ∀ k : Fin 1024, t.nnode.val ≤ k.val → t.nodes[k] = base.nodes[k]

namespace Merging

variable {tab : SymTable} {base t : Tree} {w : List Weighted}

/-- A child or an element of the list is a valid slot or an allocated node. -/
theorem ref_cases (h : Merging tab base w t) {r : Ref} (hr : r ∈ t.fields.map t.childAt ++ w.map Weighted.ref) :
    (∃ i : Fin 256, i.val < tab.nsym.val ∧ r = .leaf i) ∨ ∃ k : Fin 1024, k.val < t.nnode.val ∧ r = .node k := by
  rcases List.mem_append.1 (h.refs.mem_iff.1 hr) with hm | hm
  · obtain ⟨i, hi, rfl⟩ := List.mem_map.1 hm
    exact .inl ⟨i, (tab.mem_valid i).1 hi, rfl⟩
  · obtain ⟨k, hk, rfl⟩ := List.mem_map.1 hm
    exact .inr ⟨k, (t.mem_allocated k).1 hk, rfl⟩

theorem lt_of_node_mem (h : Merging tab base w t) {x : Weighted} (hx : x ∈ w) {m : Fin 1024} (hm : x.ref = .node m) :
    m.val < t.nnode.val := by
  obtain ⟨i, -, hi⟩ | ⟨k, hk, hr⟩ := h.ref_cases (List.mem_append_right _ (List.mem_map_of_mem hx))
  · rw [hm] at hi
    cases hi
  · rw [hm] at hr
    cases hr
    exact hk

theorem start (tab : SymTable) (base : Tree) : Merging tab base (stableSortDesc tab.leaves) { base with nnode := 0 } where
  sorted := stableSortDesc_pairwise _
  refs := by
    have hperm := (stableSortDesc_perm tab.leaves).map Weighted.ref
    simpa [Tree.fields, Tree.allocated, SymTable.leaves, Function.comp_def] using hperm
  below := fun _ _ _ hk => absurd hk (Nat.not_lt_zero _)
  weighs := by
    intro x hx
    obtain ⟨i, -, rfl⟩ := List.mem_map.1 ((stableSortDesc_perm _).mem_iff.1 hx)
    exact ⟨_, .leaf i, by simp [rowsWeight]⟩
  ordered := fun _ hk => absurd hk (Nat.not_lt_zero _)
  total := by
    rw [((stableSortDesc_perm tab.leaves).map _).sum_eq, SymTable.leaves, List.map_map]
    rfl
  kept := fun _ _ => rfl

/-- One round: the last two elements become the children of a new node, which stands for them in the list. -/
theorem round {r l : Weighted} {k : Fin 1024} {t' : Tree} (h : Merging tab base (w ++ [r, l]) t)
    (ha : t.alloc ⟨l.ref, r.ref⟩ = some (k, t')) :
    Merging tab base (stableSortDesc (w ++ [⟨.node k, l.weight + r.weight⟩])) t' := by
  obtain ⟨hk, hn, -, hnodes⟩ := Tree.alloc_some ha
  have hr : r ∈ w ++ [r, l] := by simp
  have hl : l ∈ w ++ [r, l] := by simp
  have hold : ∀ m : Fin 1024, m.val < t.nnode.val → t'.nodes[m] = t.nodes[m] := fun m hm => by
    rw [hnodes, if_neg (by omega)]
  have hnew : t'.nodes[k] = ⟨l.ref, r.ref⟩ := by rw [hnodes, if_pos rfl]
  have hcase : ∀ m : Fin 1024, m.val < t'.nnode.val → m.val < t.nnode.val ∨ m = k := fun m hm => by omega
  have hkeep : ∀ {ref n}, t.Weighs tab ref n → t'.Weighs tab ref n := fun hw => hw.mono (by omega) hold
  have hperm := stableSortDesc_perm (w ++ [⟨.node k, l.weight + r.weight⟩])
  refine ⟨stableSortDesc_pairwise _, ?refs, ?below, ?weighs, ?ordered, ?total, ?kept⟩
  case refs =>
    rw [Tree.map_childAt_of_alloc ha, Tree.allocated_of_alloc ha]
    refine ((hperm.map Weighted.ref).append_left _).trans ?_
    have hrefs := h.refs
    simp only [List.perm_iff_count, List.count_append, List.map_append, List.map_cons, List.map_nil, List.count_cons,
      List.count_nil] at hrefs ⊢
    intro ref
    have := hrefs ref
    omega
  case below =>
    intro m c b hm hc
    rcases hcase m hm with hlt | rfl
    · rw [hold m hlt] at hc
      exact h.below m c b hlt hc
    · rw [hnew] at hc
      have hcn : c.val < t.nnode.val := by
        cases b with
        | false => exact h.lt_of_node_mem hl hc
        | true => exact h.lt_of_node_mem hr hc
      exact Fin.lt_def.2 (hk ▸ hcn)
  case weighs =>
    intro x hx
    rcases List.mem_append.1 (hperm.mem_iff.1 hx) with hx | hx
    · exact hkeep (h.weighs x (List.mem_append_left _ hx))
    · obtain rfl := List.mem_singleton.1 hx
      refine .node (by omega) ?_ ?_
      · rw [hnew]
        exact hkeep (h.weighs l hl)
      · rw [hnew]
        exact hkeep (h.weighs r hr)
  case ordered =>
    intro m hm
    rcases hcase m hm with hlt | rfl
    · obtain ⟨a, b, hab, ha, hb⟩ := h.ordered m hlt
      rw [hold m hlt]
      exact ⟨a, b, hab, hkeep ha, hkeep hb⟩
    · rw [hnew]
      have hle : l.weight ≤ r.weight := List.rel_of_pairwise_cons (List.pairwise_append.1 h.sorted).2.1 (by simp)
      exact ⟨_, _, hle, hkeep (h.weighs l hl), hkeep (h.weighs r hr)⟩
  case total =>
    rw [(hperm.map _).sum_eq, ← h.total]
    simp [Nat.add_comm]
  case kept =>
    intro m hm
    rw [hnodes, if_neg (by omega)]
    exact h.kept m (by omega)

/-- The slots and the nodes are all different Refs. -/
theorem refs_nodup (tab : SymTable) (t : Tree) : (tab.valid.map Ref.leaf ++ t.allocated.map Ref.node).Nodup := by
  refine List.nodup_append.2 ⟨tab.valid_nodup.map fun _ _ => Ref.leaf.inj, t.allocated_nodup.map fun _ _ => Ref.node.inj, ?_⟩
  intro a ha b hb
  obtain ⟨i, -, rfl⟩ := List.mem_map.1 ha
  obtain ⟨k, -, rfl⟩ := List.mem_map.1 hb
  exact Ref.noConfusion

variable {x : Weighted}

/-- With one element left there is one node less than slots. -/
theorem nnode_succ (h : Merging tab base [x] t) : t.nnode.val + 1 = tab.nsym.val := by
  have := h.refs.length_eq
  simp only [List.length_append, List.length_map, Tree.fields_length, List.length_singleton, SymTable.valid_length,
    Tree.allocated_length] at this
  omega

/-- A slot or a node other than the element left is the child in exactly one field. -/
theorem existsUnique_field (h : Merging tab base [x] t) {r : Ref}
    (hr : r ∈ tab.valid.map Ref.leaf ++ t.allocated.map Ref.node) (hx : r ≠ x.ref) :
    ∃! kb : Fin 1024 × Bool, kb.1.val < t.nnode.val ∧ t.nodes[kb.1].child kb.2 = r := by
  have hnodup := ((h.refs.nodup_iff).2 (refs_nodup tab t)).of_append_left
  obtain ⟨kb, hkb, hchild⟩ := List.mem_map.1 <|
    (List.mem_append.1 (h.refs.mem_iff.2 hr)).resolve_right fun hm => hx (List.mem_singleton.1 hm)
  refine ⟨kb, ⟨Tree.mem_fields.1 hkb, hchild⟩, fun kb' ⟨hlt, hchild'⟩ => ?_⟩
  exact List.inj_on_of_nodup_map hnodup (Tree.mem_fields.2 hlt) hkb (hchild'.trans hchild.symm)

/-- The element left is the last node: no other node has it as a child, which would have to come before it. -/
theorem ref_eq_last (h : Merging tab base [x] t) {k : Fin 1024} (hk : k.val + 1 = t.nnode.val) : x.ref = .node k := by
  by_contra hx
  have hmem : Ref.node k ∈ tab.valid.map Ref.leaf ++ t.allocated.map Ref.node :=
    List.mem_append_right _ (List.mem_map_of_mem ((t.mem_allocated k).2 (by omega)))
  obtain ⟨⟨m, b⟩, ⟨hm, hchild⟩, -⟩ := h.existsUnique_field hmem (Ne.symm hx)
  have hm : m.val < t.nnode.val := hm
  have : k < m := h.below m k b hm hchild
  omega

end Merging

/-- TB_BUILD over two slots or more merges until one element is left, the root. -/
theorem Tree.build_merging (t : Tree) {tab : SymTable} (h : 2 ≤ tab.nsym.val) :
    ∃ x t', Merging tab t [x] t' ∧ t.build tab = { t' with root := x.ref } := by
  have hlen : (stableSortDesc tab.leaves).length = tab.nsym.val := by simp [SymTable.leaves]
  have hroom : 0 + (stableSortDesc tab.leaves).length ≤ 1025 := by omega
  rw [Tree.build_of_two_le h]
  exact mergeLoop_induction (P := Merging tab t) (fun _ _ _ _ _ _ hm ha => hm.round ha) (t := { t with nnode := 0 })
    (List.ne_nil_of_length_pos (by omega)) hlen.le hroom (Merging.start tab t)

/-- Settles O31: what the rounds keep, read where one element is left. -/
theorem tbBuildTree : Obligations.TbBuildTree := by
  intro s htwo
  obtain ⟨x, t, h, hbuild⟩ := s.tree.build_merging htwo
  have hnn := h.nnode_succ
  obtain ⟨k, hk⟩ : ∃ k : Fin 1024, k.val + 1 = t.nnode.val := ⟨⟨t.nnode.val - 1, by omega⟩, by simp only; omega⟩
  have hx := h.ref_eq_last hk
  have hmono {r : Ref} {n : Nat} (hw : t.Weighs s.table r n) : Tree.Weighs { t with root := x.ref } s.table r n :=
    hw.mono le_rfl fun _ _ => rfl
  refine ⟨{ t with root := x.ref }, by simp only [exec, execTbBuild, hbuild], hnn, ⟨k, by omega, hx⟩, ?leaf, ?node, ?child,
    h.below, ?ordered, ?total, h.kept⟩
  case leaf =>
    intro i hi
    exact h.existsUnique_field (List.mem_append_left _ (List.mem_map_of_mem ((s.table.mem_valid i).2 hi))) (by simp [hx])
  case node =>
    intro m hm
    have hm : m.val + 1 < t.nnode.val := hm
    refine h.existsUnique_field (List.mem_append_right _ (List.mem_map_of_mem ((t.mem_allocated m).2 (by omega)))) ?_
    rw [hx]
    intro he
    cases he
    omega
  case child =>
    intro m b hm
    have hmem : t.childAt (m, b) ∈ t.fields.map t.childAt := List.mem_map_of_mem (Tree.mem_fields.2 hm)
    obtain ⟨i, hi, hr⟩ | ⟨c, hc, hr⟩ := h.ref_cases (List.mem_append_left _ hmem)
    · have hr : t.nodes[m].child b = .leaf i := hr
      exact hr ▸ ⟨Ref.noConfusion, hi⟩
    · have hr : t.nodes[m].child b = .node c := hr
      exact hr ▸ ⟨Ref.noConfusion, hc⟩
  case ordered =>
    intro m hm
    obtain ⟨a, b, hab, ha, hb⟩ := h.ordered m hm
    rw [(hmono ha).weight_eq h.below, (hmono hb).weight_eq h.below]
    exact hab
  case total =>
    rw [← h.total, (hmono (h.weighs x (List.mem_singleton_self x))).weight_eq h.below]
    simp

end Sys2Proof.Machine
end

section
/-! PROOFS. The statements on CT_DERIVE (spec 43_code_table.md R73), with the laws they need: cleared codes, which leaf a walk
that ends early names, and that a walk of a tree without cycles ends. -/

namespace Sys2Proof.Machine

/-! ## Cleared codes -/

theorem foldl_setCode_slots (is : List (Fin 256)) (t : SymTable) (j : Fin 256) :
    (is.foldl (fun tab i => tab.setCode i 0 0) t).slots[j] =
      if j ∈ is then ⟨t.slots[j].sym, t.slots[j].count, 0, 0⟩ else t.slots[j] := by
  induction is generalizing t with
  | nil => simp
  | cons i is ih =>
    rw [List.foldl_cons, ih, SymTable.setCode_slots]
    by_cases hij : i = j
    · subst hij
      simp
    · simp [hij, Ne.symm hij]

/-- Clearing takes the code from every valid slot. -/
theorem SymTable.clearCodes_slots (t : SymTable) (j : Fin 256) :
    t.clearCodes.slots[j] =
      if j.val < t.nsym.val then ⟨t.slots[j].sym, t.slots[j].count, 0, 0⟩ else t.slots[j] := by
  rw [SymTable.clearCodes, foldl_setCode_slots]
  simp only [t.mem_valid]

/-! ## A walk that does not come to its end -/

/-- What a walk that finds a leaf too deep did. -/
theorem Tree.walk_tooLong_cases {t : Tree} {fuel : Nat} {r : Ref} {p l : Nat} {tab tab' : SymTable} {i : Fin 256}
    (h : t.walk fuel r p l tab = .tooLong i tab') :
    (r = .leaf i ∧ 64 < l) ∨
    ∃ n k, fuel = n + 1 ∧ r = .node k ∧
      (t.walk n t.nodes[k].c0 (p <<< 1) (l + 1) tab = .tooLong i tab' ∨
       ∃ tab₀, t.walk n t.nodes[k].c0 (p <<< 1) (l + 1) tab = .done tab₀ ∧
        t.walk n t.nodes[k].c1 (p <<< 1 ||| 1) (l + 1) tab₀ = .tooLong i tab') := by
  cases r with
  | empty =>
    rw [Tree.walk] at h
    cases h
  | leaf j =>
    rw [Tree.walk] at h
    split at h
    · cases h
    · next hl =>
      cases h
      exact .inl ⟨rfl, Nat.not_le.1 hl⟩
  | node k =>
    cases fuel with
    | zero => cases h
    | succ n =>
      rw [Tree.walk] at h
      split at h
      · next tab₀ h₀ => exact .inr ⟨n, k, rfl, rfl, .inr ⟨tab₀, h₀, h⟩⟩
      · exact .inr ⟨n, k, rfl, rfl, .inl h⟩

/-- A walk that never ends has come down a path as long as its fuel. -/
theorem Tree.walk_endless {t : Tree} {fuel : Nat} {r : Ref} {p l : Nat} {tab : SymTable}
    (h : t.walk fuel r p l tab = .endless) : ∃ q k, q.length = fuel ∧ t.follow r q = some (.node k) := by
  induction fuel generalizing r p l tab with
  | zero =>
    cases r with
    | empty => rw [Tree.walk] at h; cases h
    | leaf i => rw [Tree.walk] at h; split at h <;> cases h
    | node k => exact ⟨[], k, rfl, rfl⟩
  | succ n ih =>
    cases r with
    | empty => rw [Tree.walk] at h; cases h
    | leaf i => rw [Tree.walk] at h; split at h <;> cases h
    | node k =>
      rw [Tree.walk] at h
      split at h
      · obtain ⟨q, m, hq, hm⟩ := ih h
        exact ⟨true :: q, m, by rw [List.length_cons, hq], hm⟩
      · obtain ⟨q, m, hq, hm⟩ := ih h
        exact ⟨false :: q, m, by rw [List.length_cons, hq], hm⟩

/-- Path `p` is walked before path `q`: where they part, `p` goes left and `q` right. -/
abbrev WalkedBefore : List Bool → List Bool → Prop := List.Lex fun a b => a = false ∧ b = true

theorem WalkedBefore.asymm {p q : List Bool} (h : WalkedBefore p q) : ¬ WalkedBefore q p := by
  induction h with
  | nil => nofun
  | rel hab =>
    obtain ⟨rfl, rfl⟩ := hab
    intro hqp
    cases hqp with
    | rel hba => cases hba.1
  | cons _ ih =>
    intro hqp
    cases hqp with
    | rel hba => simp at hba
    | cons hqp => exact ih hqp

/-- Path `q` from `r`, which the path `pre` leads to, goes to a leaf more than 64 deep. -/
def Tree.TooDeep (t : Tree) (r : Ref) (pre q : List Bool) : Prop :=
  64 < (pre ++ q).length ∧ ∃ i, t.follow r q = some (.leaf i)

theorem Tree.tooDeep_node {t : Tree} {k : Fin 1024} {pre q : List Bool} :
    t.TooDeep (.node k) pre q ↔ ∃ b p, q = b :: p ∧ t.TooDeep (t.nodes[k].child b) (pre ++ [b]) p := by
  constructor
  · rintro ⟨hlen, i, hq⟩
    obtain ⟨b, p, rfl, hp⟩ := Tree.follow_node_eq_leaf.1 hq
    exact ⟨b, p, rfl, List.append_cons pre b p ▸ hlen, i, hp⟩
  · rintro ⟨b, p, rfl, hlen, i, hp⟩
    exact ⟨List.append_cons pre b p ▸ hlen, i, hp⟩

theorem Tree.Walked.not_tooDeep {t : Tree} {r : Ref} {pre : List Bool} {tab tab' : SymTable}
    (h : t.Walked r pre tab tab') (q : List Bool) : ¬ t.TooDeep r pre q := fun ⟨hlen, i, hq⟩ =>
  Nat.not_lt.2 (h.short q i hq) hlen

/-- A walk that finds a leaf too deep names the first one. -/
theorem Tree.walk_tooLong_first {t : Tree} {fuel : Nat} {r : Ref} {pre : List Bool} {tab tab' : SymTable} {i : Fin 256}
    (h : t.walk fuel r (pathValue pre) pre.length tab = .tooLong i tab') :
    ∃ q, t.follow r q = some (.leaf i) ∧ t.TooDeep r pre q ∧ ∀ q', t.TooDeep r pre q' → q' = q ∨ WalkedBefore q q' := by
  induction fuel using Nat.strong_induction_on generalizing r pre tab with
  | _ fuel ih =>
    have hlen : ∀ b, (pre ++ [b]).length = pre.length + 1 := fun _ => List.length_append
    obtain ⟨rfl, hl⟩ | ⟨n, k, rfl, rfl, h₀ | ⟨tab₀, h₀, h₁⟩⟩ := Tree.walk_tooLong_cases h
    · refine ⟨[], rfl, ⟨by simpa using hl, i, rfl⟩, fun q' ⟨_, j, hq'⟩ => .inl (Tree.follow_leaf_eq_some.1 hq').1⟩
    · rw [← pathValue_concat_false, ← hlen false] at h₀
      obtain ⟨q, hq, hdeep, hfirst⟩ := ih n n.lt_succ_self h₀
      refine ⟨false :: q, hq, Tree.tooDeep_node.2 ⟨false, q, rfl, hdeep⟩, fun q' hq' => ?_⟩
      obtain ⟨b, p, rfl, hp⟩ := Tree.tooDeep_node.1 hq'
      cases b with
      | false => exact (hfirst p hp).imp (congrArg _) .cons
      | true => exact .inr (.rel ⟨rfl, rfl⟩)
    · rw [← pathValue_concat_false, ← hlen false] at h₀
      rw [← pathValue_concat_true, ← hlen true] at h₁
      obtain ⟨q, hq, hdeep, hfirst⟩ := ih n n.lt_succ_self h₁
      refine ⟨true :: q, hq, Tree.tooDeep_node.2 ⟨true, q, rfl, hdeep⟩, fun q' hq' => ?_⟩
      obtain ⟨b, p, rfl, hp⟩ := Tree.tooDeep_node.1 hq'
      cases b with
      | false => exact absurd hp ((Tree.walked_of_walk_done h₀).not_tooDeep p)
      | true => exact (hfirst p hp).imp (congrArg _) .cons

/-! ## A tree without cycles (10_state.md R37) -/

/-- In either order of allocation, nodes have ranks that descend from a parent to its children. -/
theorem TreeInv.exists_rank {t : Tree} {nsym : Nat} (h : TreeInv t nsym) :
    ∃ rank : Fin 1024 → Nat, (∀ k, rank k < 1024) ∧
      ∀ k m b, k.val < t.nnode.val → t.nodes[k].child b = .node m → rank m < rank k := by
  rcases h.ordered with hb | ha
  · exact ⟨Fin.val, Fin.isLt, fun k m b hk hc => hb k m b hk hc⟩
  · refine ⟨fun k => 1023 - k.val, fun k => Nat.sub_lt_succ 1023 k.val, fun k m b hk hc => ?_⟩
    have hkm : k.val < m.val := ha k m b hk hc
    simp only
    omega

/-- A path from a valid slot or an allocated node leads to one. -/
theorem TreeInv.follow_refOk {t : Tree} {nsym : Nat} (h : TreeInv t nsym) {q : List Bool} {r r' : Ref}
    (hr : RefOk nsym t.nnode.val r) (hq : t.follow r q = some r') : RefOk nsym t.nnode.val r' := by
  induction q generalizing r with
  | nil =>
    rw [Tree.follow_nil] at hq
    cases hq
    exact hr
  | cons b q ih =>
    cases r with
    | empty => cases hq
    | leaf i => cases hq
    | node k => exact ih (h.child k b hr) hq

/-- Every step of a path goes down in rank. -/
theorem TreeInv.follow_rank {t : Tree} {nsym : Nat} (h : TreeInv t nsym) {rank : Fin 1024 → Nat}
    (hrank : ∀ k m b, k.val < t.nnode.val → t.nodes[k].child b = .node m → rank m < rank k) {q : List Bool}
    {k m : Fin 1024} (hk : k.val < t.nnode.val) (hq : t.follow (.node k) q = some (.node m)) :
    rank m + q.length ≤ rank k := by
  induction q generalizing k with
  | nil =>
    cases hq
    exact le_rfl
  | cons b q ih =>
    rw [Tree.follow_node] at hq
    cases hc : t.nodes[k].child b with
    | node c =>
      rw [hc] at hq
      have hok := h.child k b hk
      rw [hc] at hok
      have := ih hok hq
      have := hrank k c b hk hc
      rw [List.length_cons]
      omega
    | empty => rw [hc] at hq; cases q <;> cases hq
    | leaf i => rw [hc] at hq; cases q <;> cases hq

theorem TreeInv.walk_ne_endless {t : Tree} {nsym : Nat} (h : TreeInv t nsym) (p l : Nat) (tab : SymTable) :
    t.walk 1024 t.root p l tab ≠ .endless := by
  intro hw
  obtain ⟨q, m, hlen, hq⟩ := Tree.walk_endless hw
  obtain ⟨rank, hlt, hrank⟩ := h.exists_rank
  cases hr : t.root with
  | empty => rw [hr] at hq; cases q <;> cases hq
  | leaf i => rw [hr] at hq; cases q <;> cases hq
  | node k =>
    have hroot := h.root
    rw [hr] at hq hroot
    have := h.follow_rank hrank hroot hq
    have := hlt k
    omega

theorem TreeInv.leaf_valid {t : Tree} {nsym : Nat} (h : TreeInv t nsym) {q : List Bool} {i : Fin 256}
    (hq : t.LeafPath q i) : i.val < nsym :=
  h.follow_refOk h.root hq

/-- A walk of the whole tree that does not run on forever ends, at its end or at the first leaf too deep. -/
theorem Tree.walk_root_cases {t : Tree} {tab : SymTable} (h : t.walk 1024 t.root 0 0 tab ≠ .endless) :
    (∃ tab', t.walk 1024 t.root 0 0 tab = .done tab' ∧ t.Walked t.root [] tab tab') ∨
    ∃ i tab' q, t.walk 1024 t.root 0 0 tab = .tooLong i tab' ∧ t.LeafPath q i ∧ 64 < q.length ∧
      ∀ q' j, t.LeafPath q' j → 64 < q'.length → q' = q ∨ WalkedBefore q q' := by
  cases hw : t.walk 1024 t.root 0 0 tab with
  | done tab' => exact .inl ⟨tab', rfl, Tree.walked_of_walk_done (pre := []) hw⟩
  | tooLong i tab' =>
    obtain ⟨q, hq, hdeep, hfirst⟩ := Tree.walk_tooLong_first (pre := []) hw
    exact .inr ⟨i, tab', q, rfl, hq, hdeep.1, fun q' j hq' hlen => hfirst q' ⟨hlen, j, hq'⟩⟩
  | endless => exact absurd hw h

/-- What CT_DERIVE writes to slot `i` where the tree's only leaf of the slot is at `p`. -/
theorem Tree.Walked.slot_of_unique {t : Tree} {tab tab' : SymTable} (h : t.Walked t.root [] tab tab') {p : List Bool}
    {i : Fin 256} (hp : t.LeafPath p i) (hu : ∀ q, t.LeafPath q i → q = p) :
    tab'.slots[i] = tab.slots[i].recorded p := by
  rcases h.slot i with ⟨hno, -⟩ | ⟨q, hq, hslot⟩
  · exact absurd hp (hno p)
  · rw [hslot, List.nil_append, hu q hq]

theorem Tree.Walked.slot_of_no_leaf {t : Tree} {tab tab' : SymTable} (h : t.Walked t.root [] tab tab') {i : Fin 256}
    (hno : ∀ p, ¬ t.LeafPath p i) : tab'.slots[i] = tab.slots[i] := by
  rcases h.slot i with ⟨-, hslot⟩ | ⟨q, hq, -⟩
  · exact hslot
  · exact absurd hq (hno q)

/-- Settles O33: without a leaf too deep and without a cycle the walk comes to its end. -/
theorem ctDeriveGivesPaths : Obligations.CtDeriveGivesPaths := by
  intro s hinv hshort
  obtain ⟨tab, hdone, hw⟩ | ⟨i, tab, q, -, hq, hlen, -⟩ := Tree.walk_root_cases (hinv.walk_ne_endless 0 0 s.table.clearCodes)
  · have hrec := exec_ctDerive_recodes (exec_ctDerive_of_done hdone)
    refine ⟨tab, exec_ctDerive_of_done hdone, hrec.nsym, hrec.total, fun i =>
      ⟨hrec.sym i, hrec.count i, fun p hp hu => ?_, fun hi hno => ?_, fun hi => ?_⟩⟩
    · have h64 := hshort p i hp
      rw [hw.slot_of_unique hp hu]
      exact ⟨Slot.recorded_code_toNat _ h64, Slot.recorded_len _ h64⟩
    · rw [hw.slot_of_no_leaf hno, SymTable.clearCodes_slots, if_pos hi]
      exact ⟨rfl, rfl⟩
    · rw [hw.slot_of_no_leaf fun p hp => Nat.not_lt.2 hi (hinv.leaf_valid hp), SymTable.clearCodes_slots,
        if_neg (Nat.not_lt.2 hi)]
  · exact absurd (hshort q i hq) (Nat.not_le.2 hlen)

/-- Settles O34: of two leaves each before all others too deep, neither can come before the other. -/
theorem ctDeriveRaisesTooLong : Obligations.CtDeriveRaisesTooLong := by
  intro s p i hinv hp hlen hfirst
  obtain ⟨tab, -, hw⟩ | ⟨j, tab, q, htoo, hq, hqlen, hqfirst⟩ :=
    Tree.walk_root_cases (hinv.walk_ne_endless 0 0 s.table.clearCodes)
  · exact absurd ⟨hlen, i, hp⟩ (hw.not_tooDeep p)
  · have hpq : p = q := (hqfirst p i hp hlen).resolve_right fun hqp =>
      (hfirst q j hq hqlen).elim (fun he => (he ▸ hqp).asymm (he ▸ hqp)) hqp.asymm
    subst hpq
    obtain rfl : i = j := Ref.leaf.inj (Option.some.inj (hp.symm.trans hq))
    exact ⟨tab, exec_ctDerive_of_tooLong htoo⟩

end Sys2Proof.Machine
end

section
/-! PROOFS. Laws of TR_REBUILD (spec 43_code_table.md R77): the initial parts of a code, a tree memory whose nodes are reached
by one path each, what placing one code does to the paths, and what placing a list of slots does. -/

namespace Sys2Proof.Machine

/-! ## The proper initial parts of a code -/

/-- What `c` starts with, shorter than `c`: the paths to the nodes above the leaf at `c`. -/
def properPrefixes (c : List Bool) : Finset (List Bool) := (Finset.range c.length).image fun n => c.take n

theorem mem_properPrefixes {p c : List Bool} : p ∈ properPrefixes c ↔ p <+: c ∧ p.length < c.length := by
  rw [properPrefixes, Finset.mem_image]
  constructor
  · rintro ⟨n, hn, rfl⟩
    rw [Finset.mem_range] at hn
    exact ⟨List.take_prefix n c, by rw [List.length_take]; omega⟩
  · rintro ⟨hp, hlen⟩
    exact ⟨p.length, Finset.mem_range.2 hlen, (List.prefix_iff_eq_take.1 hp).symm⟩

theorem properPrefixes_nil : properPrefixes [] = ∅ := rfl

/-! ## Trees whose nodes are reached by one path each -/

/-- `p` is a path from the root to node `k`. -/
abbrev Tree.NodePath (t : Tree) (p : List Bool) (k : Fin 1024) : Prop := t.follow t.root p = some (.node k)

/-- The paths to the nodes of `t` are `P`, each node is reached by one of them, and all allocated nodes are reached. -/
structure Tree.Grown (t : Tree) (P : Finset (List Bool)) : Prop where
  node : ∀ p, p ∈ P ↔ ∃ k, t.NodePath p k
  inj : ∀ {p q k}, t.NodePath p k → t.NodePath q k → p = q
  lt : ∀ {p k}, t.NodePath p k → k.val < t.nnode.val
  card : P.card = t.nnode.val

theorem Tree.follow_concat (t : Tree) (r : Ref) (p : List Bool) (b : Bool) :
    t.follow r (p ++ [b]) = (t.follow r p).bind fun c => t.follow c [b] := t.follow_append r p [b]

theorem Tree.NodePath.follow_append {t : Tree} {p : List Bool} {k : Fin 1024} (h : t.NodePath p k) (b : Bool)
    (q : List Bool) : t.follow t.root (p ++ [b] ++ q) = t.follow (t.nodes[k].child b) q := by
  rw [List.append_assoc, Tree.follow_append, h]
  rfl

theorem Tree.NodePath.follow_child {t : Tree} {p : List Bool} {k : Fin 1024} (h : t.NodePath p k) (b : Bool) :
    t.follow t.root (p ++ [b]) = some (t.nodes[k].child b) := by
  rw [← List.append_nil (p ++ [b]), h.follow_append, Tree.follow_nil]

/-- What stands on the way to a node is a node. -/
theorem Tree.NodePath.of_prefix {t : Tree} {p q : List Bool} {k : Fin 1024} (h : t.NodePath p k) (hq : q <+: p) :
    ∃ m, t.NodePath q m := by
  obtain ⟨s, rfl⟩ := hq
  rw [Tree.NodePath, Tree.follow_append] at h
  cases hf : t.follow t.root q with
  | none => rw [hf] at h; cases h
  | some r =>
    rw [hf, Option.bind_some] at h
    cases r with
    | node m => exact ⟨m, hf⟩
    | empty => cases s <;> cases h
    | leaf i => cases s <;> cases h

/-! ## Changing one child field -/

section
variable {t : Tree} {p : List Bool} {k : Fin 1024} (hp : t.NodePath p k) (hinj : ∀ q, t.NodePath q k → q = p) (b : Bool)
  (r : Ref)
include hp hinj

/-- A changed child field shows on the paths through it alone. -/
theorem Tree.follow_setChild_of_not_prefix {q : List Bool} (hq : ¬ p ++ [b] <+: q) :
    (t.setChild k b r).follow t.root q = t.follow t.root q := by
  induction q using List.reverseRecOn with
  | nil => rw [Tree.follow_nil, Tree.follow_nil]
  | append_singleton q c ih =>
    rw [Tree.follow_concat, Tree.follow_concat, ih fun h => hq (h.trans (List.prefix_append q [c]))]
    cases hf : t.follow t.root q with
    | none => rfl
    | some x =>
      cases x with
      | empty => rfl
      | leaf i => rfl
      | node m =>
        simp only [Option.bind_some, Tree.follow_node, Tree.follow_nil, Tree.setChild_nodes]
        by_cases hkm : k = m
        · subst hkm
          obtain rfl := hinj q hf
          have hcb : c ≠ b := fun h => hq (h ▸ List.prefix_rfl)
          rw [if_pos rfl, Node.child_setChild_ne _ _ hcb]
        · rw [if_neg hkm]

/-- Through the changed field a path goes on in what was put there. -/
theorem Tree.follow_setChild_append (q : List Bool) :
    (t.setChild k b r).follow t.root (p ++ [b] ++ q) = (t.setChild k b r).follow r q := by
  have hnot : ¬ p ++ [b] <+: p := fun h => by simpa using h.length_le
  have hp' : (t.setChild k b r).NodePath p k := (Tree.follow_setChild_of_not_prefix hp hinj b r hnot).trans hp
  have h := hp'.follow_append b q
  rwa [Tree.setChild_nodes, if_pos rfl, Node.child_setChild, Tree.setChild_root] at h

variable {b r}

/-- What is put in an EMPTY child field adds one path, where nothing but EMPTY stands below it. -/
theorem Tree.follow_setChild_iff (hb : t.nodes[k].child b = .empty)
    (hr : ∀ q x, (t.setChild k b r).follow r q = some x → x ≠ .empty → q = [] ∧ x = r) {q : List Bool} {x : Ref}
    (hx : x ≠ .empty) :
    (t.setChild k b r).follow t.root q = some x ↔ t.follow t.root q = some x ∨ (q = p ++ [b] ∧ x = r) := by
  by_cases hq : p ++ [b] <+: q
  · obtain ⟨q, rfl⟩ := hq
    have hnot : t.follow t.root (p ++ [b] ++ q) ≠ some x := fun h => by
      rw [hp.follow_append, hb] at h
      cases q with
      | nil => exact hx (Option.some.inj h).symm
      | cons => cases h
    rw [Tree.follow_setChild_append hp hinj, or_iff_right hnot, List.append_right_eq_self]
    constructor
    · exact fun h => hr q x h hx
    · rintro ⟨rfl, rfl⟩
      exact Tree.follow_nil _ _
  · rw [Tree.follow_setChild_of_not_prefix hp hinj b r hq, or_iff_left]
    exact fun h => hq (h.1 ▸ List.prefix_rfl)

end

/-- Allocating a node changes no path: no path leads to it. -/
theorem Tree.follow_of_alloc {t t' : Tree} {n : Node} {k : Fin 1024} (ha : t.alloc n = some (k, t'))
    (hlt : ∀ q m, t.NodePath q m → m.val < t.nnode.val) (q : List Bool) :
    t'.follow t.root q = t.follow t.root q := by
  obtain ⟨hk, -, -, hnodes⟩ := Tree.alloc_some ha
  induction q using List.reverseRecOn with
  | nil => rw [Tree.follow_nil, Tree.follow_nil]
  | append_singleton q c ih =>
    rw [Tree.follow_concat, Tree.follow_concat, ih]
    cases hf : t.follow t.root q with
    | none => rfl
    | some x =>
      cases x with
      | empty => rfl
      | leaf i => rfl
      | node m =>
        have := hlt q m hf
        simp only [Option.bind_some, Tree.follow_node, Tree.follow_nil]
        rw [hnodes, if_neg (by omega)]

namespace Tree.Grown

variable {t : Tree} {P : Finset (List Bool)} {p : List Bool} {k : Fin 1024} {b : Bool}

/-- A leaf put in an EMPTY child field adds its path. -/
theorem setChild_leaf (h : t.Grown P) (hp : t.NodePath p k) (hb : t.nodes[k].child b = .empty) (i : Fin 256) :
    (t.setChild k b (.leaf i)).Grown P ∧
      ∀ q j, (t.setChild k b (.leaf i)).LeafPath q j ↔ t.LeafPath q j ∨ (q = p ++ [b] ∧ j = i) := by
  have hbelow : ∀ q x, (t.setChild k b (.leaf i)).follow (.leaf i) q = some x → x ≠ .empty → q = [] ∧ x = .leaf i :=
    fun q x hx _ => by
      cases q with
      | nil => exact ⟨rfl, (Option.some.inj hx).symm⟩
      | cons => cases hx
  have hpath := fun q x hx => Tree.follow_setChild_iff hp (fun q hq => h.inj hq hp) hb hbelow (q := q) (x := x) hx
  have hnode : ∀ q m, (t.setChild k b (.leaf i)).NodePath q m ↔ t.NodePath q m := fun q m => by
    rw [Tree.NodePath, Tree.setChild_root, hpath q (.node m) nofun, or_iff_left]
    exact nofun
  refine ⟨⟨fun q => ?_, fun hq hq' => ?_, fun hq => ?_, h.card⟩, fun q j => ?_⟩
  · simp only [hnode, h.node]
  · exact h.inj ((hnode _ _).1 hq) ((hnode _ _).1 hq')
  · exact h.lt ((hnode _ _).1 hq)
  · rw [Tree.LeafPath, Tree.setChild_root, hpath q (.leaf j) nofun, Ref.leaf.injEq]

/-- A fresh node put in an EMPTY child field adds its path, and no leaf. -/
theorem setChild_node {t₁ : Tree} {m : Fin 1024} (h : t.Grown P) (hp : t.NodePath p k) (hb : t.nodes[k].child b = .empty)
    (ha : t.alloc Node.blank = some (m, t₁)) :
    (t₁.setChild k b (.node m)).Grown (insert (p ++ [b]) P) ∧ (t₁.setChild k b (.node m)).NodePath (p ++ [b]) m ∧
      ∀ q j, (t₁.setChild k b (.node m)).LeafPath q j ↔ t.LeafPath q j := by
  obtain ⟨hm, hn, hroot, hnodes⟩ := Tree.alloc_some ha
  have hkm : m ≠ k := fun he => by
    have := h.lt hp
    omega
  have hsame : ∀ q, t₁.follow t₁.root q = t.follow t.root q := fun q => by
    rw [hroot]
    exact Tree.follow_of_alloc ha (fun _ _ => h.lt) q
  have hbelow : ∀ q x, (t₁.setChild k b (.node m)).follow (.node m) q = some x → x ≠ .empty → q = [] ∧ x = .node m := by
    intro q x hx hne
    cases q with
    | nil => exact ⟨rfl, (Option.some.inj hx).symm⟩
    | cons c q =>
      rw [Tree.follow_node, Tree.setChild_nodes, if_neg hkm.symm, hnodes, if_pos rfl, Node.blank, Node.child, ite_self] at hx
      cases q with
      | nil => exact absurd (Option.some.inj hx).symm hne
      | cons => cases hx
  have hb₁ : t₁.nodes[k].child b = .empty := by rw [hnodes, if_neg hkm, hb]
  have hpath := fun q x hx => Tree.follow_setChild_iff ((hsame p).trans hp)
    (fun q hq => h.inj ((hsame q).symm.trans hq) hp) hb₁ hbelow (q := q) (x := x) hx
  have hnode : ∀ q c, (t₁.setChild k b (.node m)).NodePath q c ↔ t.NodePath q c ∨ (q = p ++ [b] ∧ c = m) := fun q c => by
    rw [Tree.NodePath, Tree.setChild_root, hpath q (.node c) nofun, hsame, Ref.node.injEq]
  have hold : ∀ {q c}, t.NodePath q c → c ≠ m := fun hq he => by
    have := h.lt hq
    omega
  have hmem : p ++ [b] ∉ P := fun hin => by
    obtain ⟨c, hc⟩ := (h.node _).1 hin
    rw [Tree.NodePath, hp.follow_child, hb] at hc
    cases hc
  refine ⟨⟨fun q => ?_, fun {q q' c} hq hq' => ?_, fun {q c} hq => ?_, ?_⟩, (hnode _ _).2 (.inr ⟨rfl, rfl⟩), fun q j => ?_⟩
  · simp only [Finset.mem_insert, h.node, hnode, exists_or, exists_and_left, exists_eq, and_true]
    exact or_comm
  · rcases (hnode q c).1 hq with hq | ⟨rfl, hc⟩
    · exact h.inj hq (((hnode q' c).1 hq').resolve_right fun hq' => hold hq hq'.2)
    · exact (((hnode q' c).1 hq').resolve_left fun hq' => hold hq' hc).1.symm
  · rw [Tree.setChild_nnode]
    rcases (hnode q c).1 hq with hq | ⟨-, rfl⟩
    · have := h.lt hq
      omega
    · omega
  · rw [Finset.card_insert_of_notMem hmem, h.card, Tree.setChild_nnode, hn]
  · rw [Tree.LeafPath, Tree.setChild_root, hpath q (.leaf j) nofun, hsame, or_iff_left]
    exact nofun

/-- A full tree memory has no room for one more path. -/
theorem lt_card_of_full (h : t.Grown P) (hfull : t.nnode.val = 1024) (hp : p ∉ P) {Q : Finset (List Bool)}
    (hPQ : P ⊆ Q) (hQ : p ∈ Q) : 1024 < Q.card := by
  have hcard := Finset.card_le_card (Finset.insert_subset hQ hPQ)
  rw [Finset.card_insert_of_notMem hp, h.card] at hcard
  omega

end Tree.Grown

/-! ## Placing one code -/

/-- How placing slot `i`'s code `c` in `t`, whose nodes are at `P`, may end. -/
def PlaceEnd.Places (t : Tree) (P : Finset (List Bool)) (c : List Bool) (i : Fin 256) : PlaceEnd → Prop
  | .placed t' => t'.root = t.root ∧ t'.Grown (P ∪ properPrefixes c) ∧
      ∀ q j, t'.LeafPath q j ↔ t.LeafPath q j ∨ (q = c ∧ j = i)
  | .malformed _ => (∃ q j, t.LeafPath q j ∧ q <+: c) ∨ c ∈ P
  | .full _ => 1024 < (P ∪ properPrefixes c).card

theorem msbFirst_succ {w : Nat} (v : BitVec w) (n : Nat) : msbFirst v (n + 1) = v.getLsbD n :: msbFirst v n := by
  simp only [msbFirst, List.range_succ_eq_map, List.map_cons, List.map_map]
  refine congrArg _ (List.map_congr_left fun j _ => ?_)
  rw [Function.comp_apply, show n + 1 - 1 - (j + 1) = n - 1 - j by omega]

/-- The inner loop of R77, standing at node `k` at the end of path `p` with the rest of the code to walk. -/
theorem Tree.place_places (i : Fin 256) (code : BitVec 64) (n : Nat) {t : Tree} {P : Finset (List Bool)} {p : List Bool}
    {k : Fin 1024} (h : t.Grown P) (hp : t.NodePath p k) :
    (Tree.place i code (n + 1) k t).Places t P (p ++ msbFirst code (n + 1)) i := by
  induction n generalizing t P p k with
  | zero =>
    have hc : p ++ msbFirst code (0 + 1) = p ++ [code.getLsbD 0] := by rw [msbFirst_succ, msbFirst_zero_right]
    rw [hc, Tree.place]
    by_cases hb : t.nodes[k].child (code.getLsbD 0) = .empty
    · have hprefixes : P ∪ properPrefixes (p ++ [code.getLsbD 0]) = P := by
        refine Finset.union_eq_left.2 fun q hq => (h.node q).2 ?_
        obtain ⟨hq, hlen⟩ := mem_properPrefixes.1 hq
        rw [List.prefix_concat_iff] at hq
        exact hp.of_prefix (hq.resolve_left fun he => by rw [he] at hlen; exact lt_irrefl _ hlen)
      obtain ⟨hgrown, hleaf⟩ := h.setChild_leaf hp hb i
      rw [if_pos hb, PlaceEnd.Places, hprefixes]
      exact ⟨rfl, hgrown, hleaf⟩
    · rw [if_neg hb, PlaceEnd.Places]
      have hf := hp.follow_child (code.getLsbD 0)
      cases hc : t.nodes[k].child (code.getLsbD 0) with
      | empty => exact absurd hc hb
      | leaf j => exact .inl ⟨_, j, hf.trans (congrArg some hc), List.prefix_rfl⟩
      | node m => exact .inr ((h.node _).2 ⟨m, hf.trans (congrArg some hc)⟩)
  | succ n ih =>
    have hf := hp.follow_child (code.getLsbD (n + 1))
    have hc : p ++ msbFirst code (n + 1 + 1) = p ++ [code.getLsbD (n + 1)] ++ msbFirst code (n + 1) := by
      rw [msbFirst_succ code (n + 1), List.append_cons]
    have hlen : (p ++ [code.getLsbD (n + 1)]).length < (p ++ [code.getLsbD (n + 1)] ++ msbFirst code (n + 1)).length := by
      simp
    have hmem : p ++ [code.getLsbD (n + 1)] ∈ properPrefixes (p ++ [code.getLsbD (n + 1)] ++ msbFirst code (n + 1)) :=
      mem_properPrefixes.2 ⟨List.prefix_append _ _, hlen⟩
    rw [hc, Tree.place]
    split
    · next hb =>
      have hnot : p ++ [code.getLsbD (n + 1)] ∉ P := fun hm => by
        obtain ⟨c, hc⟩ := (h.node _).1 hm
        rw [Tree.NodePath, hf, hb] at hc
        cases hc
      split
      · next ha =>
        exact h.lt_card_of_full (Tree.alloc_none.1 ha) hnot Finset.subset_union_left (Finset.mem_union_right _ hmem)
      · next m t₁ ha =>
        obtain ⟨hgrown, hnode, hleaf⟩ := h.setChild_node hp hb ha
        have hspec := ih hgrown hnode
        have hunion : insert (p ++ [code.getLsbD (n + 1)]) P ∪
            properPrefixes (p ++ [code.getLsbD (n + 1)] ++ msbFirst code (n + 1)) =
            P ∪ properPrefixes (p ++ [code.getLsbD (n + 1)] ++ msbFirst code (n + 1)) := by
          rw [Finset.insert_union, Finset.insert_eq_of_mem (Finset.mem_union_right _ hmem)]
        revert hspec
        cases Tree.place i code (n + 1) m (t₁.setChild k (code.getLsbD (n + 1)) (.node m)) with
        | placed t' =>
          rintro ⟨hroot, hgrown', hleaf'⟩
          obtain ⟨-, -, hroot₁, -⟩ := Tree.alloc_some ha
          exact ⟨hroot.trans hroot₁, hunion ▸ hgrown', fun q j => by rw [hleaf', hleaf]⟩
        | malformed t' =>
          rintro (⟨q, j, hq, hpre⟩ | hin)
          · exact .inl ⟨q, j, (hleaf q j).1 hq, hpre⟩
          · exact .inr ((Finset.mem_insert.1 hin).resolve_left fun he => by rw [he] at hlen; exact lt_irrefl _ hlen)
        | full t' => exact fun (hcard : 1024 < Finset.card _) => (hunion ▸ hcard : 1024 < Finset.card _)
    · next j hb => exact .inl ⟨_, j, by rw [Tree.LeafPath, hf, hb], List.prefix_append _ _⟩
    · next m hb => exact ih h (by rw [Tree.NodePath, hf, hb])

end Sys2Proof.Machine
end

section
/-! PROOFS. The statements on TR_REBUILD and on its round trips with CT_DERIVE (spec 43_code_table.md R77, R78), with the laws they
need: what placing a list of slots does, how many nodes a `PrefixFree` table needs, and the nodes above the leaves of a full
tree. -/

namespace Sys2Proof.Machine

/-! ## Placing a list of slots (R77) -/

/-- The paths to the nodes of a tree with the codes of the slots `is`: the root's, and the codes' proper initial parts. -/
def SymTable.innerPaths (tab : SymTable) (is : List (Fin 256)) : Finset (List Bool) :=
  insert [] (is.toFinset.biUnion fun i => properPrefixes tab.slots[i].bits)

theorem SymTable.mem_innerPaths {tab : SymTable} {is : List (Fin 256)} {p : List Bool} :
    p ∈ tab.innerPaths is ↔
      p = [] ∨ ∃ i ∈ is, p <+: tab.slots[i].bits ∧ p.length < tab.slots[i].bits.length := by
  simp [SymTable.innerPaths, mem_properPrefixes]

theorem SymTable.innerPaths_concat (tab : SymTable) (is : List (Fin 256)) (i : Fin 256) :
    tab.innerPaths (is ++ [i]) = tab.innerPaths is ∪ properPrefixes tab.slots[i].bits := by
  ext p
  simp [SymTable.mem_innerPaths, mem_properPrefixes, or_and_right, exists_or, or_assoc]

theorem SymTable.innerPaths_mono (tab : SymTable) {is js : List (Fin 256)} (h : is ⊆ js) :
    tab.innerPaths is ⊆ tab.innerPaths js := fun p hp => by
  rw [SymTable.mem_innerPaths] at hp ⊢
  exact hp.imp_right fun ⟨i, hi, hpi⟩ => ⟨i, h hi, hpi⟩

/-- The codes of two slots collide: one starts with the other. -/
def SymTable.Collide (tab : SymTable) (i j : Fin 256) : Prop :=
  tab.slots[j].bits <+: tab.slots[i].bits ∨ tab.slots[i].bits <+: tab.slots[j].bits

/-- `t` is the tree of the codes of the slots `is`. -/
structure Tree.Places (t : Tree) (tab : SymTable) (is : List (Fin 256)) : Prop where
  root : t.root = .node 0
  grown : t.Grown (tab.innerPaths is)
  leaf : ∀ p i, t.LeafPath p i ↔ (i ∈ is ∧ tab.slots[i].len ≠ 0) ∧ p = tab.slots[i].bits

theorem Slot.bits_ne_nil {x : Slot} (h : x.len ≠ 0) : x.bits ≠ [] := fun hb => by
  have hlen := x.bits_length
  rw [hb, List.length_nil] at hlen
  exact h (Fin.ext hlen.symm)

theorem Slot.len_ne_zero {x : Slot} (h : x.bits ≠ []) : x.len ≠ 0 := fun hl => by
  refine h (List.length_eq_zero_iff.1 ?_)
  rw [x.bits_length, hl]
  rfl

theorem Slot.bits_eq_nil {x : Slot} (h : x.len = 0) : x.bits = [] :=
  by_contra fun hb => x.len_ne_zero hb h

namespace Tree.Places

variable {t : Tree} {tab : SymTable} {is : List (Fin 256)}

/-- The placeholder root is the tree of no codes. -/
theorem placeholder (t : Tree) (tab : SymTable) : t.placeholder.Places tab [] := by
  have hblank : t.placeholder.nodes[(0 : Fin 1024)] = Node.blank := by simp [Tree.placeholder]
  have hbelow : ∀ p x, t.placeholder.follow t.placeholder.root p = some x → (p = [] ∧ x = .node 0) ∨ x = .empty := by
    intro p x hx
    cases p with
    | nil => exact .inl ⟨rfl, (Option.some.inj hx).symm⟩
    | cons b p =>
      rw [Tree.placeholder_root, Tree.follow_node, hblank, Node.blank, Node.child, ite_self] at hx
      cases p with
      | nil => exact .inr (Option.some.inj hx).symm
      | cons => cases hx
  have hnode : ∀ p k, t.placeholder.NodePath p k → p = [] ∧ k = 0 := fun p k hp =>
    (hbelow p _ hp).elim (fun h => ⟨h.1, Ref.node.inj h.2⟩) nofun
  refine ⟨rfl, ⟨fun p => ?_, fun hp hq => ?_, fun hp => ?_, rfl⟩, fun p i => ?_⟩
  · simp only [SymTable.mem_innerPaths, List.not_mem_nil, false_and, exists_false, or_false]
    constructor
    · rintro rfl
      exact ⟨0, rfl⟩
    · rintro ⟨k, hk⟩
      exact (hnode p k hk).1
  · rw [(hnode _ _ hp).1, (hnode _ _ hq).1]
  · rw [(hnode _ _ hp).2]
    exact Nat.zero_lt_one
  · refine iff_of_false (fun hp => ?_) (fun h => List.not_mem_nil h.1.1)
    exact (hbelow p _ hp).elim (fun h => Ref.noConfusion h.2) nofun

/-- A slot without a code changes nothing. -/
theorem skip (h : t.Places tab is) {i : Fin 256} (hi : tab.slots[i].len = 0) : t.Places tab (is ++ [i]) where
  root := h.root
  grown := by
    rw [SymTable.innerPaths_concat, Slot.bits_eq_nil hi, properPrefixes_nil, Finset.union_empty]
    exact h.grown
  leaf p j := by
    rw [h.leaf]
    refine and_congr_left fun _ => and_congr_left fun hj => ?_
    rw [List.mem_append, List.mem_singleton, or_iff_left]
    rintro rfl
    exact hj hi

/-- The tree's paths tell the codes apart. -/
theorem prefix_imp_eq (h : t.Places tab is) {i j : Fin 256} (hi : i ∈ is ∧ tab.slots[i].len ≠ 0)
    (hj : j ∈ is ∧ tab.slots[j].len ≠ 0) (hij : tab.slots[i].bits <+: tab.slots[j].bits) : i = j := by
  obtain ⟨q, hq⟩ := hij
  have hleaf : t.LeafPath tab.slots[j].bits j := (h.leaf _ j).2 ⟨hj, rfl⟩
  have hleaf' : t.LeafPath tab.slots[i].bits i := (h.leaf _ i).2 ⟨hi, rfl⟩
  rw [← hq, Tree.LeafPath, Tree.follow_append, hleaf', Option.bind_some] at hleaf
  exact (Tree.follow_leaf_eq_some.1 hleaf).2.symm

/-- How placing slot `i`'s code may end, after the slots `is`. -/
def Next (tab : SymTable) (is : List (Fin 256)) (i : Fin 256) : PlaceEnd → Prop
  | .placed t => t.Places tab (is ++ [i])
  | .malformed _ => ∃ j ∈ is, tab.slots[j].len ≠ 0 ∧ tab.Collide i j
  | .full _ => 1024 < (tab.innerPaths (is ++ [i])).card

theorem place (h : t.Places tab is) {i : Fin 256} (hi : tab.slots[i].len ≠ 0) :
    Next tab is i (Tree.place i tab.slots[i].code tab.slots[i].len.val 0 t) := by
  obtain ⟨n, hn⟩ : ∃ n, tab.slots[i].len.val = n + 1 := Nat.exists_eq_succ_of_ne_zero fun h0 => hi (Fin.ext h0)
  have hroot : t.NodePath [] 0 := by rw [Tree.NodePath, Tree.follow_nil, h.root]
  have hspec := Tree.place_places i tab.slots[i].code n h.grown hroot
  rw [← hn, List.nil_append, show msbFirst tab.slots[i].code tab.slots[i].len.val = tab.slots[i].bits from rfl] at hspec
  have hinner := tab.innerPaths_concat is i
  revert hspec
  cases Tree.place i tab.slots[i].code tab.slots[i].len.val 0 t with
  | placed t' =>
    rintro ⟨hroot', hgrown, hleaf⟩
    refine Places.mk (hroot'.trans h.root) (hinner ▸ hgrown) fun p j => ?_
    rw [hleaf, h.leaf, List.mem_append, List.mem_singleton]
    constructor
    · rintro (⟨⟨hj, hlen⟩, hp⟩ | ⟨rfl, rfl⟩)
      · exact ⟨⟨.inl hj, hlen⟩, hp⟩
      · exact ⟨⟨.inr rfl, hi⟩, rfl⟩
    · rintro ⟨⟨hj | rfl, hlen⟩, hp⟩
      · exact .inl ⟨⟨hj, hlen⟩, hp⟩
      · exact .inr ⟨hp, rfl⟩
  | malformed t' =>
    rintro (⟨p, j, hp, hpre⟩ | hin)
    · obtain ⟨hj, rfl⟩ := (h.leaf p j).1 hp
      exact ⟨j, hj.1, hj.2, .inl hpre⟩
    · obtain ⟨j, hj, hpre, hlen⟩ := (SymTable.mem_innerPaths.1 hin).resolve_left (Slot.bits_ne_nil hi)
      exact ⟨j, hj, Slot.len_ne_zero (List.ne_nil_of_length_pos (Nat.zero_lt_of_lt hlen)), .inr hpre⟩
  | full t' =>
    intro hfull
    rwa [Next, hinner]

end Tree.Places

/-- The rebuild stopped with an error at slot `i`, after the slots `placed`. -/
structure RebuildStops (tab : SymTable) (placed : List (Fin 256)) (i : Fin 256) (error : Option (ErrorName × Fin 256)) :
    Prop where
  coded : tab.slots[i].len ≠ 0
  why : (error = some (.malformed, i) ∧ ∃ j ∈ placed, tab.slots[j].len ≠ 0 ∧ tab.Collide i j) ∨
    (error = some (.treeFull, i) ∧ 1024 < (tab.innerPaths (placed ++ [i])).card)

/-- How the outer loop of R77 ends: all slots placed, or the first ones and an error at the next. -/
theorem Tree.placeAll_cases {tab : SymTable} {t : Tree} {done : List (Fin 256)} (is : List (Fin 256))
    (h : t.Places tab done) :
    ((Tree.placeAll tab is t).error = none ∧ (Tree.placeAll tab is t).tree.Places tab (done ++ is)) ∨
    ∃ (placed rest : List (Fin 256)) (i : Fin 256) (t₀ : Tree), done ++ is = placed ++ i :: rest ∧ t₀.Places tab placed ∧
      RebuildStops tab placed i (Tree.placeAll tab is t).error := by
  induction is generalizing t done with
  | nil => exact .inl ⟨rfl, (List.append_nil done).symm ▸ h⟩
  | cons i is ih =>
    rw [Tree.placeAll]
    split
    · next hi =>
      rw [List.append_cons]
      exact ih (h.skip hi)
    · next hi =>
      have hplace := h.place hi
      split
      · next t' hp =>
        rw [hp] at hplace
        rw [List.append_cons]
        exact ih hplace
      · next t' hp =>
        rw [hp] at hplace
        exact .inr ⟨done, is, i, t, rfl, h, hi, .inl ⟨rfl, hplace⟩⟩
      · next t' hp =>
        rw [hp] at hplace
        exact .inr ⟨done, is, i, t, rfl, h, hi, .inr ⟨rfl, hplace⟩⟩

/-! ## The slots before a slot -/

theorem SymTable.valid_getElem (t : SymTable) {n : Nat} (h : n < t.valid.length) : (t.valid[n]).val = n := by
  simp [SymTable.valid]

/-- Where a slot stands among the valid ones: at its own index. -/
theorem SymTable.valid_split {t : SymTable} {placed rest : List (Fin 256)} {i : Fin 256}
    (h : t.valid = placed ++ i :: rest) :
    i.val < t.nsym.val ∧ placed = t.valid.take i.val ∧ ∀ j, j ∈ placed ↔ j < i := by
  have hlt : placed.length < t.valid.length := by rw [h]; simp
  have hi : i.val = placed.length := by
    have hget := t.valid_getElem hlt
    simpa [h] using hget
  have htake : placed = t.valid.take i.val := by rw [hi, h, List.take_left]
  have hvalid : i.val < t.nsym.val := by rwa [hi, ← t.valid_length]
  refine ⟨hvalid, htake, fun j => ?_⟩
  rw [htake, SymTable.valid, List.take_take, Nat.min_eq_left hvalid.le]
  have hmem := SymTable.mem_valid { t with nsym := ⟨i.val, by omega⟩ } j
  exact hmem

/-- How TR_REBUILD ends (R77). -/
theorem exec_trRebuild_spec (s : State) :
    (∃ T : Tree, exec .trRebuild s = .next { s with tree := T, dec := { s.dec with act := false } } ∧
      T.Places s.table s.table.valid) ∨
    ∃ (T t₀ : Tree) (placed rest : List (Fin 256)) (i : Fin 256) (n : ErrorName), s.table.valid = placed ++ i :: rest ∧
      t₀.Places s.table placed ∧ RebuildStops s.table placed i (some (n, i)) ∧
      exec .trRebuild s = .next
        (State.raise { s with tree := T, dec := { s.dec with act := false } } n (BitVec.ofNat 32 i.val)) := by
  rcases Tree.placeAll_cases s.table.valid (Tree.Places.placeholder s.tree s.table) with
    ⟨hnone, hplaces⟩ | ⟨placed, rest, i, t₀, hsplit, hplaces, hstop⟩
  · exact .inl ⟨_, exec_trRebuild_of_good rfl hnone, hplaces⟩
  · rcases hstop with ⟨hi, ⟨herr, hwhy⟩ | ⟨herr, hwhy⟩⟩
    · exact .inr ⟨_, t₀, placed, rest, i, .malformed, hsplit, hplaces, ⟨hi, .inl ⟨rfl, hwhy⟩⟩,
        exec_trRebuild_of_error rfl herr⟩
    · exact .inr ⟨_, t₀, placed, rest, i, .treeFull, hsplit, hplaces, ⟨hi, .inr ⟨rfl, hwhy⟩⟩,
        exec_trRebuild_of_error rfl herr⟩

/-! ## How many nodes the codes need (R77) -/

theorem SymTable.PrefixFree.not_collide {tab : SymTable} (h : tab.PrefixFree) {i j : Fin 256} (hi : tab.Coded i)
    (hj : tab.Coded j) (hij : j ≠ i) : ¬ tab.Collide i j := by
  rintro (hc | hc)
  · exact hij (h j i hj hi hc)
  · exact hij (h i j hi hj hc).symm

/-- In a `PrefixFree` table the nodes a slot adds are those counted for it. -/
theorem SymTable.card_sdiff_innerPaths {tab : SymTable} (hpf : tab.PrefixFree) {placed rest : List (Fin 256)} {i : Fin 256}
    (h : tab.valid = placed ++ i :: rest) :
    (properPrefixes tab.slots[i].bits \ tab.innerPaths placed).card = tab.newNodes i := by
  obtain ⟨hi, -, hmem⟩ := SymTable.valid_split h
  have hlen : tab.slots[i].bits.length = tab.slots[i].len.val := Slot.bits_length _
  have hnew : properPrefixes tab.slots[i].bits \ tab.innerPaths placed =
      ((Finset.range tab.slots[i].len.val).filter fun n =>
        0 < n ∧ ∀ j ∈ tab.valid, j < i → ¬ tab.slots[i].bits.take n <+: tab.slots[j].bits).image tab.slots[i].bits.take := by
    rw [properPrefixes, hlen]
    ext p
    simp only [Finset.mem_sdiff, Finset.mem_image, Finset.mem_filter, Finset.mem_range]
    constructor
    · rintro ⟨⟨n, hn, rfl⟩, hnot⟩
      rw [SymTable.mem_innerPaths, not_or] at hnot
      obtain ⟨hne, hno⟩ := hnot
      refine ⟨n, ⟨hn, Nat.pos_of_ne_zero fun h0 => hne (by rw [h0, List.take_zero]), fun j hj hji hpre => ?_⟩, rfl⟩
      refine hno ⟨j, (hmem j).2 hji, hpre, lt_of_le_of_ne hpre.length_le fun he => ?_⟩
      have heq := hpre.eq_of_length he
      have hcj : tab.Coded j := ⟨(tab.mem_valid j).1 hj, Slot.len_ne_zero (heq ▸ hne)⟩
      have hci : tab.Coded i := ⟨hi, fun h0 => by rw [h0] at hn; exact Nat.not_lt_zero _ hn⟩
      exact hji.ne (hpf j i hcj hci (heq ▸ List.take_prefix _ _))
    · rintro ⟨n, ⟨hn, hpos, hno⟩, rfl⟩
      refine ⟨⟨n, hn, rfl⟩, fun hin => ?_⟩
      rcases SymTable.mem_innerPaths.1 hin with hnil | ⟨j, hj, hpre, -⟩
      · have := congrArg List.length hnil
        rw [List.length_take, List.length_nil] at this
        omega
      · exact hno j (h ▸ List.mem_append_left _ hj) ((hmem j).1 hj) hpre
  rw [hnew, Finset.card_image_of_injOn]
  · rfl
  · intro m hm n hn he
    have hm := Finset.mem_range.1 (Finset.mem_filter.1 hm).1
    have hn := Finset.mem_range.1 (Finset.mem_filter.1 hn).1
    have := congrArg List.length he
    simp only [List.length_take] at this
    omega

/-- The nodes of the tree of the first slots of a `PrefixFree` table. -/
theorem SymTable.card_innerPaths_take {tab : SymTable} (hpf : tab.PrefixFree) {n : Nat} (hn : n ≤ tab.nsym.val) :
    (tab.innerPaths (tab.valid.take n)).card = 1 + ((tab.valid.take n).map tab.newNodes).sum := by
  induction n with
  | zero => rfl
  | succ n ih =>
    have hlt : n < tab.valid.length := by rw [tab.valid_length]; exact hn
    have hsplit : tab.valid = tab.valid.take n ++ tab.valid[n] :: tab.valid.drop (n + 1) := by
      rw [← List.drop_eq_getElem_cons hlt, List.take_append_drop]
    rw [List.take_succ_eq_append_getElem hlt, SymTable.innerPaths_concat, ← Finset.union_sdiff_self_eq_union,
      Finset.card_union_of_disjoint Finset.disjoint_sdiff, SymTable.card_sdiff_innerPaths hpf hsplit, ih (by omega),
      List.map_append, List.sum_append, List.map_singleton, List.sum_singleton, Nat.add_assoc]

theorem SymTable.card_innerPaths_valid {tab : SymTable} (hpf : tab.PrefixFree) :
    (tab.innerPaths tab.valid).card = 1 + (tab.valid.map tab.newNodes).sum := by
  have h := SymTable.card_innerPaths_take hpf le_rfl
  rwa [List.take_of_length_le tab.valid_length.le] at h

/-- The root aside, a code has a node above it for each bit but one. -/
theorem card_properPrefixes_erase_nil_le (c : List Bool) : ((properPrefixes c).erase []).card ≤ c.length - 1 := by
  rcases Nat.eq_zero_or_pos c.length with h0 | hpos
  · rw [List.length_eq_zero_iff.1 h0]
    exact le_rfl
  · have hmem : [] ∈ properPrefixes c := mem_properPrefixes.2 ⟨List.nil_prefix, hpos⟩
    have hle : (properPrefixes c).card ≤ c.length := Finset.card_image_le.trans (Finset.card_range _).le
    rw [Finset.card_erase_of_mem hmem]
    omega

/-- A code of `n` bits adds at most `n - 1` nodes, whatever the other codes are. -/
theorem SymTable.card_innerPaths_le (tab : SymTable) (is : List (Fin 256)) :
    (tab.innerPaths is).card ≤ 1 + (is.map fun i => tab.slots[i].len.val - 1).sum := by
  induction is using List.reverseRecOn with
  | nil => exact le_rfl
  | append_singleton is i ih =>
    have hroot : [] ∈ tab.innerPaths is := SymTable.mem_innerPaths.2 (.inl rfl)
    have hadded : properPrefixes tab.slots[i].bits \ tab.innerPaths is ⊆ (properPrefixes tab.slots[i].bits).erase [] :=
      fun p hp => by
        obtain ⟨hp, hnot⟩ := Finset.mem_sdiff.1 hp
        exact Finset.mem_erase.2 ⟨fun he => hnot (he ▸ hroot), hp⟩
    have hcard := (Finset.card_le_card hadded).trans (card_properPrefixes_erase_nil_le _)
    rw [Slot.bits_length] at hcard
    rw [SymTable.innerPaths_concat, ← Finset.union_sdiff_self_eq_union, Finset.card_union_of_disjoint Finset.disjoint_sdiff,
      List.map_append, List.sum_append, List.map_singleton, List.sum_singleton]
    omega

/-! ## TR_REBUILD of a `PrefixFree` table (R77) -/

/-- Of a `PrefixFree` table only the nodes may run out. -/
theorem RebuildStops.treeFull {tab : SymTable} (hpf : tab.PrefixFree) {placed rest : List (Fin 256)} {i : Fin 256}
    {n : ErrorName} (hsplit : tab.valid = placed ++ i :: rest) (h : RebuildStops tab placed i (some (n, i))) :
    n = .treeFull ∧ 1024 < (tab.innerPaths (placed ++ [i])).card := by
  obtain ⟨hi, ⟨-, j, hj, hlen, hcollide⟩ | ⟨hn, hcard⟩⟩ := h
  · obtain ⟨hvalid, -, hmem⟩ := SymTable.valid_split hsplit
    have hji := (hmem j).1 hj
    exact absurd hcollide (hpf.not_collide ⟨hvalid, hi⟩ ⟨by omega, hlen⟩ hji.ne)
  · exact ⟨congrArg Prod.fst (Option.some.inj hn), hcard⟩

/-- The tree of all valid slots has the codes of the Code Table as leaf paths. -/
theorem Tree.Places.leafPath_iff {t : Tree} {tab : SymTable} (h : t.Places tab tab.valid) (p : List Bool) (i : Fin 256) :
    t.LeafPath p i ↔ tab.Coded i ∧ p = tab.slots[i].bits := by
  rw [h.leaf, tab.mem_valid]

/-- TR_REBUILD of a `PrefixFree` table with enough nodes. -/
theorem exec_trRebuild_of_prefixFree {s : State} (hpf : s.table.PrefixFree)
    (hroom : (s.table.innerPaths s.table.valid).card ≤ 1024) :
    ∃ T : Tree, exec .trRebuild s = .next { s with tree := T, dec := { s.dec with act := false } } ∧
      T.Places s.table s.table.valid := by
  rcases exec_trRebuild_spec s with h | ⟨T, t₀, placed, rest, i, n, hsplit, -, hstop, -⟩
  · exact h
  · obtain ⟨-, hcard⟩ := hstop.treeFull hpf hsplit
    have hsub : placed ++ [i] ⊆ s.table.valid := by
      rw [hsplit]
      simp
    have := Finset.card_le_card (s.table.innerPaths_mono hsub)
    omega

/-- Settles O38: no code collides and the nodes suffice, so that every slot is placed. -/
theorem trRebuildPlacesEveryCode : Obligations.TrRebuildPlacesEveryCode := by
  intro s hpf hroom
  rw [← SymTable.card_innerPaths_valid hpf] at hroom ⊢
  obtain ⟨T, hexec, hplaces⟩ := exec_trRebuild_of_prefixFree hpf hroom
  exact ⟨T, hexec, hplaces.root, hplaces.grown.card.symm, hplaces.leafPath_iff⟩

/-- Settles O39: not every slot is placed, and the error is the tree memory's, at the first slot that needs too many nodes. -/
theorem trRebuildRunsOutOfNodes : Obligations.TrRebuildRunsOutOfNodes := by
  intro s hpf hmany
  rcases exec_trRebuild_spec s with ⟨T, -, hplaces⟩ | ⟨T, t₀, placed, rest, i, n, hsplit, hplaces, hstop, hexec⟩
  · have hcard := hplaces.grown.card
    rw [SymTable.card_innerPaths_valid hpf] at hcard
    omega
  · obtain ⟨rfl, hcard⟩ := hstop.treeFull hpf hsplit
    obtain ⟨hi, htake, -⟩ := SymTable.valid_split hsplit
    have hnodes := hplaces.grown.card
    have htake' : placed ++ [i] = s.table.valid.take (i.val + 1) := by
      have hlt : i.val < s.table.valid.length := by rwa [s.table.valid_length]
      rw [List.take_succ_eq_append_getElem hlt, ← htake]
      exact congrArg (placed ++ [·]) (Fin.ext (s.table.valid_getElem hlt).symm)
    rw [htake', SymTable.card_innerPaths_take hpf hi] at hcard
    rw [htake, SymTable.card_innerPaths_take hpf hi.le] at hnodes
    exact ⟨T, i, hi, hexec, hcard, by omega⟩

/-- The tree of all valid slots tells their codes apart. -/
theorem Tree.Places.prefixFree {t : Tree} {tab : SymTable} (h : t.Places tab tab.valid) : tab.PrefixFree :=
  fun i j ⟨hi, hleni⟩ ⟨hj, hlenj⟩ =>
    h.prefix_imp_eq ⟨(tab.mem_valid i).2 hi, hleni⟩ ⟨(tab.mem_valid j).2 hj, hlenj⟩

/-- Settles O40: not every slot is placed, and the nodes suffice for any codes of these lengths. -/
theorem trRebuildRejectsCollision : Obligations.TrRebuildRejectsCollision := by
  intro s hpf hroom
  rcases exec_trRebuild_spec s with ⟨T, -, hplaces⟩ | ⟨T, t₀, placed, rest, i, n, hsplit, hplaces, ⟨hi, hwhy⟩, hexec⟩
  · exact absurd hplaces.prefixFree hpf
  · obtain ⟨hvalid, -, hmem⟩ := SymTable.valid_split hsplit
    rcases hwhy with ⟨hn, j, hj, hlen, hcollide⟩ | ⟨-, hcard⟩
    · obtain rfl : n = .malformed := congrArg Prod.fst (Option.some.inj hn)
      have hji := (hmem j).1 hj
      refine ⟨T, i, hexec, ⟨j, hji, ⟨hvalid, hi⟩, ⟨by omega, hlen⟩, hcollide⟩, fun a b hba hai ha hb => ?_⟩
      have ha' : a ∈ placed ∧ s.table.slots[a].len ≠ 0 := ⟨(hmem a).2 hai, ha.2⟩
      have hb' : b ∈ placed ∧ s.table.slots[b].len ≠ 0 := ⟨(hmem b).2 (hba.trans hai), hb.2⟩
      exact ⟨fun h => hba.ne (hplaces.prefix_imp_eq hb' ha' h), fun h => hba.ne' (hplaces.prefix_imp_eq ha' hb' h)⟩
    · have hle := s.table.card_innerPaths_le (placed ++ [i])
      rw [hsplit] at hroom
      simp only [List.map_append, List.sum_append, List.map_cons, List.sum_cons, List.map_nil, List.sum_nil] at hle hroom
      omega

/-! ## CT_DERIVE after TR_REBUILD (R78) -/

/-- The value the code's bits spell is the code. -/
theorem pathValue_msbFirst {w : Nat} {v : BitVec w} {n : Nat} (h : v.toNat < 2 ^ n) : pathValue (msbFirst v n) = v.toNat := by
  have hlt := pathValue_lt (msbFirst v n)
  rw [msbFirst_length] at hlt
  refine Nat.eq_of_testBit_eq fun k => ?_
  by_cases hk : k < n
  · have hbits := map_testBit_pathValue (msbFirst v n)
    rw [msbFirst_length] at hbits
    have hat := congrArg (·[n - 1 - k]?) hbits
    have hidx : n - 1 - k < n := by omega
    have hback : n - 1 - (n - 1 - k) = k := by omega
    change _ = v.getLsbD k
    simpa [msbFirst, hidx, hback] using hat
  · have hpow : 2 ^ n ≤ 2 ^ k := Nat.pow_le_pow_right (by decide) (Nat.not_lt.1 hk)
    rw [Nat.testBit_lt_two_pow (hlt.trans_le hpow), Nat.testBit_lt_two_pow (h.trans_le hpow)]

/-- Recording a slot's own code changes at most what was cleared. -/
theorem Slot.recorded_bits_self {x y : Slot} (hsym : y.sym = x.sym) (hcount : y.count = x.count) (hlen : x.len ≠ 0)
    (hcode : x.code.toNat < 2 ^ x.len.val) : y.recorded x.bits = x := by
  have hpos : 1 ≤ x.len.val := Nat.one_le_iff_ne_zero.2 fun h0 => hlen (Fin.ext h0)
  have hl : Fin.ofNat 65 (max x.bits.length 1) = x.len :=
    Fin.ext (by rw [Slot.bits_length, Nat.max_eq_left hpos]; exact Nat.mod_eq_of_lt x.len.isLt)
  rw [Slot.recorded, hsym, hcount, hl, Slot.bits, pathValue_msbFirst hcode, BitVec.ofNat_toNat, BitVec.setWidth_eq]

theorem SymTable.ext_slots {t t' : SymTable} (hn : t.nsym = t'.nsym) (ht : t.total = t'.total)
    (hs : ∀ i : Fin 256, t.slots[i] = t'.slots[i]) : t = t' := by
  obtain ⟨slots, nsym, total⟩ := t
  obtain ⟨slots', nsym', total'⟩ := t'
  obtain rfl : nsym = nsym' := hn
  obtain rfl : total = total' := ht
  obtain rfl : slots = slots' := Vector.ext fun i hi => hs ⟨i, hi⟩
  rfl

/-- A path to a node of a code tree is no longer than the longest code. -/
theorem Tree.Places.nodePath_length_lt {t : Tree} {tab : SymTable} {is : List (Fin 256)} (h : t.Places tab is)
    {p : List Bool} {k : Fin 1024} (hp : t.NodePath p k) : p.length < 65 := by
  rcases SymTable.mem_innerPaths.1 ((h.grown.node p).2 ⟨k, hp⟩) with rfl | ⟨i, -, -, hlen⟩
  · exact Nat.zero_lt_succ _
  · rw [Slot.bits_length] at hlen
    exact hlen.trans tab.slots[i].len.isLt

/-- The walk of a code tree ends. -/
theorem Tree.Places.walk_ne_endless {t : Tree} {tab : SymTable} {is : List (Fin 256)} (h : t.Places tab is) (p l : Nat)
    (tab' : SymTable) : t.walk 1024 t.root p l tab' ≠ .endless := fun hw => by
  obtain ⟨q, k, hlen, hq⟩ := Tree.walk_endless hw
  have := h.nodePath_length_lt hq
  omega

/-- A walk that recorded the tree of a table's codes in the table with its codes cleared has restored the table. -/
theorem Tree.Walked.eq_table {t : Tree} {tab tab' : SymTable} (hinv : TableInv tab) (h : t.Places tab tab.valid)
    (hw : t.Walked t.root [] tab.clearCodes tab') : tab' = tab := by
  have hclear := tab.recodes_clearCodes
  refine SymTable.ext_slots (hw.nsym.trans hclear.nsym) (hw.total.trans hclear.total) fun i => ?_
  by_cases hc : tab.Coded i
  · rw [hw.slot_of_unique ((h.leafPath_iff _ i).2 ⟨hc, rfl⟩) fun q hq => ((h.leafPath_iff q i).1 hq).2]
    exact Slot.recorded_bits_self (hclear.sym i) (hclear.count i) hc.2 (hinv.codeFits i hc.1)
  · rw [hw.slot_of_no_leaf fun p hp => hc ((h.leafPath_iff p i).1 hp).1, SymTable.clearCodes_slots]
    split
    · next hi =>
      have hlen : tab.slots[i].len = 0 := by_contra fun hlen => hc ⟨hi, hlen⟩
      have hcode : tab.slots[i].code = 0 := by
        have hfits := hinv.codeFits i hi
        rw [hlen] at hfits
        exact BitVec.eq_of_toNat_eq (Nat.lt_one_iff.1 hfits)
      rw [← hlen, ← hcode]
    · rfl

/-- Settles O41: the codes are at most 64 bits long, so the walk comes to its end, and it records each code where it was. -/
theorem deriveUndoesRebuild : Obligations.DeriveUndoesRebuild := by
  intro s t hinv h he
  rcases exec_trRebuild_spec s with ⟨T, hexec, hplaces⟩ | ⟨T, t₀, placed, rest, i, n, -, -, -, hexec⟩
  · obtain rfl := Host.Outcome.next.inj (hexec.symm.trans h)
    rcases Tree.walk_root_cases (hplaces.walk_ne_endless 0 0 s.table.clearCodes) with
      ⟨tab, hdone, hw⟩ | ⟨j, tab, q, -, hq, hlen, -⟩
    · obtain rfl := hw.eq_table hinv hplaces
      exact exec_ctDerive_of_done hdone
    · obtain ⟨-, rfl⟩ := (hplaces.leafPath_iff q j).1 hq
      rw [Slot.bits_length] at hlen
      omega
  · obtain rfl := Host.Outcome.next.inj (hexec.symm.trans h)
    simp at he

/-! ## TR_REBUILD after TB_BUILD and CT_DERIVE (R78) -/

/-- The paths to the nodes above these leaves. -/
def nodesAbove (rows : List LeafRow) : Finset (List Bool) := rows.toFinset.biUnion fun x => properPrefixes x.1

theorem mem_nodesAbove {rows : List LeafRow} {p : List Bool} :
    p ∈ nodesAbove rows ↔ ∃ x ∈ rows, p <+: x.1 ∧ p.length < x.1.length := by
  simp [nodesAbove, mem_properPrefixes]

theorem cons_mem_nodesAbove_underBit {b c : Bool} {p : List Bool} {rows : List LeafRow} :
    c :: p ∈ nodesAbove (underBit b rows) ↔ c = b ∧ p ∈ nodesAbove rows := by
  simp only [mem_nodesAbove, underBit, List.mem_map]
  constructor
  · rintro ⟨_, ⟨x, hx, rfl⟩, hpre, hlen⟩
    obtain ⟨rfl, hpre'⟩ := List.cons_prefix_cons.1 hpre
    exact ⟨rfl, x, hx, hpre', Nat.lt_of_succ_lt_succ hlen⟩
  · rintro ⟨rfl, x, hx, hpre, hlen⟩
    exact ⟨_, ⟨x, hx, rfl⟩, List.cons_prefix_cons.2 ⟨rfl, hpre⟩, Nat.succ_lt_succ hlen⟩

namespace Tree.Leaves

variable {t : Tree} {r : Ref} {rows rows₀ rows₁ : List LeafRow}

/-- Above the leaves of two subtrees are the node that joins them and the nodes of each. -/
theorem nodesAbove_join (h₀ : rows₀ ≠ []) : nodesAbove (underBit false rows₀ ++ underBit true rows₁) =
    insert [] ((nodesAbove rows₀).image (List.cons false) ∪ (nodesAbove rows₁).image (List.cons true)) := by
  ext p
  have hsplit : p ∈ nodesAbove (underBit false rows₀ ++ underBit true rows₁) ↔
      p ∈ nodesAbove (underBit false rows₀) ∨ p ∈ nodesAbove (underBit true rows₁) := by
    simp [mem_nodesAbove, or_and_right, exists_or]
  cases p with
  | nil =>
    refine iff_of_true (hsplit.2 (.inl ?_)) (Finset.mem_insert_self _ _)
    obtain ⟨x, hx⟩ := List.exists_mem_of_ne_nil _ h₀
    exact mem_nodesAbove.2 ⟨_, List.mem_map_of_mem hx, List.nil_prefix, Nat.zero_lt_succ _⟩
  | cons b p =>
    rw [hsplit, cons_mem_nodesAbove_underBit, cons_mem_nodesAbove_underBit]
    cases b <;> simp

/-- A full tree has one node less than leaves. -/
theorem card_nodesAbove (h : t.Leaves r rows) : (nodesAbove rows).card + 1 = rows.length := by
  induction h with
  | leaf i => rfl
  | node k rows₀ rows₁ hk h₀ h₁ ih₀ ih₁ =>
    have hdisjoint : Disjoint ((nodesAbove rows₀).image (List.cons false)) ((nodesAbove rows₁).image (List.cons true)) := by
      rw [Finset.disjoint_left]
      simp only [Finset.mem_image]
      rintro _ ⟨p, -, rfl⟩ ⟨q, -, hq⟩
      cases hq
    rw [nodesAbove_join h₀.ne_nil, Finset.card_insert_of_notMem (by simp), Finset.card_union_of_disjoint hdisjoint,
      Finset.card_image_of_injective _ (List.cons_injective), Finset.card_image_of_injective _ (List.cons_injective),
      List.length_append, underBit, underBit, List.length_map, List.length_map]
    omega

/-- From a node above a leaf of a full tree there is a leaf in either direction. -/
theorem exists_below (h : t.Leaves r rows) {p : List Bool} (hp : p ∈ nodesAbove rows) (b : Bool) :
    ∃ x ∈ rows, p ++ [b] <+: x.1 := by
  induction h generalizing p with
  | leaf i => exact absurd hp (Finset.notMem_empty p)
  | node k rows₀ rows₁ hk h₀ h₁ ih₀ ih₁ =>
    have hleft : ∀ {q}, (∃ x ∈ rows₀, q <+: x.1) →
        ∃ y ∈ underBit false rows₀ ++ underBit true rows₁, false :: q <+: y.1 := fun ⟨x, hx, hq⟩ =>
      ⟨_, List.mem_append_left _ (List.mem_map_of_mem hx), List.cons_prefix_cons.2 ⟨rfl, hq⟩⟩
    have hright : ∀ {q}, (∃ x ∈ rows₁, q <+: x.1) →
        ∃ y ∈ underBit false rows₀ ++ underBit true rows₁, true :: q <+: y.1 := fun ⟨x, hx, hq⟩ =>
      ⟨_, List.mem_append_right _ (List.mem_map_of_mem hx), List.cons_prefix_cons.2 ⟨rfl, hq⟩⟩
    have hsome : ∀ {rows}, rows ≠ [] → ∃ x ∈ (rows : List LeafRow), [] <+: x.1 := fun hne => by
      obtain ⟨x, hx⟩ := List.exists_mem_of_ne_nil _ hne
      exact ⟨x, hx, List.nil_prefix⟩
    rw [nodesAbove_join h₀.ne_nil] at hp
    simp only [Finset.mem_insert, Finset.mem_union, Finset.mem_image] at hp
    obtain rfl | ⟨q, hq, rfl⟩ | ⟨q, hq, rfl⟩ := hp
    · cases b with
      | false => exact hleft (hsome h₀.ne_nil)
      | true => exact hright (hsome h₁.ne_nil)
    · exact hleft (ih₀ hq)
    · exact hright (ih₁ hq)

end Tree.Leaves

namespace SymTable.RecordsTree

variable {tab : SymTable} {t : Tree} {rows : List LeafRow}

theorem bits (h : tab.RecordsTree t rows) {x : LeafRow} (hx : x ∈ rows) : tab.slots[x.2].bits = x.1 := by
  obtain ⟨old, hold⟩ := h.recorded x hx
  obtain ⟨hne, h64⟩ := h.steps x hx
  rw [hold, old.recorded_bits hne h64]

theorem mem_valid (h : tab.RecordsTree t rows) {x : LeafRow} (hx : x ∈ rows) : x.2 ∈ tab.valid :=
  h.slots.mem_iff.1 (List.mem_map_of_mem hx)

/-- The valid slots' codes and the tree's leaves are the same rows. -/
theorem exists_row (h : tab.RecordsTree t rows) {i : Fin 256} (hi : i ∈ tab.valid) : (tab.slots[i].bits, i) ∈ rows := by
  obtain ⟨x, hx, rfl⟩ := List.mem_map.1 (h.slots.mem_iff.2 hi)
  rwa [h.bits hx]

theorem innerPaths (h : tab.RecordsTree t rows) : tab.innerPaths tab.valid = nodesAbove rows := by
  obtain ⟨x₀, hx₀⟩ := List.exists_mem_of_ne_nil _ h.leaves.ne_nil
  have hroot := List.length_pos_iff.2 (h.steps x₀ hx₀).1
  ext p
  rw [SymTable.mem_innerPaths, mem_nodesAbove]
  constructor
  · rintro (rfl | ⟨i, hi, hp⟩)
    · exact ⟨x₀, hx₀, List.nil_prefix, hroot⟩
    · exact ⟨_, h.exists_row hi, hp⟩
  · rintro ⟨x, hx, hp⟩
    exact .inr ⟨x.2, h.mem_valid hx, (h.bits hx).symm ▸ hp⟩

theorem rows_length (h : tab.RecordsTree t rows) : rows.length = tab.nsym.val := by
  rw [← tab.valid_length, ← h.slots.length_eq, List.length_map]

theorem card_innerPaths (h : tab.RecordsTree t rows) : (tab.innerPaths tab.valid).card + 1 = tab.nsym.val := by
  rw [h.innerPaths, h.leaves.card_nodesAbove, h.rows_length]

/-- The codes of a built tree lead to the same leaves. -/
theorem leafPath_iff (h : tab.RecordsTree t rows) (p : List Bool) (i : Fin 256) :
    t.LeafPath p i ↔ tab.Coded i ∧ p = tab.slots[i].bits := by
  rw [Tree.LeafPath, ← h.leaves.mem_iff]
  constructor
  · intro hx
    have hb := h.bits hx
    exact ⟨⟨(tab.mem_valid i).1 (h.mem_valid hx), Slot.len_ne_zero (hb ▸ (h.steps _ hx).1)⟩, hb.symm⟩
  · rintro ⟨⟨hi, -⟩, rfl⟩
    exact h.exists_row ((tab.mem_valid i).2 hi)

end SymTable.RecordsTree

/-- The node a path leads to. -/
def Tree.nodeAt (t : Tree) (p : List Bool) : Fin 1024 :=
  match t.follow t.root p with
  | some (.node k) => k
  | _ => 0

theorem Tree.NodePath.nodeAt_eq {t : Tree} {p : List Bool} {k : Fin 1024} (h : t.NodePath p k) : t.nodeAt p = k := by
  rw [Tree.nodeAt, h]

/-- There are as many paths to nodes as allocated nodes, so each node is reached. -/
theorem Tree.Grown.exists_nodePath {t : Tree} {P : Finset (List Bool)} (h : t.Grown P) {k : Fin 1024}
    (hk : k.val < t.nnode.val) : ∃ p ∈ P, t.NodePath p k := by
  have hpath : ∀ p ∈ P, t.NodePath p (t.nodeAt p) := fun p hp => by
    obtain ⟨m, hm⟩ := (h.node p).1 hp
    rwa [hm.nodeAt_eq]
  have hsub : P.image t.nodeAt ⊆ t.allocated.toFinset := fun m hm => by
    obtain ⟨p, hp, rfl⟩ := Finset.mem_image.1 hm
    exact List.mem_toFinset.2 ((t.mem_allocated _).2 (h.lt (hpath p hp)))
  have hcard : t.allocated.toFinset.card ≤ (P.image t.nodeAt).card := by
    rw [List.toFinset_card_of_nodup t.allocated_nodup, t.allocated_length, ← h.card, Finset.card_image_of_injOn]
    exact fun p hp q hq he => h.inj (hpath p hp) (he ▸ hpath q hq)
  have hmem : k ∈ P.image t.nodeAt := by
    rw [Finset.eq_of_subset_of_card_le hsub hcard]
    exact List.mem_toFinset.2 ((t.mem_allocated k).2 hk)
  obtain ⟨p, hp, rfl⟩ := Finset.mem_image.1 hmem
  exact ⟨p, hp, hpath p hp⟩

/-- A rebuilt full tree has no EMPTY child: below each of its nodes the full tree goes on in both directions. -/
theorem Tree.Places.child_ne_empty {T t : Tree} {tab : SymTable} {rows : List LeafRow} (hT : T.Places tab tab.valid)
    (h : tab.RecordsTree t rows) {k : Fin 1024} (hk : k.val < T.nnode.val) (b : Bool) : T.nodes[k].child b ≠ .empty := by
  obtain ⟨p, hp, hpath⟩ := hT.grown.exists_nodePath hk
  obtain ⟨x, hx, q, hq⟩ := h.leaves.exists_below (h.innerPaths ▸ hp) b
  have hleaf : T.LeafPath x.1 x.2 := (hT.leafPath_iff _ _).2 ((h.leafPath_iff _ _).1 (h.leaves.mem_iff.1 hx))
  intro hempty
  rw [← hq, Tree.LeafPath, hpath.follow_append, hempty] at hleaf
  exact Tree.follow_empty_ne_leaf hleaf

/-- Settles O42: the codes are those of a full tree, whose nodes and leaves the rebuilt tree has again. -/
theorem rebuildUndoesDerive : Obligations.RebuildUndoesDerive := by
  intro s t u htwo ht hu he
  obtain ⟨rows, h⟩ := exec_tbBuild_ctDerive_recordsTree htwo ht hu he
  have hcard := h.card_innerPaths
  have hnsym : u.table.nsym = s.table.nsym := by
    cases ht
    exact (exec_ctDerive_recodes hu).nsym
  obtain ⟨T, hexec, hplaces⟩ := exec_trRebuild_of_prefixFree h.prefixFree (by omega)
  refine ⟨_, hexec, he, ?_, fun p i => (hplaces.leafPath_iff p i).trans (h.leafPath_iff p i).symm,
    fun k b hk => hplaces.child_ne_empty h hk b⟩
  rw [← hnsym, ← hcard, hplaces.grown.card]

end Sys2Proof.Machine
end

section
/-! PROOFS. Laws of the invariants (spec 10_state.md R37): each part of the invariant is kept by every command that writes what
the part is about. -/

namespace Sys2Proof.Machine

/-! ## The symbol table (R24, R25) -/

theorem SymTable.valid_congr {t t' : SymTable} (h : t'.nsym = t.nsym) : t'.valid = t.valid := by
  rw [SymTable.valid, h, SymTable.valid]

/-- New codes within their lengths keep the table's invariant. -/
theorem TableInv.of_recodes {t t' : SymTable} (h : TableInv t) (hrec : t.Recodes t')
    (hfits : ∀ i : Fin 256, i.val < t.nsym.val → t'.slots[i].code.toNat < 2 ^ t'.slots[i].len.val) : TableInv t' where
  distinct i j hi hj hij := by
    rw [hrec.nsym] at hi hj
    rw [hrec.sym, hrec.sym] at hij
    exact h.distinct i j hi hj hij
  legal i hi := by
    rw [hrec.nsym] at hi
    rw [hrec.sym]
    exact h.legal i hi
  codeFits i hi := hfits i (hrec.nsym ▸ hi)
  countSum := by
    simp only [SymTable.valid_congr hrec.nsym, hrec.count, hrec.total]
    exact h.countSum

theorem TableInv.setCode {t : SymTable} (h : TableInv t) (i : Fin 256) {c : BitVec 64} {n : Fin 65}
    (hc : c.toNat < 2 ^ n.val) : TableInv (t.setCode i c n) := by
  refine h.of_recodes ((SymTable.Recodes.refl t).setCode i c n) fun j hj => ?_
  rw [SymTable.setCode_slots]
  split
  · exact hc
  · exact h.codeFits j hj

theorem TableInv.clearCodes {t : SymTable} (h : TableInv t) : TableInv t.clearCodes := by
  refine h.of_recodes t.recodes_clearCodes fun j hj => ?_
  rw [SymTable.clearCodes_slots, if_pos hj]
  exact Nat.one_pos

theorem SymTable.valid_of_alloc {t t' : SymTable} {y : Word} {i : Fin 256} (h : t.alloc y = some (i, t')) :
    t'.valid = t.valid ++ [i] := by
  obtain ⟨hi, hn, -, -⟩ := SymTable.alloc_some h
  have hlt : t.nsym.val < (List.finRange 256).length := by
    rw [List.length_finRange, ← hi]
    exact i.isLt
  have hlast : (List.finRange 256)[t.nsym.val] = i := Fin.ext (by simp [hi])
  rw [SymTable.valid, hn, List.take_succ_eq_append_getElem hlt, hlast, SymTable.valid]

/-- A fresh slot for a new symbol counts nothing and has no code. -/
theorem TableInv.alloc {t t' : SymTable} {y : Word} {i : Fin 256} (h : TableInv t) (hy : LegalSymbol y)
    (hnew : t.lookup y = none) (ha : t.alloc y = some (i, t')) : TableInv t' := by
  obtain ⟨hi, hn, htot, hslots⟩ := SymTable.alloc_some ha
  obtain ⟨hsym, hold⟩ := SymTable.alloc_symbolAt hy ha
  have hcase : ∀ j : Fin 256, j.val < t'.nsym.val → j.val < t.nsym.val ∨ j = i := by omega
  have hne : ∀ j : Fin 256, j.val < t.nsym.val → t'.symbolAt j ≠ y := fun j hj => by
    rw [hold j hj]
    exact SymTable.lookup_none.1 hnew j hj
  refine ⟨fun a b ha' hb' hab => ?distinct, fun j hj => ?legal, fun j hj => ?fits, ?sum⟩
  case distinct =>
    have hab' : t'.symbolAt a = t'.symbolAt b := congrArg (BitVec.setWidth 32) hab
    rcases hcase a ha' with hat | rfl
    · rcases hcase b hb' with hbt | rfl
      · rw [hold a hat, hold b hbt] at hab'
        exact h.symbolAt_injective hat hbt hab'
      · exact absurd (hab'.trans hsym) (hne a hat)
    · rcases hcase b hb' with hbt | rfl
      · exact absurd (hab'.symm.trans hsym) (hne b hbt)
      · rfl
  case legal =>
    rcases hcase j hj with hj | rfl
    · rw [hslots, if_neg (by omega)]
      exact h.legal j hj
    · exact (show LegalSymbol (t'.symbolAt j) from hsym.symm ▸ hy)
  case fits =>
    rw [hslots]
    split
    · exact Nat.one_pos
    · exact h.codeFits j (by omega)
  case sum =>
    have hkeep : t.valid.map (fun j => t'.slots[j].count.toNat) = t.valid.map fun j => t.slots[j].count.toNat :=
      List.map_congr_left fun j hj => by
        have := (t.mem_valid j).1 hj
        rw [hslots, if_neg (by omega)]
    have hzero : t'.slots[i].count.toNat = 0 := by
      rw [hslots, if_pos rfl]
      rfl
    rw [SymTable.valid_of_alloc ha, List.map_append, List.sum_append, hkeep, h.countSum, htot, List.map_singleton,
      List.sum_singleton, hzero, Nat.add_zero]

/-- One more at one place of a list adds one to its sum. -/
theorem sum_map_add_one_at {α : Type} [DecidableEq α] {l : List α} (hl : l.Nodup) {i : α} (hi : i ∈ l) (f : α → Nat) :
    (l.map fun j => if i = j then f j + 1 else f j).sum = (l.map f).sum + 1 := by
  induction l with
  | nil => exact absurd hi List.not_mem_nil
  | cons a l ih =>
    obtain ⟨ha, hl⟩ := List.nodup_cons.1 hl
    rw [List.map_cons, List.sum_cons, List.map_cons, List.sum_cons]
    rcases List.mem_cons.1 hi with rfl | hi
    · have hrest : l.map (fun j => if i = j then f j + 1 else f j) = l.map f :=
        List.map_congr_left fun j hj => if_neg fun he : i = j => ha (he ▸ hj)
      rw [hrest, if_pos rfl]
      omega
    · rw [ih hl hi, if_neg fun he : i = a => ha (he ▸ hi)]
      omega

/-- Counting at a valid slot below the maximum of TOTAL wraps neither the count nor TOTAL. -/
theorem TableInv.countOne {t : SymTable} (h : TableInv t) (ht : t.total ≠ 0xFFFFFFFF#32) {i : Fin 256}
    (hi : i.val < t.nsym.val) : TableInv (t.countOne i) := by
  have htot := SymTable.total_lt_of_ne ht
  have hmem := (t.mem_valid i).2 hi
  have hle : t.slots[i].count.toNat ≤ t.total.toNat := by
    rw [← h.countSum]
    exact List.le_sum_of_mem (List.mem_map_of_mem (f := fun j => t.slots[j].count.toNat) hmem)
  have hslot (j : Fin 256) : (t.countOne i).slots[j].sym = t.slots[j].sym ∧ (t.countOne i).slots[j].code = t.slots[j].code ∧
      (t.countOne i).slots[j].len = t.slots[j].len ∧
      (t.countOne i).slots[j].count.toNat = if i = j then t.slots[j].count.toNat + 1 else t.slots[j].count.toNat := by
    rw [SymTable.countOne_slots]
    split
    · next hij =>
      subst hij
      exact ⟨rfl, rfl, rfl, toNat_add_one_of_lt (hle.trans_lt htot)⟩
    · exact ⟨rfl, rfl, rfl, rfl⟩
  refine ⟨fun a b ha hb hab => ?_, fun j hj => ?_, fun j hj => ?_, ?_⟩
  · rw [(hslot a).1, (hslot b).1] at hab
    exact h.distinct a b ha hb hab
  · rw [(hslot j).1]
    exact h.legal j hj
  · rw [(hslot j).2.1, (hslot j).2.2.1]
    exact h.codeFits j hj
  · have hcounts := List.map_congr_left (l := t.valid) fun j _ => (hslot j).2.2.2
    rw [SymTable.valid_congr (SymTable.countOne_nsym t i), hcounts,
      sum_map_add_one_at t.valid_nodup hmem fun j => t.slots[j].count.toNat, h.countSum, SymTable.countOne_total,
      toNat_add_one_of_lt htot]

theorem TableInv.slotFor {t t' : SymTable} {y : Word} {i : Fin 256} (h : TableInv t) (hy : LegalSymbol y)
    (hs : t.slotFor y = some (i, t')) : TableInv t' := by
  rcases SymTable.slotFor_some hs with ⟨-, rfl⟩ | ⟨hl, ha⟩
  · exact h
  · exact h.alloc hy hl ha

theorem exec_ctDerive_tableInv {s t : State} (hs : TableInv s.table) (h : exec .ctDerive s = .next t) :
    TableInv t.table := by
  have hw := s.tree.walk_hasTable (P := TableInv) (fun _ i _ _ hc htab => htab.setCode i hc) 1024 s.tree.root (p := 0)
    (l := 0) (by decide) hs.clearCodes
  obtain ⟨tab, hd, rfl⟩ | ⟨i, tab, hd, rfl⟩ := execCtDerive_cases h
  · rwa [hd] at hw
  · rwa [hd] at hw

theorem exec_tableInv {i : Instr} {s t : State} (hs : TableInv s.table) (hi : i ≠ .sreset) (h : exec i s = .next t) :
    TableInv t.table := by
  rcases (exec_kept hi h).table with hsame | rfl | ⟨n, rfl⟩ | rfl
  · exact hsame ▸ hs
  · obtain ⟨-, hsame | ⟨ht, hy, k, tab, hk, htab⟩⟩ := exec_fcCount_frame h
    · exact hsame ▸ hs
    · obtain ⟨hext, hvalid⟩ := SymTable.slotFor_extends hk
      exact htab ▸ (hs.slotFor hy hk).countOne (hext.total ▸ ht) hvalid
  · obtain ⟨-, hsame | ⟨hy, k, tab, c, m, hc, hk, htab⟩⟩ := exec_ctLoad_frame h
    · exact hsame ▸ hs
    · exact htab ▸ (hs.slotFor hy hk).setCode k hc
  · exact exec_ctDerive_tableInv hs h

/-! ## The tree memory (R26 to R28) -/

theorem RefOk.mono {nsym nsym' nnode nnode' : Nat} {r : Ref} (h : RefOk nsym nnode r) (hs : nsym ≤ nsym')
    (hn : nnode ≤ nnode') : RefOk nsym' nnode' r := by
  cases r with
  | empty => exact trivial
  | leaf i => exact Nat.lt_of_lt_of_le h hs
  | node k => exact Nat.lt_of_lt_of_le h hn

theorem TreeInv.mono {t : Tree} {nsym nsym' : Nat} (h : TreeInv t nsym) (hs : nsym ≤ nsym') : TreeInv t nsym' where
  root := h.root.mono hs le_rfl
  child k b hk := (h.child k b hk).mono hs le_rfl
  ordered := h.ordered

theorem exec_tbBuild_treeInv {s t : State} (h : exec .tbBuild s = .next t) : TreeInv t.tree s.table.nsym.val := by
  obtain h0 | h1 | htwo : s.table.nsym.val = 0 ∨ s.table.nsym.val = 1 ∨ 2 ≤ s.table.nsym.val := by omega
  · obtain rfl := Host.Outcome.next.inj (h.symm.trans ((tbBuildOfAtMostOneSlot s).1 h0))
    exact ⟨trivial, fun _ _ hk => absurd hk (Nat.not_lt_zero _), .inl fun _ _ _ hk => absurd hk (Nat.not_lt_zero _)⟩
  · obtain rfl := Host.Outcome.next.inj (h.symm.trans ((tbBuildOfAtMostOneSlot s).2 h1))
    exact ⟨h1 ▸ Nat.zero_lt_one, fun _ _ hk => absurd hk (Nat.not_lt_zero _),
      .inl fun _ _ _ hk => absurd hk (Nat.not_lt_zero _)⟩
  · obtain ⟨T, hexec, hnn, ⟨k, hk, hroot⟩, -, -, hchild, hbelow, -⟩ := tbBuildTree s htwo
    obtain rfl := Host.Outcome.next.inj (h.symm.trans hexec)
    refine ⟨?_, fun m b hm => (hchild m b hm).2, .inl hbelow⟩
    show RefOk _ _ T.root
    rw [hroot]
    exact (show k.val < T.nnode.val by omega)

/-- The tree memory in the middle of TR_REBUILD: children come after their parents. -/
structure Rebuilding (t : Tree) (nsym : Nat) : Prop where
  root : RefOk nsym t.nnode.val t.root
  child : ∀ (k : Fin 1024) (b : Bool), k.val < t.nnode.val → RefOk nsym t.nnode.val (t.nodes[k].child b)
  above : t.ChildrenAbove

namespace Rebuilding

variable {t t' : Tree} {nsym : Nat} {k : Fin 1024}

theorem treeInv (h : Rebuilding t nsym) : TreeInv t nsym := ⟨h.root, h.child, .inr h.above⟩

theorem placeholder (t : Tree) (nsym : Nat) : Rebuilding t.placeholder nsym := by
  have hblank : ∀ (k : Fin 1024) (b : Bool), k.val < t.placeholder.nnode.val → t.placeholder.nodes[k].child b = .empty := by
    intro k b hk
    obtain rfl : k = 0 := Fin.ext (Nat.lt_one_iff.1 hk)
    have h0 : t.placeholder.nodes[(0 : Fin 1024)] = Node.blank := by simp [Tree.placeholder]
    rw [h0, Node.blank, Node.child, ite_self]
  refine ⟨Nat.zero_lt_one, fun k b hk => ?_, fun k m b hk hc => ?_⟩
  · rw [hblank k b hk]
    exact trivial
  · rw [hblank k b hk] at hc
    cases hc

/-- A child field set to a valid slot or to a later node. -/
theorem setChild (h : Rebuilding t nsym) (b : Bool) {r : Ref} (hr : RefOk nsym t.nnode.val r)
    (hlater : ∀ m, r = .node m → k < m) : Rebuilding (t.setChild k b r) nsym := by
  have hcase : ∀ (m : Fin 1024) (c : Bool), (t.setChild k b r).nodes[m].child c = t.nodes[m].child c ∨
      (m = k ∧ (t.setChild k b r).nodes[m].child c = r) := by
    intro m c
    rw [Tree.setChild_nodes]
    split
    · next hkm =>
      subst hkm
      by_cases hcb : c = b
      · exact .inr ⟨rfl, hcb ▸ Node.child_setChild _ _ _⟩
      · exact .inl (Node.child_setChild_ne _ _ hcb)
    · exact .inl rfl
  refine ⟨h.root, fun m c hm => ?_, fun m n c hm hc => ?_⟩
  · rcases hcase m c with he | ⟨-, he⟩
    · rw [he]
      exact h.child m c hm
    · rw [he]
      exact hr
  · rcases hcase m c with he | ⟨rfl, he⟩
    · exact h.above m n c hm (he.symm.trans hc)
    · exact hlater n (he.symm.trans hc)

theorem alloc (h : Rebuilding t nsym) (ha : t.alloc Node.blank = some (k, t')) : Rebuilding t' nsym := by
  obtain ⟨hk, hn, hroot, hnodes⟩ := Tree.alloc_some ha
  have hcase : ∀ (m : Fin 1024) (c : Bool), m.val < t'.nnode.val →
      (m.val < t.nnode.val ∧ t'.nodes[m] = t.nodes[m]) ∨ t'.nodes[m].child c = .empty := by
    intro m c hm
    by_cases hkm : k = m
    · refine .inr ?_
      rw [hnodes, if_pos hkm, Node.blank, Node.child, ite_self]
    · exact .inl ⟨by omega, by rw [hnodes, if_neg hkm]⟩
  refine ⟨hroot ▸ h.root.mono le_rfl (by omega), fun m c hm => ?_, fun m n c hm hc => ?_⟩
  · rcases hcase m c hm with ⟨hlt, he⟩ | he
    · rw [he]
      exact (h.child m c hlt).mono le_rfl (by omega)
    · rw [he]
      exact trivial
  · rcases hcase m c hm with ⟨hlt, he⟩ | he
    · exact h.above m n c hlt (he ▸ hc)
    · rw [he] at hc
      cases hc

end Rebuilding

/-- The tree a placed code leaves, however it ends. -/
def PlaceEnd.tree : PlaceEnd → Tree
  | .placed t => t
  | .malformed t => t
  | .full t => t

theorem Rebuilding.place {nsym : Nat} {i : Fin 256} (hi : i.val < nsym) (code : BitVec 64) (n : Nat) {t : Tree}
    {k : Fin 1024} (h : Rebuilding t nsym) (hk : k.val < t.nnode.val) :
    Rebuilding (Tree.place i code (n + 1) k t).tree nsym := by
  induction n generalizing t k with
  | zero =>
    rw [Tree.place]
    split
    · exact h.setChild _ (show RefOk nsym t.nnode.val (.leaf i) from hi) nofun
    · exact h
  | succ n ih =>
    rw [Tree.place]
    split
    · split
      · exact h
      · next m t' ha =>
        obtain ⟨hm, hn, -, -⟩ := Tree.alloc_some ha
        have hlt : m.val < t'.nnode.val := by omega
        refine ih ((h.alloc ha).setChild _ (show RefOk nsym t'.nnode.val (.node m) from hlt) fun c hc => ?_) hlt
        obtain rfl := Ref.node.inj hc
        exact Fin.lt_def.2 (hm ▸ hk)
    · exact h
    · next m hc =>
      have hok := h.child k (code.getLsbD (n + 1)) hk
      rw [hc] at hok
      exact ih h hok

/-- The root of a rebuilt tree stays allocated. -/
theorem Tree.place_nnode_le (i : Fin 256) (code : BitVec 64) (n : Nat) (k : Fin 1024) (t : Tree) :
    t.nnode.val ≤ (Tree.place i code n k t).tree.nnode.val := by
  induction n using Nat.strong_induction_on generalizing t k with
  | _ n ih =>
    match n, ih with
    | 0, _ => exact le_rfl
    | 1, _ =>
      rw [Tree.place]
      split
      · exact le_rfl
      · exact le_rfl
    | n + 2, ih =>
      rw [Tree.place]
      split
      · split
        · exact le_rfl
        · next m t' ha =>
          obtain ⟨-, hn, -, -⟩ := Tree.alloc_some ha
          have := ih (n + 1) (Nat.lt_succ_self _) m (t'.setChild k (code.getLsbD (n + 1)) (.node m))
          rw [Tree.setChild_nnode] at this
          omega
      · exact le_rfl
      · exact ih (n + 1) (Nat.lt_succ_self _) _ t

theorem Rebuilding.placeAll {tab : SymTable} (is : List (Fin 256)) (his : ∀ i ∈ is, i.val < tab.nsym.val) {t : Tree}
    (h : Rebuilding t tab.nsym.val) (hpos : 0 < t.nnode.val) :
    Rebuilding (Tree.placeAll tab is t).tree tab.nsym.val := by
  induction is generalizing t with
  | nil => exact h
  | cons i is ih =>
    obtain ⟨hi, his⟩ := List.forall_mem_cons.1 his
    rw [Tree.placeAll]
    split
    · exact ih his h hpos
    · next hlen =>
      obtain ⟨n, hn⟩ : ∃ n, tab.slots[i].len.val = n + 1 := Nat.exists_eq_succ_of_ne_zero fun h0 => hlen (Fin.ext h0)
      have hplace := Rebuilding.place hi tab.slots[i].code n h (k := 0) hpos
      have hle := Tree.place_nnode_le i tab.slots[i].code (n + 1) 0 t
      rw [← hn] at hplace hle
      split
      · next t' hp =>
        rw [hp] at hplace hle
        exact ih his hplace (hpos.trans_le hle)
      · next t' hp => rwa [hp] at hplace
      · next t' hp => rwa [hp] at hplace

theorem exec_trRebuild_treeInv {s t : State} (h : exec .trRebuild s = .next t) : TreeInv t.tree s.table.nsym.val := by
  have hinv := (Rebuilding.placeAll s.table.valid (fun i hi => (s.table.mem_valid i).1 hi)
    (Rebuilding.placeholder s.tree s.table.nsym.val) Nat.zero_lt_one).treeInv
  obtain ⟨-, rfl⟩ | ⟨n, i, -, rfl⟩ := execTrRebuild_cases h
  · exact hinv
  · exact hinv

theorem exec_treeInv {i : Instr} {s t : State} (hs : TreeInv s.tree s.table.nsym.val) (hi : i ≠ .sreset)
    (h : exec i s = .next t) : TreeInv t.tree t.table.nsym.val := by
  obtain ⟨hle, -, -⟩ := slotsAreNeverFreed i s t hi h
  rcases (exec_kept hi h).tree with hsame | rfl | rfl
  · exact hsame ▸ hs.mono hle
  · exact (exec_tbBuild_treeInv h).mono hle
  · exact (exec_trRebuild_treeInv h).mono hle

/-! ## The encoder and the decoder (R29, R30) -/

theorem encoderInv_zero (act : Bool) (units : Word) : EncoderInv ⟨act, 0, 0, units⟩ := ⟨Nat.zero_le _, Nat.one_pos⟩

theorem exec_encoderInv {i : Instr} {s t : State} (htab : TableInv s.table) (hs : EncoderInv s.enc) (hi : i ≠ .sreset)
    (h : exec i s = .next t) : EncoderInv t.enc := by
  rcases (exec_kept hi h).enc with hsame | rfl | rfl | rfl
  · exact hsame ▸ hs
  · cases h
    exact encoderInv_zero true 0
  · obtain ⟨-, rfl⟩ | ⟨-, -, rfl⟩ | ⟨-, -, -, rfl⟩ | ⟨-, -, x, hx, rfl⟩ := execEnSym_cases h
    · exact hs
    · exact hs
    · exact hs
    · exact (Encoder.drain_append_sends hs (htab.codeOf_fits hx) rfl).2
  · obtain ⟨-, rfl⟩ | ⟨-, -, rfl⟩ | ⟨-, -, rfl⟩ := execEnFlush_cases h
    · exact hs
    · exact encoderInv_zero false _
    · exact encoderInv_zero false _

/-- The walk over a unit's bits stays at allocated nodes. -/
theorem decBits_cur_lt {tab : SymTable} {t : Tree} {nsym : Nat} (ht : TreeInv t nsym) {r : Fin 1024}
    (hr : t.root = .node r) (u : StorageUnit) (js : List Nat) {d : Decoder} (hd : d.cur.val < t.nnode.val) :
    (decBits tab t r u js d).dec.cur.val < t.nnode.val := by
  induction js generalizing d with
  | nil => exact hd
  | cons j js ih =>
    have hroot := ht.root
    rw [hr] at hroot
    have hchild := ht.child d.cur (u.getLsbD j) hd
    rw [decBits]
    split
    · exact hd
    · exact ih (d := { d with syms := d.syms + 1, cur := r }) hroot
    · next k hk =>
      rw [hk] at hchild
      exact ih (d := { d with cur := k }) hchild

theorem exec_decoderInv_of_writesDecoder {i : Instr} {s t : State} (ht : TreeInv s.tree s.table.nsym.val)
    (hs : DecoderInv s.dec s.tree) (hi : WritesDecoder i) (h : exec i s = .next t) : DecoderInv t.dec s.tree := by
  have hbits (r : Fin 1024) (u : StorageUnit) (js : List Nat) (hr : s.tree.root = .node r) (ha : s.dec.act = true) :
      DecoderInv (decBits s.table s.tree r u js s.dec).dec s.tree := fun _ =>
    ⟨⟨r, hr⟩, decBits_cur_lt ht hr u js (hs ha).2⟩
  obtain rfl | ⟨u, rfl⟩ | ⟨u, k, rfl⟩ := hi
  · obtain ⟨r, hr, rfl⟩ | ⟨-, rfl⟩ := execDeStart_cases h
    · have hroot := ht.root
      rw [hr] at hroot
      exact fun _ => ⟨⟨r, hr⟩, hroot⟩
    · exact hs
  · obtain ⟨-, rfl⟩ | ⟨ha, r, hr, ⟨-, rfl⟩ | ⟨j, -, rfl⟩⟩ := execDeUnit_cases h
    · exact hs
    · exact hbits r u _ hr ha
    · exact hbits r u _ hr ha
  · obtain ⟨-, rfl⟩ | ⟨ha, r, e, hr, rfl, ⟨j, -, rfl⟩ | ⟨-, -, rfl⟩ | ⟨-, -, rfl⟩⟩ := execDeLast_cases h
    · exact hs
    · exact hbits r u _ hr ha
    · exact nofun
    · exact hbits r u _ hr ha

/-- The commands that rebuild the tree close the session. -/
theorem exec_dec_act_of_writesTree {i : Instr} {s t : State} (hi : WritesTree i) (h : exec i s = .next t) :
    t.dec.act = false := by
  rw [(treeCommandsFrame i s t hi h).1]

theorem exec_decoderInv {i : Instr} {s t : State} (ht : TreeInv s.tree s.table.nsym.val) (hs : DecoderInv s.dec s.tree)
    (hi : i ≠ .sreset) (h : exec i s = .next t) : DecoderInv t.dec t.tree := by
  have hkept := exec_kept hi h
  rcases hkept.tree with htree | hw
  · rw [htree]
    rcases hkept.dec with hsame | hw | hw
    · exact hsame ▸ hs
    · exact fun ha => absurd (exec_dec_act_of_writesTree hw h) (by simp [ha])
    · exact exec_decoderInv_of_writesDecoder ht hs hw h
  · exact fun ha => absurd (exec_dec_act_of_writesTree hw h) (by simp [ha])

/-! ## The error state and the queues (R21, R32) -/

/-- A command records one error or none. -/
theorem exec_error {i : Instr} {s t : State} (hi : i ≠ .sreset) (h : exec i s = .next t) :
    t.error = s.error ∨ ∃ w n info, t.error = s.error.record w n info := by
  have recorded {w : Word} {n : ErrorName} {info : Word} : ∃ w' n' info', s.error.record w n info = s.error.record w' n' info' :=
    ⟨w, n, info, rfl⟩
  cases i with
  | sreset => exact absurd rfl hi
  | nop | tbBuild | enStart => cases h; exact .inl rfl
  | fcCount =>
    obtain ⟨-, rfl⟩ | ⟨-, -, rfl⟩ | ⟨-, -, -, rfl⟩ | ⟨-, -, _, _, -, rfl⟩ := execFcCount_cases h
    · exact .inr recorded
    · exact .inr recorded
    · exact .inr recorded
    · exact .inl rfl
  | fcRead slot =>
    obtain ⟨_, -, -, rfl⟩ | ⟨-, rfl⟩ := execFcRead_cases h
    · exact .inl rfl
    · exact .inr recorded
  | trRead node =>
    obtain ⟨_, -, -, rfl⟩ | ⟨-, rfl⟩ := execTrRead_cases h
    · exact .inl rfl
    · exact .inr recorded
  | ctDerive =>
    obtain ⟨_, -, rfl⟩ | ⟨_, _, -, rfl⟩ := execCtDerive_cases h
    · exact .inl rfl
    · exact .inr recorded
  | ctRead slot =>
    obtain ⟨_, -, -, rfl⟩ | ⟨-, rfl⟩ := execCtRead_cases h
    · exact .inl rfl
    · exact .inr recorded
  | ctLoad len =>
    obtain ⟨-, rfl⟩ | ⟨-, -, rfl⟩ | ⟨-, -, -, rfl⟩ | ⟨-, _, _, _, -, rfl⟩ := execCtLoad_cases h
    · exact .inr recorded
    · exact .inr recorded
    · exact .inr recorded
    · exact .inl rfl
  | trRebuild =>
    obtain ⟨-, rfl⟩ | ⟨_, _, -, rfl⟩ := execTrRebuild_cases h
    · exact .inl rfl
    · exact .inr recorded
  | enSym =>
    obtain ⟨-, rfl⟩ | ⟨-, -, rfl⟩ | ⟨-, -, -, rfl⟩ | ⟨-, -, _, -, rfl⟩ := execEnSym_cases h
    · exact .inr recorded
    · exact .inr recorded
    · exact .inr recorded
    · exact .inl rfl
  | enFlush =>
    obtain ⟨-, rfl⟩ | ⟨-, -, rfl⟩ | ⟨-, -, rfl⟩ := execEnFlush_cases h
    · exact .inr recorded
    · exact .inl rfl
    · exact .inl rfl
  | deStart =>
    obtain ⟨_, -, rfl⟩ | ⟨-, rfl⟩ := execDeStart_cases h
    · exact .inl rfl
    · exact .inr recorded
  | deUnit u =>
    obtain ⟨-, rfl⟩ | ⟨-, _, -, ⟨-, rfl⟩ | ⟨_, -, rfl⟩⟩ := execDeUnit_cases h
    · exact .inr recorded
    · exact .inl rfl
    · exact .inr recorded
  | deLast u skip =>
    obtain ⟨-, rfl⟩ | ⟨-, _, _, -, -, ⟨_, -, rfl⟩ | ⟨-, -, rfl⟩ | ⟨-, -, rfl⟩⟩ := execDeLast_cases h
    · exact .inr recorded
    · exact .inr recorded
    · exact .inl rfl
    · exact .inr recorded

theorem exec_errorInv {i : Instr} {s t : State} (hs : ErrorInv s.error) (hi : i ≠ .sreset) (h : exec i s = .next t) :
    ErrorInv t.error := by
  rcases exec_error hi h with hsame | ⟨w, n, info, hrec⟩
  · exact hsame ▸ hs
  · exact hrec ▸ hs.record w n info

theorem QueueInv.append {fifo pend ws : List Word} (h : QueueInv fifo pend) (hws : ∀ w ∈ ws, OutputWord w) :
    QueueInv fifo (pend ++ ws) where
  depth := h.depth
  format := by
    rw [← List.append_assoc]
    exact List.forall_mem_append.2 ⟨h.format, hws⟩

theorem QueueInv.take {fifo pend : List Word} (h : QueueInv fifo pend) (n : Nat) : QueueInv fifo (pend.take n) where
  depth := h.depth
  format := by
    obtain ⟨hf, hp⟩ := List.forall_mem_append.1 h.format
    exact List.forall_mem_append.2 ⟨hf, fun w hw => hp w (List.mem_of_mem_take hw)⟩

theorem QueueInv.tail {fifo pend : List Word} (h : QueueInv fifo pend) : QueueInv fifo.tail pend where
  depth := by
    have := h.depth
    rw [List.length_tail]
    omega
  format := by
    obtain ⟨hf, hp⟩ := List.forall_mem_append.1 h.format
    exact List.forall_mem_append.2 ⟨fun w hw => hf w (List.mem_of_mem_tail hw), hp⟩

theorem QueueInv.move {fifo rest : List Word} {w : Word} (h : QueueInv fifo (w :: rest)) (hroom : fifo.length < Config.outDepth) :
    QueueInv (fifo ++ [w]) rest where
  depth := by
    rw [List.length_append]
    exact hroom
  format := by
    rw [← List.append_cons]
    exact h.format

theorem exec_queueInv {i : Instr} {s t : State} (hs : QueueInv s.fifo s.pend) (hi : i ≠ .sreset) (h : exec i s = .next t) :
    QueueInv t.fifo t.pend := by
  obtain ⟨ws, hpend, hformat, -⟩ := exec_emits hi h
  rw [(exec_kept hi h).fifo, hpend]
  exact hs.append hformat

end Sys2Proof.Machine
end

section
/-! PROOFS. The statements on the invariant (spec 10_state.md R36, R37): it holds after reset, every step keeps it, and from a
state that meets it every step answers a next state. -/

namespace Sys2Proof.Machine

/-! ## After reset (R36) -/

/-- Settles O57: there is no valid slot, no allocated node, no session, no error and no word. -/
theorem resetMeetsInvariant : Obligations.ResetMeetsInvariant where
  table := ⟨fun _ _ hi => absurd hi (Nat.not_lt_zero _), fun _ hi => absurd hi (Nat.not_lt_zero _),
    fun _ hi => absurd hi (Nat.not_lt_zero _), rfl⟩
  tree := ⟨trivial, fun _ _ hk => absurd hk (Nat.not_lt_zero _), .inl fun _ _ _ hk => absurd hk (Nat.not_lt_zero _)⟩
  enc := encoderInv_zero false 0
  dec := nofun
  error := ⟨fun _ => ⟨rfl, rfl, rfl⟩, nofun⟩
  queue := ⟨Nat.zero_le _, nofun⟩
  exec := fun _ hc => ⟨.nop, Option.some.inj hc ▸ decode_encode_nop, nofun⟩
  reset := fun _ => rfl

namespace Inv

variable {s t : State}

/-! ## What the host's accesses and the CORE's steps do to it -/

/-- The invariant says nothing of the surroundings. -/
theorem setEnv (h : Inv s) (e : Env) : Inv { s with env := e } :=
  { h with
    reset := fun hr => by
      have hs := h.reset hr
      calc { s with env := e } = { ({ State.reset with args := s.args, env := s.env } : State) with env := e } := by rw [← hs]
        _ = { State.reset with args := s.args, env := e } := rfl }

theorem setArgs (h : Inv s) (a : Args) : Inv { s with args := a } :=
  { h with
    reset := fun hr => by
      have hs := h.reset hr
      calc { s with args := a } = { ({ State.reset with args := s.args, env := s.env } : State) with args := a } := by rw [← hs]
        _ = { State.reset with args := a, env := s.env } := rfl }

/-- Where no reset is under way any change is free of the reset's part. -/
theorem resetInv_of_not_resetting (h : s.resetting = false) : ResetInv s := fun hr => by
  rw [h] at hr
  cases hr

theorem resetCore (s : State) : Inv s.resetCore := (show Inv State.reset from resetMeetsInvariant).setEnv s.env

theorem dropExec (h : Inv s) : Inv { s with exec := none } :=
  { h with
    exec := nofun
    reset := resetInv_of_not_resetting rfl }

/-- A performed command (20_memory.md R48). -/
theorem perform (h : Inv s) {i : Instr} (hi : i ≠ .sreset) (hexec : Machine.exec i s = .next t) :
    Inv { t with exec := none } where
  table := exec_tableInv (t := t) h.table hi hexec
  tree := exec_treeInv (t := t) h.tree hi hexec
  enc := exec_encoderInv (t := t) h.table h.enc hi hexec
  dec := exec_decoderInv (t := t) h.tree h.dec hi hexec
  error := exec_errorInv (t := t) h.error hi hexec
  queue := exec_queueInv (t := t) h.queue hi hexec
  exec := nofun
  reset := resetInv_of_not_resetting rfl

theorem executeStep (h : Inv s) (hstep : Machine.executeStep s = .next t) : Inv t := by
  obtain ⟨-, rfl⟩ | ⟨-, -, rfl⟩ | ⟨c, i, u, hc, -, hd, hu, rfl⟩ := executeStep_cases hstep
  · exact h
  · exact h.dropExec
  · obtain ⟨j, hj, hne⟩ := h.exec c hc
    obtain rfl : j = i := Except.ok.inj (hj.symm.trans hd)
    exact h.perform hne hu

/-- While a reset is under way no word waits. -/
theorem not_resetting_of_pend (h : Inv s) (hp : s.pend ≠ []) : s.resetting = false := by
  cases hr : s.resetting with
  | false => rfl
  | true => exact absurd (congrArg State.pend (h.reset hr)) hp

theorem not_resetting_of_fifo (h : Inv s) (hf : s.fifo ≠ []) : s.resetting = false := by
  cases hr : s.resetting with
  | false => rfl
  | true => exact absurd (congrArg State.fifo (h.reset hr)) hf

theorem moveStep (h : Inv s) : Inv (moveStep s) := by
  obtain hm | ⟨w, rest, hp, hroom, hm⟩ := moveStep_cases s
  · rw [hm]
    exact h
  · rw [hm]
    have hq := h.queue
    rw [hp] at hq
    have hnr : s.resetting = false := h.not_resetting_of_pend (by rw [hp]; exact List.cons_ne_nil _ _)
    exact { h with
      queue := hq.move hroom
      reset := resetInv_of_not_resetting hnr }

/-- A read of OUT_DATA. -/
theorem popFifo (h : Inv s) : Inv { s with fifo := s.fifo.tail } := by
  by_cases hf : s.fifo = []
  · have hsame : { s with fifo := s.fifo.tail } = s := by rw [hf, List.tail_nil, ← hf]
    rw [hsame]
    exact h
  · exact { h with
      queue := h.queue.tail
      reset := resetInv_of_not_resetting (h.not_resetting_of_fifo hf) }

theorem hostRead (h : Inv s) (off : Fin 128) (width : Width) : Inv (s.hostRead off width).2 := by
  unfold State.hostRead
  split
  · unfold State.readReg
    split
    · exact h.popFifo
    · split
      · exact h.setEnv _
      · exact h
    · split
      · exact h.setEnv _
      · exact h
  · exact h

/-- What a command would add to PEND is a list of output words (60_exceptions.md R94). -/
theorem outputsOwed_format (h : Inv s) : ∀ w ∈ outputsOwed s, OutputWord w := by
  cases hc : s.exec with
  | none =>
    rw [outputsOwed_of_exec_none hc]
    exact nofun
  | some c =>
    obtain ⟨i, hd, hi⟩ := h.exec c hc
    cases hu : Machine.exec i s with
    | next u =>
      obtain ⟨ws, hpend, hformat, -⟩ := exec_emits hi hu
      rw [outputsOwed_of_next hc hd hu, hpend, List.drop_left]
      exact hformat
    | fault f => simp [outputsOwed, hc, hd, hu]
    | refused r => simp [outputsOwed, hc, hd, hu]

theorem abortBusy (h : Inv s) (w : Word) : Inv (s.abortBusy w) :=
  { h with
    error := h.error.record w .cmdBusy 0
    queue := (h.queue.append h.outputsOwed_format).take _
    exec := nofun
    reset := resetInv_of_not_resetting rfl }

theorem accept (h : Inv s) {w : Word} (ha : accept w s = .next t) : Inv t := by
  obtain ⟨-, rfl⟩ | ⟨-, -, rfl⟩ | ⟨-, -, -, rfl⟩ | ⟨-, -, hb, -, rfl⟩ | ⟨hw, -, -, ⟨i, hd⟩, rfl⟩ := accept_cases ha
  · exact Inv.resetCore s
  · exact h
  · exact h.abortBusy w
  · have hnr : s.resetting = false := by
      rw [State.resetting, State.exec_eq_none_of_not_busy hb]
      rfl
    exact { h with
      error := h.error.record w .illegalCmd 0
      reset := resetInv_of_not_resetting hnr }
  · have hi : i ≠ .sreset := by
      rintro rfl
      exact hw (encodeOfDecode w _ hd).2.symm
    exact { h with
      exec := fun _ hc => ⟨i, Option.some.inj hc ▸ hd, hi⟩
      reset := resetInv_of_not_resetting rfl }

theorem hostStep (h : Inv s) {op : HostOp} (hstep : hostStep op s = .next t) : Inv t := by
  cases op with
  | read off width =>
    cases hstep
    exact (h.hostRead off width).setEnv _
  | write off width v =>
    obtain rfl | ⟨a, rfl⟩ | ⟨-, ha⟩ := hostWrite_cases hstep
    · exact h
    · exact h.setArgs a
    · exact h.accept ha
  | poll =>
    cases hstep
    exact (h.hostRead Reg.status.offset .word).setEnv _
  | readRows =>
    cases hstep
    exact (h.hostRead Reg.nsym.offset .word).setEnv _

theorem hostTurn (h : Inv s) (hstep : hostTurn s = .next t) : Inv t := by
  unfold Machine.hostTurn at hstep
  split at hstep
  · cases hstep
    exact h
  · exact (h.setEnv _).hostStep hstep

theorem nextTurn (h : Inv s) : Inv s.nextTurn.2 := by
  obtain ⟨ts, hts⟩ := s.nextTurn_state
  rw [hts]
  exact h.setEnv _

end Inv

/-- Settles O58: whoever's turn it is. -/
theorem stepKeepsInvariant : Obligations.StepKeepsInvariant := by
  intro s t h hstep
  obtain ⟨-, hs⟩ | ⟨-, hs⟩ | ⟨-, rfl⟩ | ⟨-, rfl⟩ := step_cases hstep
  · exact h.nextTurn.hostTurn hs
  · exact h.nextTurn.executeStep hs
  · exact h.nextTurn.moveStep
  · exact Inv.resetCore _

/-! ## Every step answers a next state -/

/-- A tree without cycles: the walk ends, at its end or at a leaf too deep. -/
theorem exec_ctDerive_next {s : State} (h : TreeInv s.tree s.table.nsym.val) : ∃ t, exec .ctDerive s = .next t := by
  obtain ⟨tab, hdone, -⟩ | ⟨i, tab, q, htoo, -⟩ := Tree.walk_root_cases (h.walk_ne_endless 0 0 s.table.clearCodes)
  · exact ⟨_, exec_ctDerive_of_done hdone⟩
  · exact ⟨_, exec_ctDerive_of_tooLong htoo⟩

theorem exec_deUnit_next {s : State} (h : DecoderInv s.dec s.tree) (u : StorageUnit) : ∃ t, exec (.deUnit u) s = .next t := by
  cases ha : s.dec.act with
  | false => exact ⟨_, exec_deUnit_of_no_session u ha⟩
  | true =>
    obtain ⟨⟨r, hr⟩, -⟩ := h ha
    cases hb : (decBits s.table s.tree r u (unitBits 16) s.dec).bad with
    | none => exact ⟨_, exec_deUnit_of_good ha hr rfl hb⟩
    | some j => exact ⟨_, exec_deUnit_of_bad ha hr rfl hb⟩

theorem exec_deLast_next {s : State} (h : DecoderInv s.dec s.tree) (u : StorageUnit) (skip : Nat) :
    ∃ t, exec (.deLast u skip) s = .next t := by
  cases ha : s.dec.act with
  | false => exact ⟨_, exec_deLast_of_no_session u skip ha⟩
  | true =>
    obtain ⟨⟨r, hr⟩, -⟩ := h ha
    cases hb : (decBits s.table s.tree r u (unitBits (16 - skip)) s.dec).bad with
    | some j => exact ⟨_, exec_deLast_of_bad ha hr rfl hb⟩
    | none =>
      by_cases hc : (decBits s.table s.tree r u (unitBits (16 - skip)) s.dec).dec.cur = r
      · exact ⟨_, exec_deLast_of_root ha hr rfl hb hc⟩
      · exact ⟨_, exec_deLast_of_other_node ha hr rfl hb hc⟩

theorem exec_fcCount_next (s : State) : ∃ t, exec .fcCount s = .next t := by
  by_cases hy : LegalSymbol s.symbolArg
  · by_cases ht : s.table.total = 0xFFFFFFFF#32
    · exact ⟨_, exec_fcCount_of_total_max hy ht⟩
    · cases hs : s.table.slotFor s.symbolArg with
      | none => exact ⟨_, exec_fcCount_of_full hy ht hs⟩
      | some p => exact ⟨_, exec_fcCount_of_slot hy ht hs⟩
  · exact ⟨_, exec_fcCount_of_illegal hy⟩

theorem exec_ctLoad_next (s : State) (len : Nat) : ∃ t, exec (.ctLoad len) s = .next t := by
  by_cases hy : LegalSymbol s.symbolArg
  · by_cases hl : LegalLength len
    · cases hs : s.table.slotFor s.symbolArg with
      | none => exact ⟨_, exec_ctLoad_of_full hy hl hs⟩
      | some p => exact ⟨_, exec_ctLoad_of_slot (len := ⟨len, Nat.lt_succ_of_le hl.2⟩) hy hl hs⟩
    · exact ⟨_, exec_ctLoad_of_bad_length hy hl⟩
  · exact ⟨_, exec_ctLoad_of_illegal hy⟩

theorem exec_enSym_next (s : State) : ∃ t, exec .enSym s = .next t := by
  cases ha : s.enc.act with
  | false => exact ⟨_, exec_enSym_of_no_session ha⟩
  | true =>
    by_cases hy : LegalSymbol s.symbolArg
    · cases hc : s.table.codeOf s.symbolArg with
      | none => exact ⟨_, exec_enSym_of_no_code ha hy hc⟩
      | some x => exact ⟨_, exec_enSym_of_code ha hy hc⟩
    · exact ⟨_, exec_enSym_of_illegal ha hy⟩

theorem exec_enFlush_next (s : State) : ∃ t, exec .enFlush s = .next t := by
  cases ha : s.enc.act with
  | false => exact ⟨_, exec_enFlush_of_no_session ha⟩
  | true =>
    rcases Nat.eq_zero_or_pos s.enc.held.toNat with hh | hh
    · exact ⟨_, exec_enFlush_of_none_held ha (BitVec.eq_of_toNat_eq hh)⟩
    · exact ⟨_, exec_enFlush_of_held ha hh⟩

theorem exec_trRebuild_next (s : State) : ∃ t, exec .trRebuild s = .next t := by
  rcases exec_trRebuild_spec s with ⟨T, hexec, -⟩ | ⟨T, _, _, _, i, n, -, -, -, hexec⟩
  · exact ⟨_, hexec⟩
  · exact ⟨_, hexec⟩

theorem exec_deStart_next (s : State) : ∃ t, exec .deStart s = .next t := by
  by_cases hr : ∃ r, s.tree.root = .node r
  · obtain ⟨r, hr⟩ := hr
    exact ⟨_, exec_deStart_of_node hr⟩
  · exact ⟨_, exec_deStart_of_no_node fun r h => hr ⟨r, h⟩⟩

/-- No command stops in a state that meets the invariant. -/
theorem exec_next {s : State} (h : Inv s) (i : Instr) : ∃ t, exec i s = .next t := by
  cases i with
  | nop => exact ⟨_, exec_nop s⟩
  | sreset => exact ⟨s.resetCore, rfl⟩
  | fcCount => exact exec_fcCount_next s
  | fcRead n =>
    by_cases hn : n < s.table.nsym.val
    · exact ⟨_, exec_fcRead_of_lt (i := ⟨n, by omega⟩) hn⟩
    · exact ⟨_, exec_fcRead_of_ge (Nat.not_lt.1 hn)⟩
  | tbBuild => exact ⟨_, rfl⟩
  | trRead n =>
    by_cases hn : n < s.tree.nnode.val
    · exact ⟨_, exec_trRead_of_lt (k := ⟨n, by omega⟩) hn⟩
    · exact ⟨_, exec_trRead_of_ge (Nat.not_lt.1 hn)⟩
  | ctDerive => exact exec_ctDerive_next h.tree
  | ctRead n =>
    by_cases hn : n < s.table.nsym.val
    · exact ⟨_, exec_ctRead_of_lt (i := ⟨n, by omega⟩) hn⟩
    · exact ⟨_, exec_ctRead_of_ge (Nat.not_lt.1 hn)⟩
  | ctLoad len => exact exec_ctLoad_next s len
  | trRebuild => exact exec_trRebuild_next s
  | enStart => exact ⟨_, exec_enStart s⟩
  | enSym => exact exec_enSym_next s
  | enFlush => exact exec_enFlush_next s
  | deStart => exact exec_deStart_next s
  | deUnit u => exact exec_deUnit_next h.dec u
  | deLast u k => exact exec_deLast_next h.dec u k

theorem executeStep_next {s : State} (h : Inv s) : ∃ t, executeStep s = .next t := by
  cases hc : s.exec with
  | none => exact ⟨s, executeStep_of_exec_none hc⟩
  | some c =>
    cases he : s.error.err with
    | true => exact ⟨_, executeStep_of_error hc he⟩
    | false =>
      obtain ⟨i, hd, -⟩ := h.exec c hc
      obtain ⟨t, ht⟩ := exec_next h i
      exact ⟨_, (executeStep_of_decode hc he hd).trans (perform_of_next ht)⟩

/-- The acceptance logic never stops (20_memory.md R49). -/
theorem accept_next (w : Word) (s : State) : ∃ t, accept w s = .next t := by
  by_cases hw : w = 0x00000001#32
  · exact ⟨s.resetCore, hw ▸ accept_sreset s⟩
  · cases he : s.error.err with
    | true => exact ⟨s, accept_of_error hw he⟩
    | false =>
      cases hb : s.busy with
      | true => exact ⟨_, accept_of_busy hw he hb⟩
      | false =>
        cases hd : decode w with
        | error e => exact ⟨_, accept_of_illegal hw he hb hd⟩
        | ok i => exact ⟨_, accept_of_decode hw he hb hd⟩

theorem hostWrite_next (off : Fin 128) (width : Width) (v : Word) (s : State) : ∃ t, hostWrite off width v s = .next t := by
  cases hr : accessedReg off width with
  | none => exact ⟨s, hostWrite_of_accessedReg_none hr v s⟩
  | some r =>
    have hw : hostWrite off width v s = writeReg r v s := by rw [hostWrite, hr]
    rw [hw]
    cases r with
    | cmd => exact accept_next v s
    | _ => exact ⟨_, rfl⟩

theorem hostTurn_next (s : State) : ∃ t, hostTurn s = .next t := by
  unfold hostTurn
  split
  · exact ⟨_, rfl⟩
  · next op rest _ =>
    cases op with
    | write off width v => exact hostWrite_next off width v _
    | _ => exact ⟨_, rfl⟩

/-- Settles O59: of the agents only the CORE's execute step could stop, and the invariant rules its stops out. -/
theorem stepNeverStops : Obligations.StepNeverStops := by
  intro s h
  rw [step]
  cases s.nextTurn.1 with
  | host => exact hostTurn_next _
  | execute => exact executeStep_next h.nextTurn
  | move => exact ⟨_, rfl⟩
  | hardReset => exact ⟨_, rfl⟩

end Sys2Proof.Machine
end

section
/-! PROOFS. The statement on POLL (spec 30_encoding.md R60; 70_reset_and_hazards.md R109, R113), with the laws it needs: what a
STATUS read tells the host, a step of the default order, and what every step of a polling run keeps. -/

namespace Sys2Proof.Machine

/-! ## What the host takes from its reads (R60) -/

theorem OutputWord.getLsbD_31 {w : Word} (h : OutputWord w) : w.getLsbD 31 = true := by
  obtain ⟨u, rfl⟩ | ⟨y, rfl⟩ := h
  · simp only [unitWord, BitVec.getLsbD_append]
    simp
  · simp only [symbolWord, BitVec.getLsbD_append]
    simp

/-- A popped word joins OUTLIST. -/
theorem outWords_append_pop {rs : List Reply} {w : Word} (h : OutputWord w) :
    HostProgram.outWords (rs ++ [⟨Reg.outData.offset, w⟩]) = HostProgram.outWords rs ++ [w] := by
  simp [HostProgram.outWords, HostProgram.valuesOf, h.getLsbD_31]

theorem outWords_append_status (rs : List Reply) (v : Word) :
    HostProgram.outWords (rs ++ [⟨Reg.status.offset, v⟩]) = HostProgram.outWords rs := by
  have hne : (Reg.status.offset == Reg.outData.offset) = false := by decide
  simp [HostProgram.outWords, HostProgram.valuesOf, hne]

/-- The bits of STATUS that are never drawn tell the words in the FIFO and whether the block is busy. -/
theorem pollTail_of_status {s : State} {v : Word} (hv : v &&& 0xFFFFFF03#32 = s.statusWord &&& 0xFFFFFF03#32)
    (hdepth : s.fifo.length ≤ 16) :
    pollTail v = List.replicate s.fifo.length (.rd .outData) ++ if s.busy then [.poll] else [] := by
  have field {start len : Nat} (hm : (0xFFFFFF03#32).extractLsb' start len = BitVec.allOnes len) :
      v.extractLsb' start len = s.statusWord.extractLsb' start len := by
    have := congrArg (BitVec.extractLsb' start len) hv
    rwa [BitVec.extractLsb'_and, BitVec.extractLsb'_and, hm, BitVec.and_allOnes, BitVec.and_allOnes] at this
  have hcount : (v.extractLsb' 16 5).toNat = s.fifo.length := by
    rw [field (by decide), s.statusWord_outCount, State.outCount_toNat hdepth]
  have hbusy : v.getLsbD 0 = s.busy := by
    rw [← s.statusWord_busy]
    simpa using congrArg (·.getLsbD 0) (field (start := 0) (len := 1) (by decide))
  rw [pollTail, hcount, hbusy]

/-! ## Steps of the default order (log entry 1) -/

theorem run_succ {M : Host.Core} {s s' t : M.State} {n : Nat} (h : M.step s = .next s') (hn : M.run n s' = .next t) :
    M.run (n + 1) s = .next t := by
  rw [Host.Core.run, h]
  exact hn

section
variable {s : State} (hturns : s.env.turns = [])
include hturns

theorem step_of_exec {c : Command} (hc : s.exec = some c) : step s = executeStep s := by
  have hturn : s.nextTurn = (.execute, s) := by simp [State.nextTurn_nil hturns, State.defaultTurn, hc]
  exact step_of_nextTurn hturn

theorem step_of_move (hx : s.exec = none) {w : Word} {rest : List Word} (hp : s.pend = w :: rest)
    (hroom : s.fifo.length < 16) : step s = .next { s with fifo := s.fifo ++ [w], pend := rest } := by
  have hmove : s.moveEnabled = true := by simp [State.moveEnabled, hp, Config.outDepth, hroom]
  have hturn : s.nextTurn = (.move, s) := by simp [State.nextTurn_nil hturns, State.defaultTurn, hx, hmove]
  rw [step_of_nextTurn hturn]
  exact congrArg Host.Outcome.next (moveStep_of_room hp hroom)

theorem step_of_host (hx : s.exec = none) (hmove : s.pend = [] ∨ 16 ≤ s.fifo.length) : step s = hostTurn s := by
  have hmove : s.moveEnabled = false := by
    rcases hmove with hp | hfull
    · simp [State.moveEnabled, hp]
    · simp [State.moveEnabled, Config.outDepth, Nat.not_lt.2 hfull]
  refine step_of_nextTurn (s' := s) (t := .host) ?_
  simp [State.nextTurn_nil hturns, State.defaultTurn, hx, hmove]

end

theorem hostTurn_of_cons {s : State} {op : HostOp} {ops : List HostOp} (h : s.env.host = op :: ops) :
    hostTurn s = hostStep op { s with env := { s.env with host := ops } } := by
  rw [hostTurn, h]

/-- The host's turn at a read of OUT_DATA with a word in the FIFO. -/
theorem hostTurn_of_pop {s : State} {ops : List HostOp} {w : Word} {rest : List Word}
    (hh : s.env.host = .rd .outData :: ops) (hf : s.fifo = w :: rest) :
    hostTurn s = .next { s with
      fifo := rest
      env := { s.env with host := ops, replies := s.env.replies ++ [⟨Reg.outData.offset, w⟩] } } := by
  have hread := State.hostRead_outData_of_cons (s := { s with env := { s.env with host := ops } }) hf
  rw [hostTurn_of_cons hh, HostOp.rd, hostStep, hread]
  rfl

/-- The host's turn at POLL: it reads STATUS and goes on with what the value tells it to do. -/
theorem hostTurn_of_poll {s : State} {ops : List HostOp} (hh : s.env.host = .poll :: ops) (hdepth : s.fifo.length ≤ 16) :
    ∃ v d, hostTurn s = .next { s with env :=
      ⟨List.replicate s.fifo.length (.rd .outData) ++ (if s.busy then [.poll] else []) ++ ops, s.env.turns,
        s.env.replies ++ [⟨Reg.status.offset, v⟩], d⟩ } := by
  obtain ⟨v, d, hread, hv⟩ := State.hostRead_status { s with env := { s.env with host := ops } }
  refine ⟨v, d, ?_⟩
  rw [← pollTail_of_status (s := s) hv hdepth, hostTurn_of_cons hh, hostStep, hread]
  rfl

/-! ## A polling run -/

/-- The host is to pop `c` words, which are there, and then to poll again or to stop; it stops only when these are all. -/
structure Polling (s : State) (c : Nat) (again : Bool) : Prop where
  exec : s.exec = none
  turns : s.env.turns = []
  host : s.env.host = List.replicate c (.rd .outData) ++ if again then [.poll] else []
  pops : c ≤ s.fifo.length
  queue : QueueInv s.fifo s.pend
  last : again = false → s.pend = [] ∧ c = s.fifo.length

/-- What gets smaller with every step: a move, a pop, a STATUS read. -/
def pollMeasure (s : State) (c : Nat) (again : Bool) : Nat :=
  2 * s.fifo.length + 3 * s.pend.length + if c = 0 ∧ again then 1 else 0

namespace Polling

variable {s : State} {c : Nat} {again : Bool}

/-- All words the host has popped or will pop. -/
def words (s : State) : List Word := s.outList ++ s.fifo ++ s.pend

theorem move (h : Polling s c again) {w : Word} {rest : List Word} (hp : s.pend = w :: rest) (hroom : s.fifo.length < 16) :
    Polling { s with fifo := s.fifo ++ [w], pend := rest } c again where
  exec := h.exec
  turns := h.turns
  host := h.host
  pops := h.pops.trans (by simp)
  queue := (hp ▸ h.queue : QueueInv s.fifo (w :: rest)).move hroom
  last := fun ha => absurd (h.last ha).1 (by simp [hp])

/-- One pop. -/
theorem pop (h : Polling s (c + 1) again) :
    ∃ t, hostTurn s = .next t ∧ Polling t c again ∧ words t = words s ∧ t.fifo.length + 1 = s.fifo.length ∧
      t.pend = s.pend := by
  obtain ⟨w, rest, hf⟩ : ∃ w rest, s.fifo = w :: rest := List.exists_cons_of_length_pos (Nat.lt_of_lt_of_le c.succ_pos h.pops)
  have hw : OutputWord w := h.queue.format w (by simp [hf])
  have hpops := h.pops
  rw [hf, List.length_cons] at hpops
  refine ⟨_, hostTurn_of_pop h.host hf, ⟨h.exec, h.turns, rfl, Nat.le_of_succ_le_succ hpops, ?_, fun ha => ?_⟩, ?_, ?_, rfl⟩
  · have := h.queue.tail
    rwa [hf] at this
  · obtain ⟨hp, hc⟩ := h.last ha
    rw [hf, List.length_cons] at hc
    exact ⟨hp, Nat.succ.inj hc⟩
  · rw [words, State.outList, outWords_append_pop hw, words, hf, State.outList]
    simp
  · rw [hf]
    rfl

/-- One STATUS read. -/
theorem readStatus (h : Polling s 0 true) :
    ∃ t, hostTurn s = .next t ∧ Polling t s.fifo.length s.busy ∧ words t = words s ∧ t.fifo = s.fifo ∧ t.pend = s.pend := by
  obtain ⟨v, d, hturn⟩ := hostTurn_of_poll (ops := []) h.host h.queue.depth
  refine ⟨_, hturn, ⟨h.exec, h.turns, List.append_nil _, le_rfl, h.queue, fun hb => ⟨?_, rfl⟩⟩, ?_, rfl, rfl⟩
  · have hidle := (State.busy_iff s).not.1 (by simp [hb])
    exact not_not.1 fun hp => hidle (.inr hp)
  · rw [words, State.outList, outWords_append_status, words, State.outList]

/-- The end of a polling run. -/
structure Ended (s t : State) : Prop where
  host : t.env.host = []
  busy : t.busy = false
  fifo : t.fifo = []
  words : t.outList = words s

theorem ended (h : Polling s 0 false) : Ended s s := by
  obtain ⟨hp, hf⟩ := h.last rfl
  have hf : s.fifo = [] := List.length_eq_zero_iff.1 hf.symm
  exact ⟨h.host, by simp [State.busy, h.exec, hp], hf, by simp [Polling.words, hp, hf]⟩

/-- By induction on the measure: a move, a pop or a STATUS read comes next, and each makes it smaller. -/
theorem run_ended {n : Nat} (h : Polling s c again) (hn : pollMeasure s c again = n) :
    ∃ m t, Host.Core.run Sys2Proof.core m s = .next t ∧ Ended s t := by
  induction n using Nat.strong_induction_on generalizing s c again with
  | _ n ih =>
    have next {s' : State} {c' : Nat} {again' : Bool} (hstep : step s = .next s') (h' : Polling s' c' again')
        (hwords : Polling.words s' = Polling.words s) (hlt : pollMeasure s' c' again' < pollMeasure s c again) :
        ∃ m t, Host.Core.run Sys2Proof.core m s = .next t ∧ Ended s t := by
      obtain ⟨m, t, hrun, hend⟩ := ih _ (hn ▸ hlt) h' rfl
      exact ⟨m + 1, t, run_succ (M := Sys2Proof.core) hstep hrun, hend.host, hend.busy, hend.fifo, hend.words.trans hwords⟩
    by_cases hmove : s.pend = [] ∨ 16 ≤ s.fifo.length
    · have hstep := step_of_host h.turns h.exec hmove
      match c, again, h with
      | c + 1, again, h =>
        obtain ⟨t, hturn, ht, hwords, hfifo, hpend⟩ := h.pop
        refine next (hstep.trans hturn) ht hwords ?_
        rw [pollMeasure, pollMeasure, hpend, ← hfifo]
        split
        · simp
          omega
        · simp
      | 0, true, h =>
        obtain ⟨t, hturn, ht, hwords, hfifo, hpend⟩ := h.readStatus
        refine next (hstep.trans hturn) ht hwords ?_
        have hpops : ¬ (s.fifo.length = 0 ∧ s.busy = true) := fun ⟨hf, hb⟩ => by
          rcases (State.busy_iff s).1 hb with hx | hp
          · exact hx h.exec
          · have := hmove.resolve_left hp
            omega
        rw [pollMeasure, pollMeasure, hfifo, hpend, if_neg hpops]
        simp
      | 0, false, h => exact ⟨0, s, rfl, h.ended⟩
    · obtain ⟨hp, hroom⟩ := not_or.1 hmove
      obtain ⟨w, rest, hp⟩ := List.exists_cons_of_ne_nil hp
      have hroom : s.fifo.length < 16 := Nat.not_le.1 hroom
      refine next (step_of_move h.turns h.exec hp hroom) (h.move hp hroom) ?_ ?_
      · simp [Polling.words, State.outList, hp]
      · rw [pollMeasure, pollMeasure, hp]
        simp
        omega

end Polling

/-- The state in which the host comes to POLL and no command is latched. -/
theorem Inv.polling {s : State} (h : Inv s) (hx : s.exec = none) (hturns : s.env.turns = []) (hhost : s.env.host = [.poll]) :
    Polling s 0 true where
  exec := hx
  turns := hturns
  host := hhost
  pops := Nat.zero_le _
  queue := h.queue
  last := nofun

/-- The execute step empties EXEC and leaves the surroundings alone. -/
theorem executeStep_done {s : State} (h : Inv s) : ∃ t, executeStep s = .next t ∧ Inv t ∧ t.exec = none ∧ t.env = s.env := by
  obtain ⟨t, ht⟩ := executeStep_next h
  refine ⟨t, ht, h.executeStep ht, ?_⟩
  obtain ⟨hx, rfl⟩ | ⟨-, -, rfl⟩ | ⟨c, i, u, hc, -, hd, hu, rfl⟩ := executeStep_cases ht
  · exact ⟨hx, rfl⟩
  · exact ⟨rfl, rfl⟩
  · obtain ⟨j, hj, hne⟩ := h.exec c hc
    obtain rfl : j = i := Except.ok.inj (hj.symm.trans hd)
    exact ⟨rfl, (exec_kept hne hu).env⟩

/-- Settles O60: a latched command is performed first; then the host polls until it is done. -/
theorem pollEnds : Obligations.PollEnds := by
  intro s h hturns hhost
  cases hx : s.exec with
  | none =>
    obtain ⟨n, t, hrun, hend⟩ := (h.polling hx hturns hhost).run_ended rfl
    exact ⟨n, t, hrun, hend.host, hend.busy, hend.fifo, fun _ => hend.words⟩
  | some c =>
    obtain ⟨u, hu, hinv, hux, henv⟩ := executeStep_done h
    obtain ⟨n, t, hrun, hend⟩ := (hinv.polling hux (henv ▸ hturns) (henv ▸ hhost)).run_ended rfl
    exact ⟨n + 1, t, run_succ (M := Sys2Proof.core) ((step_of_exec hturns hx).trans hu) hrun, hend.host, hend.busy, hend.fifo, nofun⟩

end Sys2Proof.Machine
end

section
/-! PROOFS. The statement on the round trip of a text (spec 45_decoder.md R87), with the laws it needs: what a list of commands
keeps, the code table ENCODE leaves, the table DECODE loads from its rows, and a decode session over units that spell
leaves. -/

namespace Sys2Proof.Machine

/-! ## What a list of commands keeps -/

/-- The state in which an issued command is performed. -/
abbrev State.issued (c : Instr × Args) (s : State) : State :=
  { s with args := c.2, exec := some ⟨encode c.1, c.2, false⟩ }

theorem issue_eq_perform (c : Instr × Args) (s : State) : issue c s = perform c.1 (s.issued c) := rfl

/-- What each command of a list keeps, the list keeps. -/
theorem issueAll_keeps {P : State → Prop} {cs : List (Instr × Args)}
    (hP : ∀ c ∈ cs, ∀ s t, P s → issue c s = .next t → P t) {s t : State} (hs : P s) (h : issueAll cs s = .next t) : P t := by
  induction cs generalizing s with
  | nil =>
    cases h
    exact hs
  | cons c cs ih =>
    obtain ⟨u, hu, ht⟩ := issueAll_cons.1 h
    obtain ⟨hc, hcs⟩ := List.forall_mem_cons.1 hP
    exact ih hcs (hc s u hs hu) ht

/-- No error afterwards, none before. -/
theorem issueAll_clear {cs : List (Instr × Args)} (hcs : ∀ c ∈ cs, c.1 ≠ .sreset) {s t : State}
    (h : issueAll cs s = .next t) (he : t.error.err = false) : s.error.err = false := by
  refine Bool.eq_false_of_not_eq_true fun hs => ?_
  have hset : t.error.err = true := issueAll_keeps (P := fun s => s.error.err = true) (fun c hc s t hs hstep => by
    obtain ⟨u, hu, rfl⟩ := perform_cases hstep
    rcases exec_error (hcs c hc) hu with hsame | ⟨w, n, info, hrec⟩
    · exact (congrArg ErrorState.err hsame).trans hs
    · exact (congrArg ErrorState.err hrec).trans (ErrorState.record_err _ _ _ _)) hs h
  rw [he] at hset
  cases hset

theorem issueAll_tableInv {cs : List (Instr × Args)} (hcs : ∀ c ∈ cs, c.1 ≠ .sreset) {s t : State}
    (hs : TableInv s.table) (h : issueAll cs s = .next t) : TableInv t.table :=
  issueAll_keeps (P := fun s => TableInv s.table) (fun c hc s _ hs hstep => by
    obtain ⟨u, hu, rfl⟩ := perform_cases hstep
    exact exec_tableInv (t := u) (s := s.issued c) hs (hcs c hc) hu) hs h

/-- Commands that emit nothing leave PEND alone. -/
theorem issueAll_pend {cs : List (Instr × Args)} (hcs : ∀ c ∈ cs, c.1 ≠ .sreset ∧ emitBound c.1 = 0) {s t : State}
    (h : issueAll cs s = .next t) : t.pend = s.pend :=
  issueAll_keeps (P := fun u => u.pend = s.pend) (fun c hc u _ hu hstep => by
    obtain ⟨hi, hbound⟩ := hcs c hc
    obtain ⟨v, hv, rfl⟩ := perform_cases hstep
    obtain ⟨ws, hpend, -, hlen⟩ := exec_emits hi hv
    have hnil : ws = [] := List.length_eq_zero_iff.1 <| Nat.le_zero.1 <| hbound ▸ hlen fun he => by
      rw [he] at hbound
      cases hbound
    rw [hnil, List.append_nil] at hpend
    exact hpend.trans hu) rfl h

theorem issueAll_table {cs : List (Instr × Args)} (hcs : ∀ c ∈ cs, c.1 ≠ .sreset ∧ ¬ WritesTable c.1) {s t : State}
    (h : issueAll cs s = .next t) : t.table = s.table :=
  issueAll_keeps (P := fun u => u.table = s.table) (fun c hc u _ hu hstep => by
    obtain ⟨hi, hw⟩ := hcs c hc
    obtain ⟨v, hv, rfl⟩ := perform_cases hstep
    exact ((exec_kept hi hv).table.resolve_right hw).trans hu) rfl h

/-! ## The code table that ENCODE leaves (43_code_table.md R74) -/

/-- A table whose valid slots all have codes, no two of which collide, and whose tree has room. -/
structure SymTable.Loadable (tab : SymTable) : Prop where
  coded : ∀ i : Fin 256, i.val < tab.nsym.val → tab.slots[i].len ≠ 0
  prefixFree : tab.PrefixFree
  room : (tab.innerPaths tab.valid).card ≤ 1024

/-- Codes of one bit need the root alone. -/
theorem SymTable.card_innerPaths_of_len_le_one {tab : SymTable} {is : List (Fin 256)}
    (h : ∀ i ∈ is, tab.slots[i].len.val ≤ 1) : (tab.innerPaths is).card ≤ 1024 := by
  have hzero : (is.map fun i => tab.slots[i].len.val - 1).sum = 0 := by
    rw [List.sum_eq_zero_iff]
    intro n hn
    obtain ⟨i, hi, rfl⟩ := List.mem_map.1 hn
    exact Nat.sub_eq_zero_of_le (h i hi)
  have := tab.card_innerPaths_le is
  omega

theorem exec_tbBuild_ctDerive_loadable {s t u : State} (ht : exec .tbBuild s = .next t) (hu : exec .ctDerive t = .next u)
    (he : u.error.err = false) : u.table.Loadable := by
  have htable : t.table = s.table := by
    cases ht
    rfl
  have hrec := exec_ctDerive_recodes hu
  rw [htable] at hrec
  have hnsym := congrArg Fin.val hrec.nsym
  obtain h0 | h1 | htwo : s.table.nsym.val = 0 ∨ s.table.nsym.val = 1 ∨ 2 ≤ s.table.nsym.val := by omega
  · have hnone : ∀ i : Fin 256, ¬ i.val < u.table.nsym.val := by omega
    refine ⟨fun i hi => absurd hi (hnone i), fun i _ hi => absurd hi.1 (hnone i), ?_⟩
    exact SymTable.card_innerPaths_of_len_le_one fun i hi => absurd ((u.table.mem_valid i).1 hi) (hnone i)
  · obtain ⟨-, hlen, hpf⟩ := builtCodesArePrefixFreeAndComplete.1 s t u h1 ht hu
    have hone : ∀ i : Fin 256, i.val < u.table.nsym.val → u.table.slots[i].len = 1 := fun i hi => by
      obtain rfl : i = 0 := Fin.ext (by omega)
      exact hlen
    refine ⟨fun i hi => by rw [hone i hi]; decide, hpf, SymTable.card_innerPaths_of_len_le_one fun i hi => ?_⟩
    rw [hone i ((u.table.mem_valid i).1 hi)]
    exact le_rfl
  · obtain ⟨rows, h⟩ := exec_tbBuild_ctDerive_recordsTree htwo ht hu he
    have := h.card_innerPaths
    exact ⟨fun i hi h0 => by have := (h.code hi).1; rw [h0] at this; exact absurd this (by decide), h.prefixFree, by omega⟩

/-- The same for the commands issued: a walk depends on the tree and the table alone. -/
theorem issueAll_tbBuild_ctDerive_loadable {s t : State} (h : issueAll [plain .tbBuild, plain .ctDerive] s = .next t)
    (he : t.error.err = false) : t.table.Loadable := by
  obtain ⟨u, hu, ht⟩ := issueAll_cons.1 h
  rw [issueAll_singleton] at ht
  obtain ⟨v, hv, rfl⟩ := perform_cases hu
  obtain ⟨w, hw, rfl⟩ := perform_cases ht
  cases hv
  obtain ⟨tab, hdone, rfl⟩ | ⟨i, tab, -, rfl⟩ := execCtDerive_cases hw
  · have hd := exec_ctDerive_of_done (s := { s with tree := s.tree.build s.table, dec := { s.dec with act := false } }) hdone
    have hload := exec_tbBuild_ctDerive_loadable (s := s) rfl hd he
    exact hload
  · simp at he

/-! ## The table DECODE loads (30_encoding.md R60) -/

/-- `tab'` holds the first `n` rows of `tab`, their counts 0. -/
structure SymTable.HoldsRows (tab' tab : SymTable) (n : Nat) : Prop where
  nsym : tab'.nsym.val = n
  slot : ∀ i : Fin 256, i.val < n → tab'.slots[i] = ⟨tab.slots[i].sym, 0, tab.slots[i].code, tab.slots[i].len⟩

/-- `t` differs from `s` at most in the operand registers, the table and EXEC. -/
structure SameButTable (s t : State) : Prop where
  tree : t.tree = s.tree
  pend : t.pend = s.pend
  error : t.error = s.error

theorem lowBits_of_lt {p : BitVec 64} {n : Nat} (h : p.toNat < 2 ^ n) : lowBits p n = p := by
  rw [lowBits, Nat.mod_eq_of_lt h, BitVec.ofNat_toNat, BitVec.setWidth_eq]

theorem halves_append (p : BitVec 64) : p.extractLsb' 32 32 ++ p.extractLsb' 0 32 = p := by
  rw [BitVec.extractLsb'_append_extractLsb'_eq_extractLsb' (show 32 = 0 + 32 from rfl)]
  exact BitVec.extractLsb'_eq_self

/-- One row loaded after the rows before it. -/
theorem issue_loadRow {tab : SymTable} (htab : TableInv tab) {s : State} {i : Fin 256} (hi : i.val < tab.nsym.val)
    (hlen : tab.slots[i].len ≠ 0) (hs : s.table.HoldsRows tab i.val) :
    ∃ t, issue (loadRow tab.slots[i]) s = .next t ∧ t.table.HoldsRows tab (i.val + 1) ∧ SameButTable s t := by
  have hpos : 1 ≤ tab.slots[i].len.val := Nat.one_le_iff_ne_zero.2 fun h0 => hlen (Fin.ext h0)
  have hlegal : LegalLength tab.slots[i].len.val := ⟨hpos, Nat.le_of_lt_succ tab.slots[i].len.isLt⟩
  have hnew : ∀ j : Fin 256, j.val < s.table.nsym.val → s.table.symbolAt j ≠ tab.symbolAt i := fun j hj he => by
    rw [hs.nsym] at hj
    have hji : tab.symbolAt j = tab.symbolAt i := by
      rw [← he, SymTable.symbolAt, SymTable.symbolAt, hs.slot j hj]
    exact hj.ne (congrArg Fin.val (htab.symbolAt_injective (hj.trans hi) hi hji))
  obtain ⟨tab', hfor, hn, -, hslots⟩ := SymTable.slotFor_of_new_of_room hs.nsym.symm hnew
  have hcode : lowBits (s.issued (loadRow tab.slots[i])).patternArg tab.slots[i].len.val = tab.slots[i].code := by
    have hp : (s.issued (loadRow tab.slots[i])).patternArg = tab.slots[i].code := halves_append _
    rw [hp, lowBits_of_lt (htab.codeFits i hi)]
  have hexec := exec_ctLoad_of_slot (s := s.issued (loadRow tab.slots[i])) (htab.legal i hi) hlegal hfor
  rw [hcode] at hexec
  refine ⟨_, perform_of_next hexec, ⟨?_, fun j hj => ?_⟩, rfl, rfl, rfl⟩
  · rw [SymTable.setCode_nsym, hn, hs.nsym]
  · rw [SymTable.setCode_slots]
    by_cases hij : i = j
    · subst hij
      rw [if_pos rfl, hslots, if_pos rfl]
      simp [SymTable.symbolAt]
    · rw [if_neg hij, hslots, if_neg hij, hs.slot j (by omega)]

/-- The rows loaded in order, by induction on how many. -/
theorem issueAll_loadRow {tab : SymTable} (htab : TableInv tab)
    (hcoded : ∀ i : Fin 256, i.val < tab.nsym.val → tab.slots[i].len ≠ 0) {s : State} (hs : s.table.nsym.val = 0) {n : Nat}
    (hn : n ≤ tab.nsym.val) :
    ∃ t, issueAll ((tab.valid.take n).map fun i => loadRow tab.slots[i]) s = .next t ∧ t.table.HoldsRows tab n ∧
      SameButTable s t := by
  induction n with
  | zero => exact ⟨s, rfl, ⟨hs, fun _ hi => absurd hi (Nat.not_lt_zero _)⟩, rfl, rfl, rfl⟩
  | succ n ih =>
    obtain ⟨u, hu, hrows, htree, hpend, herror⟩ := ih (by omega)
    have hlt : n < tab.valid.length := by rwa [tab.valid_length]
    have hval := tab.valid_getElem hlt
    rw [← hval] at hrows hn
    obtain ⟨t, ht, hrows', htree', hpend', herror'⟩ := issue_loadRow htab hn (hcoded _ hn) hrows
    rw [hval] at hrows'
    refine ⟨t, ?_, hrows', htree'.trans htree, hpend'.trans hpend, herror'.trans herror⟩
    rw [List.take_succ_eq_append_getElem hlt, List.map_append, List.map_singleton]
    exact issueAll_append.2 ⟨u, hu, (issueAll_singleton _ _).trans ht⟩

/-- Where all valid slots have codes they all are rows of the Code Table. -/
theorem SymTable.codeRows_of_coded {tab : SymTable} (h : ∀ i : Fin 256, i.val < tab.nsym.val → tab.slots[i].len ≠ 0) :
    tab.codeRows = tab.valid.map fun i => tab.slots[i] := by
  rw [SymTable.codeRows, List.filter_eq_self]
  intro x hx
  obtain ⟨i, hi, rfl⟩ := List.mem_map.1 hx
  exact decide_eq_true (h i ((tab.mem_valid i).1 hi))

namespace SymTable.HoldsRows

variable {tab tab' : SymTable} (h : tab'.HoldsRows tab tab.nsym.val)
include h

theorem valid : tab'.valid = tab.valid := SymTable.valid_congr (Fin.ext h.nsym)

theorem bits {i : Fin 256} (hi : i.val < tab.nsym.val) : tab'.slots[i].bits = tab.slots[i].bits := by
  rw [h.slot i hi]
  rfl

theorem coded_iff {i : Fin 256} : tab'.Coded i ↔ tab.Coded i := by
  rw [SymTable.Coded, SymTable.Coded, h.nsym]
  exact and_congr_right fun hi => by rw [h.slot i hi]

theorem prefixFree (hpf : tab.PrefixFree) : tab'.PrefixFree := fun i j hi hj hij => by
  rw [h.coded_iff] at hi hj
  rw [h.bits hi.1, h.bits hj.1] at hij
  exact hpf i j hi hj hij

theorem innerPaths : tab'.innerPaths tab'.valid = tab.innerPaths tab.valid := by
  ext p
  rw [h.valid, SymTable.mem_innerPaths, SymTable.mem_innerPaths]
  refine or_congr_right (exists_congr fun i => and_congr_right fun hi => ?_)
  rw [h.bits ((tab.mem_valid i).1 hi)]

end SymTable.HoldsRows

/-! ## A decode session over units that spell leaves (45_decoder.md R84 to R86) -/

section
variable {t : Tree} {r c c' : Fin 1024}

theorem Spells.cons_node {b : Bool} {k : Fin 1024} {bits : List Bool} {out : List (Fin 256)}
    (hb : t.nodes[c].child b = .node k) (h : Spells t r k bits out c') : Spells t r c (b :: bits) out c' := by
  cases h with
  | rest _ _ _ hp => exact .rest c c' (b :: bits) (by rw [Tree.follow_node, hb, hp])
  | leaf _ _ p bits i out hp tail => exact .leaf c c' (b :: p) bits i out (by rw [Tree.follow_node, hb, hp]) tail

theorem Spells.cons_leaf {b : Bool} {i : Fin 256} {bits : List Bool} {out : List (Fin 256)}
    (hb : t.nodes[c].child b = .leaf i) (h : Spells t r r bits out c') : Spells t r c (b :: bits) (i :: out) c' :=
  .leaf c c' [b] bits i out (by rw [Tree.follow_node, hb, Tree.follow_nil]) h

/-- What bits spell is what their first part spells and then the rest, from where the first part ends. -/
theorem Spells.split {p q : List Bool} {out : List (Fin 256)} (h : Spells t r c (p ++ q) out c') :
    ∃ out₁ m out₂, out = out₁ ++ out₂ ∧ Spells t r c p out₁ m ∧ Spells t r m q out₂ c' := by
  induction p generalizing c out with
  | nil => exact ⟨[], c, out, rfl, .rest c c [] (Tree.follow_nil t _), h⟩
  | cons b p ih =>
    obtain ⟨k, hb, htail⟩ | ⟨i, out', hb, rfl, htail⟩ := h.cons_cases (List.cons_append ..)
    · obtain ⟨out₁, m, out₂, rfl, h₁, h₂⟩ := ih htail
      exact ⟨out₁, m, out₂, rfl, h₁.cons_node hb, h₂⟩
    · obtain ⟨out₁, m, out₂, rfl, h₁, h₂⟩ := ih htail
      exact ⟨i :: out₁, m, out₂, rfl, h₁.cons_leaf hb, h₂⟩

/-- Leaf paths one after another spell their leaves. -/
theorem spells_of_leafPaths (hr : t.root = .node r) (path : Fin 256 → List Bool) {is : List (Fin 256)}
    (h : ∀ i ∈ is, t.LeafPath (path i) i) : Spells t r r (is.flatMap path) is r := by
  induction is with
  | nil => exact .rest r r [] (Tree.follow_nil t _)
  | cons i is ih =>
    obtain ⟨hi, his⟩ := List.forall_mem_cons.1 h
    rw [Tree.LeafPath, hr] at hi
    exact .leaf r r (path i) (is.flatMap path) i is hi (ih his)

end

/-- The words of the symbols of these slots. -/
def SymTable.words (tab : SymTable) (out : List (Fin 256)) : List Word := out.map fun i => symbolWord tab.slots[i].sym

/-- DE_UNIT issued in an open session, over bits that spell leaves. -/
theorem issue_deUnit {s : State} {r c : Fin 1024} {u : StorageUnit} {out : List (Fin 256)} (ha : s.dec.act = true)
    (hr : s.tree.root = .node r) (h : Spells s.tree r s.dec.cur (msbFirst u 16) out c) :
    ∃ t, issue (plain (.deUnit u)) s = .next t ∧ t.table = s.table ∧ t.tree = s.tree ∧ t.error = s.error ∧
      t.dec.act = true ∧ t.dec.cur = c ∧ t.pend = s.pend ++ s.table.words out :=
  ⟨_, perform_of_next (exec_deUnit_of_good (s := s.issued (plain (.deUnit u))) ha hr
    (decBits_of_spells le_rfl (by simpa using h)) rfl), rfl, rfl, rfl, ha, rfl, rfl⟩

/-- DE_LAST issued in an open session, over bits that spell leaves and end at the root. -/
theorem issue_deLast {s : State} {r : Fin 1024} {u : StorageUnit} {skip : Nat} {out : List (Fin 256)}
    (ha : s.dec.act = true) (hr : s.tree.root = .node r)
    (h : Spells s.tree r s.dec.cur ((msbFirst u 16).take (16 - skip)) out r) :
    ∃ t, issue (plain (.deLast u skip)) s = .next t ∧ t.error = s.error ∧ t.pend = s.pend ++ s.table.words out :=
  ⟨_, perform_of_next (exec_deLast_of_root (s := s.issued (plain (.deLast u skip))) ha hr
    (decBits_of_spells (Nat.sub_le 16 skip) h) rfl rfl), rfl, rfl⟩

/-- The bits of a payload, in time order. -/
def payloadBits (us : List StorageUnit) : List Bool := us.flatMap fun u => msbFirst u 16

theorem payloadBits_map_unitOf (ws : List Word) : payloadBits (ws.map unitOf) = unitsBits ws := by
  rw [payloadBits, unitsBits, List.flatMap_map]

@[simp] theorem payloadBits_length (us : List StorageUnit) : (payloadBits us).length = 16 * us.length := by
  simp [payloadBits, List.length_flatMap, Nat.mul_comm]

/-- A session over units whose bits, but for the last `skip`, spell leaves and end at the root, by induction on the units. -/
theorem issueAll_decodeSession {skip : Nat} (hskip : skip ≤ 15) {us : List StorageUnit} (hne : us ≠ []) {s : State}
    {r : Fin 1024} {out : List (Fin 256)} (ha : s.dec.act = true) (hr : s.tree.root = .node r)
    (h : Spells s.tree r s.dec.cur ((payloadBits us).take (16 * us.length - skip)) out r) :
    ∃ t, issueAll (decodeSession us skip) s = .next t ∧ t.error = s.error ∧ t.pend = s.pend ++ s.table.words out := by
  induction us generalizing s out with
  | nil => exact absurd rfl hne
  | cons u us ih =>
    cases us with
    | nil =>
      rw [decodeSession, issueAll_singleton]
      exact issue_deLast ha hr (by simpa [payloadBits] using h)
    | cons v us =>
      have hbits : (payloadBits (u :: v :: us)).take (16 * (u :: v :: us).length - skip) =
          msbFirst u 16 ++ (payloadBits (v :: us)).take (16 * (v :: us).length - skip) := by
        have hcut : 16 * (u :: v :: us).length - skip = (msbFirst u 16).length + (16 * (v :: us).length - skip) := by
          simp only [msbFirst_length, List.length_cons]
          omega
        rw [hcut, payloadBits, List.flatMap_cons, List.take_length_add_append, payloadBits]
      rw [hbits] at h
      obtain ⟨out₁, c, out₂, rfl, h₁, h₂⟩ := h.split
      obtain ⟨w, hw, htable, htree, herror, hact, hcur, hpend⟩ := issue_deUnit ha hr h₁
      obtain ⟨t, ht, herror', hpend'⟩ := ih (List.cons_ne_nil v us) (s := w) hact (htree ▸ hr) (by rw [htree, hcur]; exact h₂)
      refine ⟨t, issueAll_cons.2 ⟨w, hw, ht⟩, herror'.trans herror, ?_⟩
      rw [hpend', hpend, htable, SymTable.words, SymTable.words, SymTable.words, List.map_append, List.append_assoc]

/-! ## The round trip (R87) -/

/-- The slots whose codes a session sent: the text's symbols are theirs. -/
theorem exists_slots_of_codes {tab : SymTable} {text : List Word} {rows : List Slot}
    (h : text.map tab.codeOf = rows.map some) :
    ∃ is : List (Fin 256), (∀ i ∈ is, tab.Coded i) ∧ text = is.map tab.symbolAt ∧ rows = is.map fun i => tab.slots[i] := by
  induction text generalizing rows with
  | nil =>
    obtain rfl : rows = [] := List.map_eq_nil_iff.1 h.symm
    exact ⟨[], nofun, rfl, rfl⟩
  | cons y text ih =>
    obtain ⟨x, rows, rfl, hx, hrows⟩ := List.map_eq_cons_iff.1 h.symm
    obtain ⟨is, his, rfl, rfl⟩ := ih hrows.symm
    obtain ⟨i, hi, rfl, rfl, hlen⟩ := SymTable.codeOf_some hx.symm
    exact ⟨i :: is, List.forall_mem_cons.2 ⟨⟨hi, hlen⟩, his⟩, rfl, rfl⟩

/-- What ENCODE leaves of a text: a table to carry and the codes of the text's symbols with `skip` zeros after them. -/
structure EncodedAs (e : State) (is : List (Fin 256)) (skip : Nat) : Prop where
  table : TableInv e.table
  loadable : e.table.Loadable
  coded : ∀ i ∈ is, e.table.Coded i
  skip_le : skip ≤ 15
  res0 : e.res.res0.toNat = skip
  bits : unitsBits e.pend = (is.flatMap fun i => e.table.slots[i].bits) ++ List.replicate skip false

/-- The instructions of an encode session. -/
theorem forall_mem_encodeSession {P : Instr → Prop} (hstart : P .enStart) (hsym : P .enSym) (hflush : P .enFlush)
    (text : List Word) : ∀ c ∈ encodeSession text, P c.1 := by
  simp [encodeSession, plain, withSymbol, or_imp, forall_and, hstart, hsym, hflush]

/-- The instructions before it. -/
theorem forall_mem_countAndBuild {P : Instr → Prop} (hcount : P .fcCount) (hbuild : P .tbBuild) (hderive : P .ctDerive)
    (text : List Word) : ∀ c ∈ text.map (withSymbol .fcCount) ++ [plain .tbBuild, plain .ctDerive], P c.1 := by
  simp [plain, withSymbol, or_imp, forall_and, hcount, hbuild, hderive]

theorem issueAll_encodeCommands {text : List Word} {e : State} (h : issueAll (encodeCommands text) State.idle = .next e)
    (he : e.error.err = false) :
    ∃ is skip, EncodedAs e is skip ∧ text = is.map e.table.symbolAt := by
  obtain ⟨b, hb, hsession⟩ := issueAll_append.1 h
  obtain ⟨a, ha, hbuilt⟩ := issueAll_append.1 hb
  have hbe : b.error.err = false :=
    issueAll_clear (forall_mem_encodeSession (P := (· ≠ .sreset)) nofun nofun nofun text) hsession he
  have hinv : TableInv b.table :=
    issueAll_tableInv (s := State.idle) (forall_mem_countAndBuild (P := (· ≠ .sreset)) nofun nofun nofun text)
      resetMeetsInvariant.table hb
  have hpend : b.pend = [] :=
    issueAll_pend (s := State.idle) (forall_mem_countAndBuild (P := fun i => i ≠ .sreset ∧ emitBound i = 0)
      ⟨nofun, rfl⟩ ⟨nofun, rfl⟩ ⟨nofun, rfl⟩ text) hb
  have htable : e.table = b.table :=
    issueAll_table (forall_mem_encodeSession (P := fun i => i ≠ .sreset ∧ ¬ WritesTable i)
      ⟨nofun, by simp [WritesTable]⟩ ⟨nofun, by simp [WritesTable]⟩ ⟨nofun, by simp [WritesTable]⟩ text) hsession
  obtain ⟨rows, ws, hcodes, hwords, hlen, hres, hB, hbits⟩ := sessionPayload b e text hinv hsession he
  obtain ⟨is, hcoded, htext, rfl⟩ := exists_slots_of_codes hcodes
  have hskip := Nat.mod_lt (16 - ((is.map fun i => b.table.slots[i]).map fun x => x.len.val).sum % 16) (show 0 < 16 by decide)
  refine ⟨is, _, ⟨htable ▸ hinv, htable ▸ issueAll_tbBuild_ctDerive_loadable hbuilt hbe, htable ▸ hcoded,
    Nat.le_of_lt_succ hskip, ?_, ?_⟩, htable ▸ htext⟩
  · rw [hres]
    exact Nat.mod_eq_of_lt (by omega)
  · rw [hwords, hpend, List.nil_append, hbits, htable, List.flatMap_map]

/-- The rows loaded and TR_REBUILD performed: the table and a tree whose leaf paths are its codes. -/
theorem issueAll_rebuild {tab : SymTable} (htab : TableInv tab) (hload : tab.Loadable) :
    ∃ d, issueAll (tab.codeRows.map loadRow ++ [plain .trRebuild]) State.idle = .next d ∧
      d.table.HoldsRows tab tab.nsym.val ∧ d.tree.Places d.table d.table.valid ∧ d.error.err = false ∧ d.pend = [] := by
  obtain ⟨a, ha, hrows, -, hpend, herror⟩ := issueAll_loadRow htab hload.coded (s := State.idle) rfl le_rfl
  rw [← tab.valid_length, List.take_length] at ha
  rw [SymTable.codeRows_of_coded hload.coded, List.map_map]
  obtain ⟨T, hT, hplaces⟩ := exec_trRebuild_of_prefixFree
    (s := a.issued (plain .trRebuild))
    (hrows.prefixFree hload.prefixFree) (by rw [hrows.innerPaths]; exact hload.room)
  refine ⟨_, issueAll_append.2 ⟨a, ha, (issueAll_singleton _ _).trans (perform_of_next hT)⟩, hrows, hplaces, ?_, hpend⟩
  exact congrArg ErrorState.err herror

/-- DE_START and the session, over units whose bits are leaf paths one after another and `skip` bits more. -/
theorem issueAll_decodePaths {s : State} {r : Fin 1024} {us : List StorageUnit} {skip : Nat} {is : List (Fin 256)}
    {path : Fin 256 → List Bool} {pad : List Bool} (hr : s.tree.root = .node r) (hne : us ≠ []) (hskip : skip ≤ 15)
    (hpath : ∀ i ∈ is, s.tree.LeafPath (path i) i) (hbits : payloadBits us = is.flatMap path ++ pad) (hpad : pad.length = skip) :
    ∃ d, issueAll (plain .deStart :: decodeSession us skip) s = .next d ∧ d.error = s.error ∧
      d.pend = s.pend ++ s.table.words is := by
  have hlen : 16 * us.length - skip = (is.flatMap path).length := by
    rw [← payloadBits_length, hbits, List.length_append, hpad, Nat.add_sub_cancel]
  have hstart : issue (plain .deStart) s = .next { s with args := (plain .deStart).2, dec := ⟨true, r, 0⟩, exec := none } :=
    perform_of_next (exec_deStart_of_node (s := s.issued (plain .deStart)) hr)
  obtain ⟨d, hd, herror, hpend⟩ := issueAll_decodeSession hskip hne
    (s := { s with args := (plain .deStart).2, dec := ⟨true, r, 0⟩, exec := none }) (r := r) (out := is) rfl hr (by
      rw [hlen, hbits, List.take_left]
      exact spells_of_leafPaths hr path hpath)
  exact ⟨d, issueAll_cons.2 ⟨_, hstart, hd⟩, herror, hpend⟩

/-- The words of a table's slots are the words of their symbols. -/
theorem SymTable.HoldsRows.words_eq {tab tab' : SymTable} (h : tab'.HoldsRows tab tab.nsym.val) {is : List (Fin 256)}
    (his : ∀ i ∈ is, tab.Coded i) :
    tab'.words is = (is.map tab.symbolAt).map fun y => symbolWord (y.setWidth 21) := by
  rw [SymTable.words, List.map_map]
  refine List.map_congr_left fun i hi => congrArg symbolWord ?_
  rw [h.slot i (his i hi).1, SymTable.symbolAt, BitVec.setWidth_setWidth_of_le _ (by decide), BitVec.setWidth_eq]

/-- Settles O50: ENCODE sends the codes of the text's slots and fills up the last unit; the table carried has a tree whose leaf
paths are those codes, so that a session over the units finds the slots again. -/
theorem decodeOfEncodedText : Obligations.DecodeOfEncodedText := by
  intro text e h he
  obtain ⟨is, skip, hencoded, rfl⟩ := issueAll_encodeCommands h he
  obtain ⟨a, ha, hrows, hplaces, herror, hpend⟩ := issueAll_rebuild hencoded.table hencoded.loadable
  have hbits : payloadBits (e.pend.map unitOf) = _ := (payloadBits_map_unitOf e.pend).trans hencoded.bits
  rw [← hrows.words_eq hencoded.coded, decodeCommands, hencoded.res0]
  split
  · next hnone =>
    rw [hnone] at hbits
    obtain ⟨hnil, -⟩ := List.append_eq_nil_iff.1 hbits.symm
    obtain rfl : is = [] := List.eq_nil_iff_forall_not_mem.2 fun i hi =>
      Slot.bits_ne_nil (hencoded.coded i hi).2 (List.flatMap_eq_nil_iff.1 hnil i hi)
    exact ⟨a, by rwa [List.append_nil], herror, hpend⟩
  · next hsome =>
    have hpath : ∀ i ∈ is, a.tree.LeafPath e.table.slots[i].bits i := fun i hi =>
      (hplaces.leafPath_iff _ i).2
        ⟨hrows.coded_iff.2 (hencoded.coded i hi), (hrows.bits (hencoded.coded i hi).1).symm⟩
    obtain ⟨d, hd, hderror, hdpend⟩ := issueAll_decodePaths (path := fun i => e.table.slots[i].bits) hplaces.root hsome
      hencoded.skip_le hpath hbits List.length_replicate
    refine ⟨d, issueAll_append.2 ⟨a, ha, hd⟩, hderror ▸ herror, ?_⟩
    rw [hdpend, hpend, List.nil_append]

end Sys2Proof.Machine
end
